-- ==== Sys2Proof/Word.lean ====
section
/-! DEFINITION. The element types of KeWoKe CORE (00_scope.md rules R14, R16, R17): a 16-bit sample or Q15 value and a
32-bit word. Both are two's complement patterns; `BitVec.toInt` reads the signed integer a pattern stands for. -/

namespace Sys2Proof

/-- `int16` of rule R14: one PCM sample, one Q15 table entry, one cepstral coefficient. -/
abbrev Sample := BitVec 16

/-- A 32-bit word: a command word (R91), a response's data (R96), a CSR (R49), a `uint32` power value (R38). -/
abbrev Word := BitVec 32

end Sys2Proof
end

