-- ==== Sys2Proof/Machine/LogCompress.lean ====
section
/-! DEFINITION. The log compression `LOGQ` of the Mel stage (44_power_mel.md rules R206 to R213) as plain data and its
evaluation. `LOGQ` is a configuration function from `[0, 2^64)` to the integers (R207); a function on a finite domain is
piecewise constant, so a list of breakpoints holds any of them, and the reference `LOGQ_ref` (R212) is evaluated by integer
arithmetic. -/

namespace Sys2Proof.Machine

/-- The configuration parameter `LOGQ` (R12, R207) as data: the reference of R212 with its `LOG_GAIN`, or any other total
function given by the points where its value changes. -/
inductive LogFn where
  /-- `LOGQ_ref` with the named parameter `LOG_GAIN` (R212). That the parameter is a natural number, any one of them, 0
  included, is the model's choice: R212 gives its value 1024 and no range (log entry 29). -/
  | reference (logGain : Nat)
  /-- The function whose value at `acc` is that of the last listed `(threshold, value)` with `threshold <= acc`. -/
  | table (steps : List (Nat × Int))
deriving DecidableEq, Repr

/-- Value of a breakpoint list at `acc`: the last entry at or below `acc` wins, 0 below the first. -/
def tableValue (steps : List (Nat × Int)) (acc : Nat) : Int :=
  steps.foldl (fun v p => if p.1 ≤ acc then p.2 else v) 0

/-- Fractional bits of the fixed-point numbers `logqRef` computes with; they grow with the gain, so that the relative error
of every threshold stays below `2^-170` whatever the gain is (log entry 4). -/
def logPrecision (gain : Nat) : Nat := 192 + 2 * Nat.log2 gain

/-- `fuel + 1` terms of the exponential series from term number `n` on, each term rounded down. -/
def expSeries (gain : Nat) : Nat → Nat → Nat → Nat
  | 0, _, term => term
  | fuel + 1, n, term => term + expSeries gain fuel (n + 1) (term / (gain * (n + 1)))

/-- `e^(1 / gain)` scaled by `2^logPrecision`, from below. -/
def expUnit (gain : Nat) : Nat := expSeries gain 64 0 (2 ^ logPrecision gain)

/-- `e^(2^j / gain)` scaled by `2^logPrecision`, from below, by repeated squaring. -/
def expPow (gain : Nat) : Nat → Nat
  | 0 => expUnit gain
  | j + 1 => expPow gain j ^ 2 / 2 ^ logPrecision gain

/-- Greedy binary digits of the largest `k` with `32768 * e^(k / gain) <= acc`: `k` is the part found so far and `prod` is
`e^(k / gain)` scaled by `2^logPrecision`. -/
def logDigits (gain acc : Nat) : Nat → Nat → Nat → Nat
  | 0, k, _ => k
  | j + 1, k, prod =>
    if 2 ^ 15 * (prod * expPow gain j / 2 ^ logPrecision gain) ≤ acc * 2 ^ logPrecision gain then
      logDigits gain acc j (k + 2 ^ j) (prod * expPow gain j / 2 ^ logPrecision gain)
    else logDigits gain acc j k prod

/-- `LOGQ_ref(acc) = trunc(LOG_GAIN * ln(max(acc / 32768, 1)))` (R212), that is the largest `k` with
`32768 * e^(k / LOG_GAIN) <= acc`, and 0 where `acc <= 32768` or the gain is 0. For `acc < 2^64` the result is below
`34 * LOG_GAIN`, which `log2 LOG_GAIN + 7` binary digits hold (log entry 4). -/
def logqRef (gain acc : Nat) : Nat :=
  if gain = 0 then 0 else logDigits gain acc (Nat.log2 gain + 7) 0 (2 ^ logPrecision gain)

/-- `LOGQ(acc)`: the value the Mel stage reads (R208). -/
def LogFn.value : LogFn → Nat → Int
  | .reference gain, acc => (logqRef gain acc : Nat)
  | .table steps, acc => tableValue steps acc

end Sys2Proof.Machine
end

