-- ==== Sys2Proof/Config.lean ====
section
/-! DEFINITION. The configuration of one deployment (00_scope.md rules R8 to R13, 10_state.md rule R47): parameters, ROM
tables and the log compression, fixed for the life of the hardware; the reference deployment TINY; and the free values that
stand for work-buffer contents no operation has written (10_state.md rule R52). -/

namespace Sys2Proof

/-- The named parameter `BYTE_ORDER` of 20_memory.md rule R62. No rule reads it. -/
inductive ByteOrder where
  | littleEndian
  | bigEndian
deriving DecidableEq, Repr

/-- One deployment: the parameters of R8 and the tables of R12, under the spec's names. `FS` and `BYTE_ORDER` are read by no
operation (R8, R62; log entry 18). -/
structure Config where
  /-- Ring capacity in samples (R8, R9). -/
  C : Nat
  /-- Frame size (R8). -/
  W : Nat
  /-- Stride (R8). -/
  S : Nat
  /-- Transform length (R8). -/
  NFFT : Nat
  /-- Number of Mel filters (R8). -/
  NF : Nat
  /-- Cepstral count (R8). -/
  NCEPS : Nat
  /-- Frames per matrix (R8). -/
  NUM_FRAMES : Nat
  /-- Pre-emphasis coefficient as a Q15 integer (R12, R172). -/
  ALPHA_Q15 : Nat
  /-- Hamming window table (R177). -/
  HAM : List Sample
  /-- Real parts of the FFT twiddles (R187). -/
  TW_RE : List Sample
  /-- Imaginary parts of the FFT twiddles (R187). -/
  TW_IM : List Sample
  /-- Mel filter weights, one row of `NBINS` per filter (R204). -/
  MELW : List (List Sample)
  /-- DCT cosine table, one row of `NF` per coefficient (R221). -/
  DCTC : List (List Sample)
  /-- Log compression (R207). -/
  LOGQ : Machine.LogFn
  /-- Sample rate, where the deployment states one (R8). -/
  FS : Option Nat := none
  /-- Byte order of a platform that maps RING into a byte-addressed memory (R62). -/
  BYTE_ORDER : ByteOrder := .littleEndian
deriving DecidableEq, Repr

/-- `LOGC = log2(C)` (R11). -/
def Config.LOGC (c : Config) : Nat := Nat.log2 c.C

/-- `LOG2N = log2(NFFT)` (R11). -/
def Config.LOG2N (c : Config) : Nat := Nat.log2 c.NFFT

/-- `NBINS = NFFT/2 + 1` (R11). -/
def Config.NBINS (c : Config) : Nat := c.NFFT / 2 + 1

/-- The reference deployment TINY (R13). -/
def Config.tiny : Config where
  C := 16
  W := 4
  S := 2
  NFFT := 4
  NF := 2
  NCEPS := 2
  NUM_FRAMES := 2
  ALPHA_Q15 := 31785
  HAM := [2621#16, 25231#16, 25231#16, 2621#16]
  TW_RE := [32767#16, 0#16]
  TW_IM := [0#16, BitVec.ofInt 16 (-32768)]
  MELW := [[32767#16, 16384#16, 0#16], [0#16, 16384#16, 32767#16]]
  DCTC := [[32767#16, 32767#16], [23170#16, BitVec.ofInt 16 (-23170)]]
  LOGQ := .reference 1024

/-! Free values: what element `i` of a work buffer reads as after the `r`-th reset, before an operation has written it
(R52, R53: "a model must not pick one"; log entry 7). Nothing constrains them. -/

/-- Free value: an unwritten element of `frame` (R36). -/
opaque Config.freeFrame : Nat → Nat → Sample

/-- Free value: an unwritten element of `fre` (R37). -/
opaque Config.freeFre : Nat → Nat → Int

/-- Free value: an unwritten element of `fim` (R37). -/
opaque Config.freeFim : Nat → Nat → Int

/-- Free value: an unwritten element of `power` (R38). -/
opaque Config.freePower : Nat → Nat → Word

/-- Free value: an unwritten element of `melq` (R39). -/
opaque Config.freeMelq : Nat → Nat → Sample

/-- Free value: an unwritten element of `ceps` (R40). -/
opaque Config.freeCeps : Nat → Nat → Sample

end Sys2Proof
end

