-- ==== Sys2Proof/Syntax.lean ====
section
/-! DEFINITION. The instructions of KeWoKe CORE (00_scope.md rule R7): the seven port commands of 30_encoding.md rule R93 and
the eight stage operations of rule R92, one constructor per row of spec/opcode_table.json; and the four ports of R285. -/

namespace Sys2Proof

/-- The four ports (R19, R285): P the Capture Producer, E the Stage Engine's scheduler, K the consumer, D diagnostics. -/
inductive Port where
  | P
  | E
  | K
  | D
deriving DecidableEq, Repr

/-- The stage register's eight values, in the source's order (R34, R92). -/
inductive Stage where
  | idle
  | preEmphasis
  | window
  | fft
  | power
  | mel
  | dct
  | store
deriving DecidableEq, Repr

/-- One instruction: a port command with its operand fields (all unsigned, R95), or a stage operation. -/
inductive Instr where
  /-- `PUSH n {payload}` (R128); the payload arrives on port P's beats (R94). -/
  | push (n : BitVec 16)
  /-- `STEP` (R151). -/
  | step
  /-- `AVAIL` (R130). -/
  | avail
  /-- `RDCSR a` (R262). -/
  | rdcsr (a : BitVec 8)
  /-- `MTAKE` (R238). -/
  | mtake
  /-- `MREAD r, c` (R239). -/
  | mread (r c : BitVec 12)
  /-- `RELEASE` (R240). -/
  | release
  /-- `ST.IDLE` (R155). -/
  | stIdle
  /-- `ST.PREEMPH` (R173). -/
  | stPreemph
  /-- `ST.WINDOW` (R179). -/
  | stWindow
  /-- `ST.FFT` (R190). -/
  | stFft
  /-- `ST.POWER` (R201). -/
  | stPower
  /-- `ST.MEL` (R208). -/
  | stMel
  /-- `ST.DCT` (R223). -/
  | stDct
  /-- `ST.STORE` (R233). -/
  | stStore
deriving DecidableEq, Repr

end Sys2Proof
end

