-- ==== Sys2Proof/WellFormed.lean ====
section
/-! DEFINITION. Well-formedness of a configuration (00_scope.md rules R9, R10, R12) and of an instruction's operands
(30_encoding.md rules R102, R103), as computable checks. A configuration that fails is refused by its type (R10: "a
subtype"; 93_implementation_defined.md I15). -/

namespace Sys2Proof

/-- `n` is a power of two (R9, R10). -/
def isPowerOfTwo (n : Nat) : Bool := n == 2 ^ Nat.log2 n

/-- A Q15 table of the given length with every entry in `[0, 32767]` (R12). -/
def isWeightRow (n : Nat) (row : List Sample) : Bool :=
  row.length == n && row.all fun q => decide (0 ≤ q.toInt)

/-- The log compression is a function the machine may use: `LOGQ(0) = 0` (R12, R207). The reference has that property with
every `LOG_GAIN` (R212 (a)), so no gain is refused; R212 gives no range (log entry 29). -/
def Machine.LogFn.wf : Machine.LogFn → Bool
  | .reference _ => true
  | .table steps => Machine.tableValue steps 0 == 0

/-- The sizes of R9 and R10. -/
def Config.sizesOk (c : Config) : Bool :=
  isPowerOfTwo c.C && decide (2 ≤ c.C ∧ c.C ≤ 65536) && decide (1 ≤ c.S ∧ c.S < c.W) &&
    decide (2 ≤ c.W ∧ c.W ≤ c.C - 1) && decide (c.W ≤ c.NFFT) && isPowerOfTwo c.NFFT &&
    decide (2 ≤ c.NFFT ∧ c.NFFT ≤ 16384) && decide (1 ≤ c.NF ∧ c.NF ≤ 256) &&
    decide (1 ≤ c.NCEPS ∧ c.NCEPS ≤ c.NF) && decide (1 ≤ c.NUM_FRAMES ∧ c.NUM_FRAMES ≤ 4096)

/-- The ROM constraints of R12 and `ALPHA_Q15` of R10. -/
def Config.tablesOk (c : Config) : Bool :=
  decide (c.ALPHA_Q15 ≤ 32767) && isWeightRow c.W c.HAM && c.TW_RE.length == c.NFFT / 2 &&
    c.TW_IM.length == c.NFFT / 2 && c.MELW.length == c.NF && c.MELW.all (isWeightRow c.NBINS) &&
    c.DCTC.length == c.NCEPS && c.DCTC.all (fun row => row.length == c.NF) && c.LOGQ.wf

/-- A configuration is well-formed when R9, R10 and R12 hold together. -/
def Config.wf (c : Config) : Bool := c.sizesOk && c.tablesOk

/-- A well-formed configuration, the model's configuration type (R10). -/
abbrev WfConfig := { c : Config // c.wf = true }

/-- TINY is well-formed (R13). -/
def WfConfig.tiny : WfConfig := ⟨Config.tiny, by decide⟩

/-- The CSR addresses of 10_state.md rule R49 (R102). -/
def csrDefined (a : BitVec 8) : Bool :=
  decide (a.toNat ≤ 0x05) || decide (0x08 ≤ a.toNat ∧ a.toNat ≤ 0x0B) || decide (0x10 ≤ a.toNat ∧ a.toNat ≤ 0x17)

/-- An instruction's operands are in range under a configuration: a defined CSR address (R102), a matrix element that
exists (R103). Every other field admits all its values (R95, R105). -/
def Instr.wf (c : Config) : Instr → Bool
  | .push _ => true
  | .step => true
  | .avail => true
  | .rdcsr a => csrDefined a
  | .mtake => true
  | .mread r col => decide (r.toNat < c.NUM_FRAMES) && decide (col.toNat < c.NCEPS)
  | .release => true
  | .stIdle => true
  | .stPreemph => true
  | .stWindow => true
  | .stFft => true
  | .stPower => true
  | .stMel => true
  | .stDct => true
  | .stStore => true

end Sys2Proof
end

