-- ==== Sys2Proof/Decode.lean ====
section
/-! DEFINITION. The decoder and the encoder (30_encoding.md rules R90 to R106). Format C is a 32-bit command word on a port,
format S a 3-bit stage code; both are total, and a command word that is not a command of its port is rejected by name
(R99 checks 1 to 3). Operand ranges and protocol preconditions (R99 checks 4 and 5) are the meanings' own. -/

namespace Sys2Proof

/-- The seven operation codes of R93. -/
inductive Opcode where
  | push
  | step
  | avail
  | rdcsr
  | mtake
  | mread
  | release
deriving DecidableEq, Repr

/-- Why a command word is not a command of the port it arrived on (R99 checks 1, 2, 3). -/
inductive Reject where
  /-- `OPC` is `0x00` or in `0x08..0xFF` (R100). -/
  | reservedOpcode
  /-- The command is bound to another port (R104). -/
  | wrongPort
  /-- A must-be-zero bit is set (R101). -/
  | mustBeZero
deriving DecidableEq, Repr

/-- `OPC`, the field `[31:24]` of a command word (R91, R93); reserved codes give none (R100). -/
def opcodeOf (w : Word) : Option Opcode :=
  match (w.extractLsb' 24 8).toNat with
  | 1 => some .push
  | 2 => some .step
  | 3 => some .avail
  | 4 => some .rdcsr
  | 5 => some .mtake
  | 6 => some .mread
  | 7 => some .release
  | _ => none

/-- The port a command is bound to (R104, R285). -/
def Opcode.port : Opcode → Port
  | .push => .P
  | .step => .E
  | .avail => .D
  | .rdcsr => .D
  | .mtake => .K
  | .mread => .K
  | .release => .K

/-- The match column of R93. -/
def Opcode.matchBits : Opcode → Word
  | .push => 0x01000000#32
  | .step => 0x02000000#32
  | .avail => 0x03000000#32
  | .rdcsr => 0x04000000#32
  | .mtake => 0x05000000#32
  | .mread => 0x06000000#32
  | .release => 0x07000000#32

/-- The mask column of R93: the bits the match column fixes, `OPC` and the must-be-zero bits of the sub-format (R91). -/
def Opcode.mask : Opcode → Word
  | .push => 0xFFFF0000#32
  | .step => 0xFFFFFFFF#32
  | .avail => 0xFFFFFFFF#32
  | .rdcsr => 0xFFFFFF00#32
  | .mtake => 0xFFFFFFFF#32
  | .mread => 0xFF000000#32
  | .release => 0xFFFFFFFF#32

/-- The instruction with its operand fields read from the word (R91 sub-formats CN, CA, CM; R95). -/
def Opcode.instr (w : Word) : Opcode → Instr
  | .push => .push (w.extractLsb' 0 16)
  | .step => .step
  | .avail => .avail
  | .rdcsr => .rdcsr (w.extractLsb' 0 8)
  | .mtake => .mtake
  | .mread => .mread (w.extractLsb' 12 12) (w.extractLsb' 0 12)
  | .release => .release

/-- Decoding of a command word on a port, in the order of R99: opcode, port, must-be-zero bits. -/
def decodeOn (p : Port) (w : Word) : Except Reject Instr :=
  match opcodeOf w with
  | none => .error .reservedOpcode
  | some o =>
    if o.port ≠ p then .error .wrongPort
    else if w &&& o.mask ≠ o.matchBits then .error .mustBeZero
    else .ok (o.instr w)

/-- The stage a 3-bit code names (R92). All eight codes are used. -/
def Stage.ofCode (c : BitVec 3) : Stage :=
  match c.toNat with
  | 0 => .idle
  | 1 => .preEmphasis
  | 2 => .window
  | 3 => .fft
  | 4 => .power
  | 5 => .mel
  | 6 => .dct
  | _ => .store

/-- The 3-bit code of a stage (R92). -/
def Stage.code : Stage → BitVec 3
  | .idle => 0#3
  | .preEmphasis => 1#3
  | .window => 2#3
  | .fft => 3#3
  | .power => 4#3
  | .mel => 5#3
  | .dct => 6#3
  | .store => 7#3

/-- The stage operation a STEP executes in a stage (R92, R151). -/
def Stage.operation : Stage → Instr
  | .idle => .stIdle
  | .preEmphasis => .stPreemph
  | .window => .stWindow
  | .fft => .stFft
  | .power => .stPower
  | .mel => .stMel
  | .dct => .stDct
  | .store => .stStore

/-- Decoding of a stage code (format S, R92): total, since every code is used. -/
def decodeStage (c : BitVec 3) : Instr := (Stage.ofCode c).operation

/-- An encoded instruction: a command word with the port that may carry it (format C), or a stage code (format S). -/
inductive Encoded where
  | command (p : Port) (w : Word)
  | stage (c : BitVec 3)
deriving DecidableEq, Repr

/-- Decoding of either format (R90). -/
def decode : Encoded → Except Reject Instr
  | .command p w => decodeOn p w
  | .stage c => .ok (decodeStage c)

/-- The encoder, from the layouts of R91 to R93. -/
def encode : Instr → Encoded
  | .push n => .command .P (0x0100#16 ++ n)
  | .step => .command .E 0x02000000#32
  | .avail => .command .D 0x03000000#32
  | .rdcsr a => .command .D (0x040000#24 ++ a)
  | .mtake => .command .K 0x05000000#32
  | .mread r c => .command .K (0x06#8 ++ r ++ c)
  | .release => .command .K 0x07000000#32
  | .stIdle => .stage 0#3
  | .stPreemph => .stage 1#3
  | .stWindow => .stage 2#3
  | .stFft => .stage 3#3
  | .stPower => .stage 4#3
  | .stMel => .stage 5#3
  | .stDct => .stage 6#3
  | .stStore => .stage 7#3

/-- The port whose command a word is by its opcode; a reserved opcode is put on port D, where it is as illegal as on any
other (R100). -/
def wordPort (w : Word) : Port :=
  match opcodeOf w with
  | some o => o.port
  | none => .D

/-- The instruction the decoder reads from a row of spec/opcode_table.json whose bits are `w`: a 3-bit stage code in one
byte (format S), or a 32-bit command word on the port its opcode is bound to (format C). -/
def decodeTableWord (nbits w : Nat) : Option Instr :=
  if nbits ≤ 8 then
    if w < 8 then some (decodeStage (BitVec.ofNat 3 w)) else none
  else if w < 2 ^ 32 then
    match decodeOn (wordPort (BitVec.ofNat 32 w)) (BitVec.ofNat 32 w) with
    | .ok i => some i
    | .error _ => none
  else none

end Sys2Proof
end

