-- ==== Sys2Proof/Machine/State.lean ====
section
/-! DEFINITION. The state of KeWoKe CORE (10_state.md rules R20 to R46) as plain data, with what the model adds to run it:
the deployment's configuration, the reset input, and the environment's pending moves and received responses (log entries 1,
11, 12). `State.reset` is the state of R53. -/

namespace Sys2Proof.Machine

/-- An element-addressed memory space (R60): the written elements by address, addresses strictly rising. An unlisted
address was never written and holds no value (R52; log entries 5, 6). -/
abbrev Memory := List (Nat × Sample)

/-- The canonical form: addresses strictly rising. -/
abbrev Memory.wf (m : Memory) : Prop := m.Pairwise fun x y => x.1 < y.1

/-- Where port P stands inside a PUSH (R31). -/
inductive PPhase where
  | idle
  | copy
  | acct
deriving DecidableEq, Repr

/-- Where port E stands inside ST.IDLE (R33). -/
inductive EPhase where
  | idle
  | copy
deriving DecidableEq, Repr

/-- Status codes (R97). Codes 8 to 15 do not exist; `configMismatch` is never answered (R275). -/
inductive Status where
  | ok
  | overrun
  | underrun
  | clamp
  | configMismatch
  | illegal
  | wait
  | stall
deriving DecidableEq, Repr

/-- The 4-bit code of a status (R97). -/
def Status.code : Status → BitVec 4
  | .ok => 0#4
  | .overrun => 1#4
  | .underrun => 2#4
  | .clamp => 3#4
  | .configMismatch => 4#4
  | .illegal => 5#4
  | .wait => 6#4
  | .stall => 7#4

/-- The response record that ends a command (R96), with the port that receives it. -/
structure Response where
  port : Port
  status : Status
  data : Word
deriving DecidableEq, Repr

/-- One move of the environment (R325): a port's next event, or a change of the reset input. -/
inductive Move where
  | port (p : Port)
  | assertRst
  | releaseRst
deriving DecidableEq, Repr

/-- The command words each port's requester will issue, oldest first; a requester issues one at a time (R19). -/
structure CommandQueues where
  P : List Word
  E : List Word
  K : List Word
  D : List Word
deriving DecidableEq, Repr

/-- Why the machine stops with a fault. -/
inductive Fault where
  /-- ST.IDLE.B reads a RING element no PUSH has written (R52, I13). Safe: the spec asks for this fault, and no run reaches it. -/
  | unwrittenRing (address : Nat)
  /-- MREAD reads a MAT element no ST.STORE has written (R52, I13). Safe: the spec asks for this fault, and no run reaches it. -/
  | unwrittenMat (address : Nat)
  /-- ST.STORE would store a row the active matrix does not have (R41, R45). Safe: no such element exists, and no run reaches it. -/
  | noSuchRow (row : Nat)
deriving DecidableEq, Repr

/-- Why the model gives a move no step. -/
inductive Refusal where
  /-- An instruction without a meaning, rejected by its arm of `exec`; no arm does so now. Safe. -/
  | notModelled (mnemonic : String)
  /-- PUSH.A finds fewer payload beats than the word's `n` (R94: port P delivers exactly `n`): an environment that does not
  keep the port's protocol has no move. Safe (log entry 13). -/
  | payloadIncomplete
  /-- A command is issued while `rst` is asserted (R300, R315, I25: refuse, not accepted, no response). Safe. -/
  | commandUnderReset
deriving DecidableEq, Repr

/-- The state of the CORE, field by field in the order of 10_state.md, then the model's own fields. -/
structure State where
  /-- The deployment (R20: a parameter of the step relation, fixed for life; no step changes it; log entry 1). -/
  cfg : WfConfig
  /-- `RING[0..C-1]` by element address (R21). -/
  ring : Memory
  /-- `read_pos`, in `[0, C-1]` (R22). -/
  readPos : Nat
  /-- `write_pos`, in `[0, C-1]` (R23). -/
  writePos : Nat
  /-- `stride_cnt` (R25). -/
  strideCnt : BitVec 17
  /-- `fr_count` (R26). -/
  frCount : BitVec 16
  /-- `overrun_cnt` (R27). -/
  overrunCnt : Word
  /-- `underrun_cnt` (R28). -/
  underrunCnt : Word
  /-- `clamp_cnt` (R29). -/
  clampCnt : Word
  /-- `stall_cnt` (R30). -/
  stallCnt : Word
  /-- `p_phase` (R31). -/
  pPhase : PPhase
  /-- `p_n` (R32). -/
  pN : BitVec 16
  /-- `p_payload[0..p_n-1]` (R32). -/
  pPayload : List Sample
  /-- `e_phase` (R33). -/
  ePhase : EPhase
  /-- `stage`, the program counter (R34). -/
  stage : Stage
  /-- `uflag` (R35). -/
  uflag : Bool
  /-- `frame[0..W-1]` (R36); the elements an operation has written, none after reset (log entry 7). -/
  frame : List Sample
  /-- `fre[0..NFFT-1]` (R37), unbounded integers by R192 (log entry 10). -/
  fre : List Int
  /-- `fim[0..NFFT-1]` (R37), unbounded integers by R192 (log entry 10). -/
  fim : List Int
  /-- `power[0..NBINS-1]` (R38). -/
  power : List Word
  /-- `melq[0..NF-1]` (R39). -/
  melq : List Sample
  /-- `ceps[0..NCEPS-1]` (R40). -/
  ceps : List Sample
  /-- `MAT[0..1][0..NUM_FRAMES-1][0..NCEPS-1]` (R41), by the element address `matAddr` gives the triple. -/
  mat : Memory
  /-- `active_sel` (R42); `false` is 0. -/
  activeSel : Bool
  /-- `ready_valid` (R43). -/
  readyValid : Bool
  /-- `mr_sig` (R44). -/
  mrSig : Bool
  /-- `row_idx` (R45). -/
  rowIdx : BitVec 13
  /-- `swap_pending` (R46). -/
  swapPending : Bool
  /-- The reset input `rst` (R300). -/
  rst : Bool
  /-- How often `rst` was asserted: the index of the free values of unwritten buffers (log entry 7). -/
  resets : Nat
  /-- Commands the requesters will issue (R19, R325). -/
  queues : CommandQueues
  /-- Payload beats port P's requester delivers, oldest first (R94). -/
  beats : List Sample
  /-- The order in which the environment lets ports make events and moves `rst`, next move first (R19, R325). -/
  schedule : List Move
  /-- Responses delivered so far, newest first (R96, R326; not state of the CORE by R20). -/
  responses : List Response
deriving DecidableEq, Repr

/-- What one instruction's event answers. -/
abbrev Result := Host.Outcome State Fault Refusal

/-- The state of R53 for a deployment: control state zero, RING, MAT and work buffers unwritten, `p_n` and `p_payload` as
log entry 8 says, no command and no move pending. -/
def State.resetOf (cfg : WfConfig) : State where
  cfg := cfg
  ring := []
  readPos := 0
  writePos := 0
  strideCnt := 0#17
  frCount := 0#16
  overrunCnt := 0#32
  underrunCnt := 0#32
  clampCnt := 0#32
  stallCnt := 0#32
  pPhase := .idle
  pN := 0#16
  pPayload := []
  ePhase := .idle
  stage := .idle
  uflag := false
  frame := []
  fre := []
  fim := []
  power := []
  melq := []
  ceps := []
  mat := []
  activeSel := false
  readyValid := false
  mrSig := false
  rowIdx := 0#13
  swapPending := false
  rst := false
  resets := 0
  queues := ⟨[], [], [], []⟩
  beats := []
  schedule := []
  responses := []

/-- The machine right after `rst` is released (R53, R300), in the reference deployment TINY (R13; log entry 2). -/
def State.reset : State := State.resetOf WfConfig.tiny

end Sys2Proof.Machine
end

