-- ==== Sys2Proof/Machine/Flags.lean ====
section
/-! DEFINITION. The numeric policy of 42_preemph_window.md rule R170 and the flag-like results computed beside it: arithmetic
shift, saturation and its count (00_scope.md rule R15), saturating counters (R15, 10_state.md rules R27 to R30), the status
of an arithmetic stage (41_stage_sequencer.md rule R159), the two signal outputs (R48) and the STATUS register (R50). -/

namespace Sys2Proof

/-- A stage code in a response's data word (R98). -/
def Stage.word (st : Stage) : Word := st.code.setWidth 32

end Sys2Proof

namespace Sys2Proof.Machine

/-- `asr(v, k) = floor(v / 2^k)` (R15). -/
def asr (v : Int) (k : Nat) : Int := v / 2 ^ k

/-- `clamp16(v)` (R15). -/
def clamp16 (v : Int) : Int := if v > 32767 then 32767 else if v < -32768 then -32768 else v

/-- The 16-bit two's complement pattern of an integer (R14). -/
def toSample (v : Int) : Sample := BitVec.ofInt 16 v

/-- 1 when `clamp16` changes the value, else 0: one NumericClamp of R159. -/
def clamps16 (v : Int) : Nat := if v > 32767 ∨ v < -32768 then 1 else 0

/-- `sat_u32(v) = min(v, 2^32 - 1)` for `v >= 0` (R15), as the stored 32-bit pattern. -/
def satU32 (v : Int) : Word := BitVec.ofInt 32 (min v 4294967295)

/-- 1 when `sat_u32` changes the value, else 0. -/
def clampsU32 (v : Int) : Nat := if v > 4294967295 then 1 else 0

/-- `min(c + k, 2^32 - 1)` on a 32-bit counter (R159); `k = 1` is `sat_inc` (R15). -/
def satAdd (c : Word) (k : Nat) : Word := BitVec.ofNat 32 (min (c.toNat + k) 4294967295)

/-- `sat_inc` on a 32-bit counter (R15). -/
def satInc (c : Word) : Word := satAdd c 1

/-- Status of an arithmetic stage that saturated `k` elements (R159). -/
def stageStatus (k : Nat) : Status := if k > 0 then .clamp else .ok

/-- The 2-bit code of `p_phase` (R31). -/
def PPhase.code : PPhase → BitVec 2
  | .idle => 0#2
  | .copy => 1#2
  | .acct => 2#2

/-- The 1-bit code of `e_phase` (R33). -/
def EPhase.code : EPhase → BitVec 1
  | .idle => 0#1
  | .copy => 1#1

/-- `frame_ready_o` (R48), 0 while `rst` is asserted (R300). -/
def State.frameReadyO (s : State) : Bool := !s.rst && (decide (s.frCount ≠ 0#16) || s.uflag)

/-- `matrix_ready_o` (R48), 0 while `rst` is asserted (R300). -/
def State.matrixReadyO (s : State) : Bool := !s.rst && s.mrSig

/-- The STATUS register (R50), fields from bit 31 down. -/
def State.statusWord (s : State) : Word :=
  0#21 ++ s.pPhase.code ++ BitVec.ofBool s.mrSig ++ BitVec.ofBool s.readyValid ++ BitVec.ofBool s.activeSel ++
    BitVec.ofBool s.swapPending ++ s.ePhase.code ++ BitVec.ofBool s.uflag ++ s.stage.code

end Sys2Proof.Machine
end

