-- ==== Sys2Proof/Machine/Operands.lean ====
section
/-! DEFINITION. How the operations name and read what they work on: cursor arithmetic on the ring (40_ring_buffer.md rule
R121), element addresses of RING and MAT (20_memory.md rules R60, R63), the memory spaces' element read and write, the work
buffers (10_state.md rules R36 to R40) and the ROM tables (R47). -/

namespace Sys2Proof.Machine

/-! Memory spaces. -/

/-- Read one element; an element never written holds no value. -/
def Memory.read : Memory → Nat → Option Sample
  | [], _ => none
  | (b, v) :: m, a => if a = b then some v else Memory.read m a

/-- Write one element, keeping the addresses strictly rising. -/
def Memory.write : Memory → Nat → Sample → Memory
  | [], a, x => [(a, x)]
  | (b, v) :: m, a, x =>
    if a < b then (a, x) :: (b, v) :: m
    else if a = b then (a, x) :: m
    else (b, v) :: Memory.write m a x

/-! The ring. -/

/-- `unread(w, r) = (w - r) mod C` (R121), the number of unread samples (R24). -/
def unreadCount (C w r : Nat) : Nat := (w + C - r % C) % C

/-- `free(w, r) = C - 1 - unread(w, r)` (R121). -/
def freeCount (C w r : Nat) : Nat := C - 1 - unreadCount C w r

/-- The address of the k-th element of a RING access at cursor `a` (R18, R63). -/
def ringAddr (C a k : Nat) : Nat := (a + k) % C

/-- `MemWrite(RING:a, n, v)` with wrap-around (R18, R124). -/
def ringWrite (C : Nat) (m : Memory) : Nat → List Sample → Memory
  | _, [] => m
  | a, x :: xs => ringWrite C (m.write (ringAddr C a 0) x) (a + 1) xs

/-- `MemRead(RING:a, n)` with wrap-around (R18, R127), or the address of the first element that was never written. -/
def ringRead (C : Nat) (m : Memory) (a : Nat) : Nat → Except Nat (List Sample)
  | 0 => .ok []
  | n + 1 =>
    match m.read (ringAddr C a 0), ringRead C m (a + 1) n with
    | none, _ => .error (ringAddr C a 0)
    | some _, .error b => .error b
    | some x, .ok xs => .ok (x :: xs)

/-! The matrices. -/

/-- The element address of `MAT[sel][row][col]` (R41, R60). -/
def matAddr (c : Config) (sel : Bool) (row col : Nat) : Nat :=
  (sel.toNat * c.NUM_FRAMES + row) * c.NCEPS + col

/-- Write the values at consecutive addresses: one whole row of MAT (R63, R233; rows do not wrap). -/
def rowWrite (m : Memory) : Nat → List Sample → Memory
  | _, [] => m
  | a, x :: xs => rowWrite (m.write a x) (a + 1) xs

/-! Work buffers. Element `i` of a buffer is what the last operation wrote there, or the free value of an element no
operation has written (R52; log entry 7). -/

/-- `frame[i]` (R36). -/
def State.frameAt (s : State) (i : Nat) : Sample := s.frame.getD i (Config.freeFrame s.resets i)

/-- `fre[i]` (R37). -/
def State.freAt (s : State) (i : Nat) : Int := s.fre.getD i (Config.freeFre s.resets i)

/-- `fim[i]` (R37). -/
def State.fimAt (s : State) (i : Nat) : Int := s.fim.getD i (Config.freeFim s.resets i)

/-- `power[i]` (R38). -/
def State.powerAt (s : State) (i : Nat) : Word := s.power.getD i (Config.freePower s.resets i)

/-- `melq[i]` (R39). -/
def State.melqAt (s : State) (i : Nat) : Sample := s.melq.getD i (Config.freeMelq s.resets i)

/-- `ceps[i]` (R40). -/
def State.cepsAt (s : State) (i : Nat) : Sample := s.ceps.getD i (Config.freeCeps s.resets i)

/-- The whole buffer `frame[0..W-1]`. -/
def State.frameNow (s : State) : List Sample := (List.range s.cfg.val.W).map s.frameAt

/-- The whole FeatureRow `ceps[0..NCEPS-1]`. -/
def State.cepsNow (s : State) : List Sample := (List.range s.cfg.val.NCEPS).map s.cepsAt

/-! ROM tables, read as Q15 integers (R12, R16). A well-formed configuration's tables have an entry at every index the
stages use (R12; log entry 19). -/

/-- Entry `i` of a table. -/
def tableAt (t : List Sample) (i : Nat) : Int := (t.getD i 0#16).toInt

/-- Entry `j` of row `i` of a table of rows. -/
def tableRowAt (t : List (List Sample)) (i j : Nat) : Int := tableAt (t.getD i []) j

end Sys2Proof.Machine
end

