-- ==== Sys2Proof/Machine/Ops.lean ====
section
/-! DEFINITION. The shared operations over the state: responding (R96; what this hardware has in place of taking an
exception, 60_exceptions.md rule R270), leaving a stage (R152, R159), the swap (46_feature_matrix.md rule R236), the row
store (R233), the accounting of a write (40_ring_buffer.md rule R125), the CSR map (10_state.md rule R49) and reset
(70_reset_and_hazards.md rule R300). There is no trap and no handler (R270), so there is no exception entry and no return. -/

namespace Sys2Proof.Machine

/-- `respond(status, data)` (R18, R96): the response ends the command in progress on the port. A condition is reported this
way and no other (R270). -/
def State.respond (s : State) (p : Port) (st : Status) (data : Word) : State :=
  { s with responses := ⟨p, st, data⟩ :: s.responses }

/-- Respond ILLEGAL: no state change (R99, R273). -/
def State.illegal (s : State) (p : Port) : State := s.respond p .illegal 0#32

/-- `unread` of the current cursors (R24). -/
def State.unread (s : State) : Nat := unreadCount s.cfg.val.C s.writePos s.readPos

/-- Free space of the current cursors (R24). -/
def State.free (s : State) : Nat := freeCount s.cfg.val.C s.writePos s.readPos

/-- End of a stage operation that cannot saturate: `stage <- next`, `respond(OK, next)` (R152, R98). -/
def State.advance (s : State) (next : Stage) : State :=
  { s with stage := next }.respond .E .ok next.word

/-- End of an arithmetic stage that saturated `k` elements (R159). -/
def State.finish (s : State) (next : Stage) (k : Nat) : State :=
  { s with clampCnt := satAdd s.clampCnt k, stage := next }.respond .E (stageStatus k) next.word

/-- Tokens raised and stride counter left by the accounting of `n` samples (R125): the loop `while stride_cnt >= S` raises
one token per whole stride (log entry 17). -/
def strideTokens (S stride n : Nat) : Nat × Nat := ((stride + n) / S, (stride + n) % S)

/-- The latch of PUSH.A (R128): `p_n <- n`, and `p_payload` takes the `n` beats port P delivers (R94). -/
def State.latchPush (s : State) (n : BitVec 16) : State :=
  { s with pN := n, pPayload := s.beats.take n.toNat, beats := s.beats.drop n.toNat }

/-- `SWAP` (R236), one atomic update of the roles (R73). -/
def State.swap (s : State) : State :=
  { s with activeSel := !s.activeSel, readyValid := true, rowIdx := 0#13, mrSig := true }

/-- Store `ceps` as row `row_idx` of the active matrix (R233). -/
def State.storeRow (s : State) : State :=
  { s with mat := rowWrite s.mat (matAddr s.cfg.val s.activeSel s.rowIdx.toNat 0) s.cepsNow }

/-- The value of the CSR at an address (R49), none where the map has no register (R102). -/
def State.csr (s : State) (a : BitVec 8) : Option Word :=
  match a.toNat with
  | 0x00 => some s.statusWord
  | 0x01 => some (BitVec.ofNat 32 s.readPos)
  | 0x02 => some (BitVec.ofNat 32 s.writePos)
  | 0x03 => some (s.strideCnt.setWidth 32)
  | 0x04 => some (s.frCount.setWidth 32)
  | 0x05 => some (s.rowIdx.setWidth 32)
  | 0x08 => some s.overrunCnt
  | 0x09 => some s.underrunCnt
  | 0x0A => some s.clampCnt
  | 0x0B => some s.stallCnt
  | 0x10 => some (BitVec.ofNat 32 s.cfg.val.C)
  | 0x11 => some (BitVec.ofNat 32 s.cfg.val.W)
  | 0x12 => some (BitVec.ofNat 32 s.cfg.val.S)
  | 0x13 => some (BitVec.ofNat 32 s.cfg.val.NFFT)
  | 0x14 => some (BitVec.ofNat 32 s.cfg.val.NF)
  | 0x15 => some (BitVec.ofNat 32 s.cfg.val.NCEPS)
  | 0x16 => some (BitVec.ofNat 32 s.cfg.val.NUM_FRAMES)
  | 0x17 => some (BitVec.ofNat 32 s.cfg.val.ALPHA_Q15)
  | _ => none

/-- `rst` is asserted (R300): a command in flight is abandoned without a response and the CORE takes the state of R53, which
it keeps until a command follows the release (log entry 15). The environment's own pending moves and the responses already
delivered are not the CORE's to reset. -/
def State.assertReset (s : State) : State :=
  { State.resetOf s.cfg with
    rst := true
    resets := s.resets + 1
    queues := s.queues
    beats := s.beats
    schedule := s.schedule
    responses := s.responses }

/-- `rst` is released (R300). -/
def State.releaseReset (s : State) : State := { s with rst := false }

end Sys2Proof.Machine
end

