-- ==== Sys2Proof/Machine/Ring.lean ====
section
/-! DEFINITION. The Sample Ring Buffer's commands (40_ring_buffer.md): PUSH (R128) as the three events PUSH.A (R122, R123),
PUSH.B (R124), PUSH.C (R125), and AVAIL (R130). -/

namespace Sys2Proof.Machine

/-- Event PUSH.A: latch `p_n` and `p_payload` and check the free space (R128, R122); on Overrun drop the block and count it
(R123), else admit the write. The latch holds on Overrun too, as R128 says (log entry 9). -/
def pushCheck (n : BitVec 16) (s : State) : Result :=
  if s.beats.length < n.toNat then .refused .payloadIncomplete
  else if s.free < n.toNat then
    .next ({ s.latchPush n with overrunCnt := satInc s.overrunCnt }.respond .P .overrun 0#32)
  else .next { s.latchPush n with pPhase := .copy }

/-- Event PUSH.B: copy the samples, then publish `write_pos` (R124). -/
def pushCopy (s : State) : Result :=
  .next { s with
    ring := ringWrite s.cfg.val.C s.ring s.writePos (s.pPayload.take s.pN.toNat)
    writePos := ringAddr s.cfg.val.C s.writePos s.pN.toNat
    pPhase := .acct }

/-- Event PUSH.C: stride accounting and frame-ready tokens (R125). -/
def pushAccount (s : State) : Result :=
  .next ({ s with
    strideCnt := BitVec.ofNat 17 (strideTokens s.cfg.val.S s.strideCnt.toNat s.pN.toNat).2
    frCount := BitVec.ofNat 16
      (min (s.frCount.toNat + (strideTokens s.cfg.val.S s.strideCnt.toNat s.pN.toNat).1) 65535)
    pPhase := .idle }.respond .P .ok 0#32)

/-- `PUSH n` (R128): its next event, by `p_phase`. -/
def execPush (n : BitVec 16) (s : State) : Result :=
  match s.pPhase with
  | .idle => pushCheck n s
  | .copy => pushCopy s
  | .acct => pushAccount s

/-- `AVAIL` (R130): both cursors sampled in one event. -/
def execAvail (s : State) : Result :=
  .next (s.respond .D .ok (BitVec.ofNat 32 s.unread))

end Sys2Proof.Machine
end

