-- ==== Sys2Proof/Machine/Dct.lean ====
section
/-! DEFINITION. The DCT core (45_dct.md): ST.DCT (R223). -/

namespace Sys2Proof.Machine

/-- `acc` of R223 for coefficient `k`: the exact sum. -/
def dctAcc (s : State) (k : Nat) : Int :=
  ((List.range s.cfg.val.NF).map fun n => (s.melqAt n).toInt * tableRowAt s.cfg.val.DCTC k n).sum

/-- `v` of R223: one shift of the whole sum. -/
def dctValue (s : State) (k : Nat) : Int := asr (dctAcc s k) 15

/-- `ST.DCT` (R223). -/
def execStDct (s : State) : Result :=
  .next ({ s with ceps := (List.range s.cfg.val.NCEPS).map fun k => toSample (clamp16 (dctValue s k)) }.finish .store
    ((List.range s.cfg.val.NCEPS).map fun k => clamps16 (dctValue s k)).sum)

end Sys2Proof.Machine
end

