-- ==== Sys2Proof/Machine/FeatureMatrix.lean ====
section
/-! DEFINITION. The Feature Matrix Double Buffer (46_feature_matrix.md): ST.STORE (R233) with the gate (R235) and the swap
(R236), and the consumer's commands MTAKE (R238), MREAD (R239), RELEASE (R240). -/

namespace Sys2Proof.Machine

/-- The second half of R233 once the row is stored and counted: go on, swap, or be gated by the consumer (R235). -/
def afterRow (s : State) : State :=
  if s.rowIdx.toNat < s.cfg.val.NUM_FRAMES then s.advance .idle
  else if s.readyValid = false then s.swap.advance .idle
  else { s with swapPending := true, stallCnt := satInc s.stallCnt }.respond .E .stall Stage.store.word

/-- The retry of a gated swap (R233, R235): nothing is stored twice. -/
def retrySwap (s : State) : State :=
  if s.readyValid = false then { s.swap with swapPending := false }.advance .idle
  else s.respond .E .stall s.stage.word

/-- `ST.STORE` (R233). -/
def execStStore (s : State) : Result :=
  if s.swapPending then .next (retrySwap s)
  else if s.rowIdx.toNat < s.cfg.val.NUM_FRAMES then
    .next (afterRow { s.storeRow with rowIdx := s.rowIdx + 1#13 })
  else .fault (.noSuchRow s.rowIdx.toNat)

/-- `MTAKE` (R238): test and clear the matrix-ready signal in one event. -/
def execMtake (s : State) : Result :=
  if s.mrSig then
    .next ({ s with mrSig := false }.respond .K .ok (BitVec.ofNat 32 (1 - s.activeSel.toNat)))
  else .next (s.respond .K .wait 0#32)

/-- `MREAD r, c` (R239): one element of the ready matrix, sign-extended. -/
def execMread (r c : BitVec 12) (s : State) : Result :=
  if s.cfg.val.NUM_FRAMES ≤ r.toNat ∨ s.cfg.val.NCEPS ≤ c.toNat ∨ s.readyValid = false then .next (s.illegal .K)
  else
    match s.mat.read (matAddr s.cfg.val (!s.activeSel) r.toNat c.toNat) with
    | none => .fault (.unwrittenMat (matAddr s.cfg.val (!s.activeSel) r.toNat c.toNat))
    | some v => .next (s.respond .K .ok (v.signExtend 32))

/-- `RELEASE` (R240): the ready matrix becomes idle. -/
def execRelease (s : State) : Result :=
  if s.readyValid then .next ({ s with readyValid := false, mrSig := false }.respond .K .ok 0#32)
  else .next (s.illegal .K)

end Sys2Proof.Machine
end

