-- ==== Sys2Proof/Machine/Fft.lean ====
section
/-! DEFINITION. The FFT butterfly engine (43_fft.md): ST.FFT (R190), radix-2 decimation in time, in place. -/

namespace Sys2Proof.Machine

/-- `bitrev(i)` on `L` bits (R188): bit `b` of `i` becomes bit `L - 1 - b`. -/
def bitrev : Nat → Nat → Nat
  | 0, _ => 0
  | L + 1, i => (i % 2) * 2 ^ L + bitrev L (i / 2)

/-- The work arrays `(fre, fim)`. -/
abbrev Spectrum := List Int × List Int

/-- The load with zero padding (R189). `bitrev` is its own inverse (R188), so element `j` receives input `bitrev(j)`. -/
def fftLoad (c : Config) (x : Nat → Int) : Spectrum :=
  ((List.range c.NFFT).map fun j => if bitrev c.LOG2N j < c.W then x (bitrev c.LOG2N j) else 0,
    (List.range c.NFFT).map fun _ => 0)

/-- `tr` and `ti` of R190: the two products combined at full width and shifted once (R191). -/
def twiddleProduct (wr wi br bi : Int) : Int × Int := (asr (wr * br - wi * bi) 15, asr (wr * bi + wi * br) 15)

/-- One butterfly on elements `a` and `b = a + half` with twiddle number `j` (R190). -/
def butterfly (c : Config) (j a b : Nat) (z : Spectrum) : Spectrum :=
  let p := twiddleProduct (tableAt c.TW_RE j) (tableAt c.TW_IM j) (z.1.getD b 0) (z.2.getD b 0)
  ((z.1.set a (z.1.getD a 0 + p.1)).set b (z.1.getD a 0 - p.1),
    (z.2.set a (z.2.getD a 0 + p.2)).set b (z.2.getD a 0 - p.2))

/-- Pass `s` of R190: blocks `k = 0, m, 2m, ...`, inside each `t = 0..half-1`. -/
def fftPass (c : Config) (s : Nat) (z : Spectrum) : Spectrum :=
  (List.range (c.NFFT / 2 ^ s)).foldl (fun z b =>
    (List.range (2 ^ s / 2)).foldl (fun z t =>
      butterfly c (t * (c.NFFT / 2 ^ s)) (b * 2 ^ s + t) (b * 2 ^ s + t + 2 ^ s / 2) z) z) z

/-- The load and the `LOG2N` passes of R190, on input samples `x`. -/
def fftOf (c : Config) (x : Nat → Int) : Spectrum :=
  (List.range c.LOG2N).foldl (fun z s => fftPass c (s + 1) z) (fftLoad c x)

/-- `ST.FFT` (R190): no saturation, always OK (R192). -/
def execStFft (s : State) : Result :=
  .next ({ s with
    fre := (fftOf s.cfg.val fun i => (s.frameAt i).toInt).1
    fim := (fftOf s.cfg.val fun i => (s.frameAt i).toInt).2 }.advance .power)

end Sys2Proof.Machine
end

