-- ==== Sys2Proof/Machine/PowerMel.lean ====
section
/-! DEFINITION. The power spectrum and Mel filter bank (44_power_mel.md): ST.POWER (R201) and ST.MEL (R208). -/

namespace Sys2Proof.Machine

/-- `q` of R201: `asr(fre[b]^2 + fim[b]^2, LOG2N)`. -/
def powerAt (s : State) (b : Nat) : Int :=
  asr (s.freAt b * s.freAt b + s.fimAt b * s.fimAt b) s.cfg.val.LOG2N

/-- `ST.POWER` (R201). -/
def execStPower (s : State) : Result :=
  .next ({ s with power := (List.range s.cfg.val.NBINS).map fun b => satU32 (powerAt s b) }.finish .mel
    ((List.range s.cfg.val.NBINS).map fun b => clampsU32 (powerAt s b)).sum)

/-- `acc` of R208 for filter `m` (R205). -/
def melAcc (s : State) (m : Nat) : Int :=
  ((List.range s.cfg.val.NBINS).map fun b => ((s.powerAt b).toNat : Int) * tableRowAt s.cfg.val.MELW m b).sum

/-- `v` of R208: `LOGQ(acc)`. The accumulator is never negative under a well-formed configuration (R205). -/
def melValue (s : State) (m : Nat) : Int := s.cfg.val.LOGQ.value (melAcc s m).toNat

/-- `ST.MEL` (R208). -/
def execStMel (s : State) : Result :=
  .next ({ s with melq := (List.range s.cfg.val.NF).map fun m => toSample (clamp16 (melValue s m)) }.finish .dct
    ((List.range s.cfg.val.NF).map fun m => clamps16 (melValue s m)).sum)

end Sys2Proof.Machine
end

