-- ==== Sys2Proof/Machine/PreemphWindow.lean ====
section
/-! DEFINITION. The pre-emphasis and windowing engine (42_preemph_window.md): ST.PREEMPH (R173) and ST.WINDOW (R179). -/

namespace Sys2Proof.Machine

/-- The loop of R173, `for i from top downto 1`, in place on the frame: the samples and the number of clamps. -/
def preemphLoop (alpha : Int) : Nat → List Sample → Nat → List Sample × Nat
  | 0, frame, k => (frame, k)
  | i + 1, frame, k =>
    preemphLoop alpha i
      (frame.set (i + 1)
        (toSample (clamp16 ((frame.getD (i + 1) 0#16).toInt - asr (alpha * (frame.getD i 0#16).toInt) 15))))
      (k + clamps16 ((frame.getD (i + 1) 0#16).toInt - asr (alpha * (frame.getD i 0#16).toInt) 15))

/-- `ST.PREEMPH` (R173, R175: `frame[0]` passes through). -/
def execStPreemph (s : State) : Result :=
  .next ({ s with
    frame := (preemphLoop s.cfg.val.ALPHA_Q15 (s.cfg.val.W - 1) s.frameNow 0).1 }.finish .window
      (preemphLoop s.cfg.val.ALPHA_Q15 (s.cfg.val.W - 1) s.frameNow 0).2)

/-- One element of R179: `asr(frame[i] * HAM[i], 15)`. -/
def windowAt (s : State) (i : Nat) : Int := asr ((s.frameAt i).toInt * tableAt s.cfg.val.HAM i) 15

/-- `ST.WINDOW` (R179): element-wise multiply, no saturation (R180). -/
def execStWindow (s : State) : Result :=
  .next ({ s with frame := (List.range s.cfg.val.W).map fun i => toSample (windowAt s i) }.advance .fft)

end Sys2Proof.Machine
end

