-- ==== Sys2Proof/Machine/Sequencer.lean ====
section
/-! DEFINITION. The Stage Engine sequencer (41_stage_sequencer.md): ST.IDLE (R155) as the events ST.IDLE.A (R126) and
ST.IDLE.B (R127), and the command STEP (R151). -/

namespace Sys2Proof.Machine

/-- The check of `read` once a token is held (R126, R155): Underrun, or the read is admitted. -/
def readCheck (s : State) : State :=
  if s.unread < s.cfg.val.W then
    { s with uflag := true, underrunCnt := satInc s.underrunCnt }.respond .E .underrun s.stage.word
  else { s with ePhase := .copy }

/-- Event ST.IDLE.A (R155): take a token unless a retry holds one (R156), then check. -/
def idleCheck (s : State) : State :=
  if s.uflag then readCheck s
  else if s.frCount = 0#16 then s.respond .E .wait s.stage.word
  else readCheck { s with frCount := s.frCount - 1#16 }

/-- Event ST.IDLE.B (R127, R155): copy the frame, publish `read_pos`, leave IDLE. -/
def idleCopy (s : State) : Result :=
  match ringRead s.cfg.val.C s.ring s.readPos s.cfg.val.W with
  | .error a => .fault (.unwrittenRing a)
  | .ok x =>
    .next ({ s with
      frame := x
      readPos := ringAddr s.cfg.val.C s.readPos s.cfg.val.S
      ePhase := .idle
      uflag := false }.advance .preEmphasis)

/-- `ST.IDLE` (R155): its next event, by `e_phase`. -/
def execStIdle (s : State) : Result :=
  match s.ePhase with
  | .idle => .next (idleCheck s)
  | .copy => idleCopy s

/-- `STEP` (R151): the stage operation that `stage` selects; its response's data is the stage after it. -/
def execStep (s : State) : Result :=
  match s.stage with
  | .idle => execStIdle s
  | .preEmphasis => execStPreemph s
  | .window => execStWindow s
  | .fft => execStFft s
  | .power => execStPower s
  | .mel => execStMel s
  | .dct => execStDct s
  | .store => execStStore s

end Sys2Proof.Machine
end

