-- ==== Sys2Proof/Machine/System.lean ====
section
/-! DEFINITION. The diagnostic port's register read (47_system.md): RDCSR (R262). -/

namespace Sys2Proof.Machine

/-- `RDCSR a` (R262): the register's value, or ILLEGAL where the map has none (R102). -/
def execRdcsr (a : BitVec 8) (s : State) : Result :=
  match s.csr a with
  | none => .next (s.illegal .D)
  | some v => .next (s.respond .D .ok v)

end Sys2Proof.Machine
end

