-- ==== Sys2Proof/Machine/Dispatch.lean ====
section
/-! DEFINITION. One arm per instruction: the meaning of the instruction's next event. -/

namespace Sys2Proof.Machine

def exec (i : Instr) (s : State) : Host.Outcome State Fault Refusal :=
  match i with
  -- port commands (30_encoding.md rule R93)
  | .push n => Sys2Proof.Machine.execPush n s
  | .step => Sys2Proof.Machine.execStep s
  | .avail => Sys2Proof.Machine.execAvail s
  | .rdcsr a => Sys2Proof.Machine.execRdcsr a s
  | .mtake => Sys2Proof.Machine.execMtake s
  | .mread r c => Sys2Proof.Machine.execMread r c s
  | .release => Sys2Proof.Machine.execRelease s
  -- stage operations (30_encoding.md rule R92)
  | .stIdle => Sys2Proof.Machine.execStIdle s
  | .stPreemph => Sys2Proof.Machine.execStPreemph s
  | .stWindow => Sys2Proof.Machine.execStWindow s
  | .stFft => Sys2Proof.Machine.execStFft s
  | .stPower => Sys2Proof.Machine.execStPower s
  | .stMel => Sys2Proof.Machine.execStMel s
  | .stDct => Sys2Proof.Machine.execStDct s
  | .stStore => Sys2Proof.Machine.execStStore s

end Sys2Proof.Machine
end

