-- ==== Sys2Proof/Machine/Fetch.lean ====
section
/-! DEFINITION. What stands in the place of instruction fetch (00_scope.md rules R7, R19; 70_reset_and_hazards.md rule R325):
a port's next event is the next event of the command it has in flight, or the acceptance of the next command word its
requester issues. -/

namespace Sys2Proof.Machine

/-- The words a port's requester will issue. -/
def CommandQueues.get (q : CommandQueues) : Port → List Word
  | .P => q.P
  | .E => q.E
  | .K => q.K
  | .D => q.D

/-- The queues with one port's replaced. -/
def CommandQueues.set (q : CommandQueues) (ws : List Word) : Port → CommandQueues
  | .P => { q with P := ws }
  | .E => { q with E := ws }
  | .K => { q with K := ws }
  | .D => { q with D := ws }

/-- The multi-event instruction a port is inside of, whose next event comes next on that port (R31, R33). -/
def State.inFlight (s : State) : Port → Option Instr
  | .P => if s.pPhase = .idle then none else some (.push s.pN)
  | .E => if s.ePhase = .idle then none else some .stIdle
  | .K => none
  | .D => none

/-- The port's next command word, with the state after its requester issued it. -/
def State.takeWord (s : State) (p : Port) : Option (Word × State) :=
  match s.queues.get p with
  | [] => none
  | w :: ws => some (w, { s with queues := s.queues.set ws p })

/-- A state in which the very next step accepts the word on its port: what the environment does when it issues a command
(log entry 16). A PUSH comes with as many zero beats as its `n` asks for. -/
def State.presentWord (s : State) (w : Word) : State :=
  { s with
    rst := false
    pPhase := if wordPort w = .P then .idle else s.pPhase
    ePhase := if wordPort w = .E then .idle else s.ePhase
    queues := s.queues.set (w :: s.queues.get (wordPort w)) (wordPort w)
    beats := if opcodeOf w = some .push then List.replicate (w.extractLsb' 0 16).toNat 0#16 ++ s.beats else s.beats
    schedule := .port (wordPort w) :: s.schedule }

/-- A state in which the very next step is a STEP that executes the stage operation of the code (R151, R92). -/
def State.presentStage (s : State) (c : BitVec 3) : State :=
  { s with stage := Stage.ofCode c }.presentWord 0x02000000#32

end Sys2Proof.Machine
end

