-- ==== Sys2Proof/Machine/Step.lean ====
section
/-! DEFINITION. One step of the machine: the environment's next move, and with it at most one event of the CORE (00_scope.md
rule R19, 20_memory.md rule R71). -/

namespace Sys2Proof.Machine

/-- The next event of a port (R19): of the command in flight, else of the next command word, decoded on that port (R99). A
port whose requester issues nothing makes no event (log entry 23). While `rst` is asserted no port makes an event: a command
in flight is abandoned, and a requester that issues one is refused (R300, R315; log entry 14). -/
def portEvent (p : Port) (s : State) : Host.Outcome State Fault Refusal :=
  if s.rst then
    match s.takeWord p with
    | none => .next s
    | some _ => .refused .commandUnderReset
  else
    match s.inFlight p with
    | some i => exec i s
    | none =>
      match s.takeWord p with
      | none => .next s
      | some (w, s') =>
        match decodeOn p w with
        | .ok i => exec i s'
        | .error _ => .next (s'.illegal p)

/-- One step: the next move of the schedule. With no move the CORE does nothing (R150, R291). -/
def step (s : State) : Host.Outcome State Fault Refusal :=
  match s.schedule with
  | [] => .next s
  | .assertRst :: rest => .next { s with schedule := rest }.assertReset
  | .releaseRst :: rest => .next { s with schedule := rest }.releaseReset
  | .port p :: rest => portEvent p { s with schedule := rest }

/-- The state whose next step fetches and runs exactly the instruction of an opcode-table row with bits `w`: a stage code
(format S, one byte) or a command word (format C). -/
def State.withFetchWord (s : State) (nbits w : Nat) : State :=
  if nbits ≤ 8 then s.presentStage (BitVec.ofNat 3 w) else s.presentWord (BitVec.ofNat 32 w)

end Sys2Proof.Machine
end

