-- ==== Sys2Proof/Reference.lean ====
section
/-! DEFINITION. The reference contents of the ROM tables and the reference log compression as the spec writes them, over the
real numbers (00_scope.md rule R16, 42_preemph_window.md rule R178, 43_fft.md rule R187, 44_power_mel.md rules R210 and R212,
45_dct.md rule R222). No operation of the machine computes them (R16); statements compare the machine's data with them. -/

namespace Sys2Proof.Reference

/-- `rnd`: to the nearest integer, halves away from zero (R16). -/
noncomputable def rnd (x : ℝ) : ℤ := if 0 ≤ x then ⌊x + 1 / 2⌋ else ⌈x - 1 / 2⌉

/-- `q15(x) = clamp16(rnd(x * 32768))` (R16). -/
noncomputable def q15 (x : ℝ) : ℤ := max (-32768) (min 32767 (rnd (x * 32768)))

/-- Reference `HAM[i]` for frame size `W` (R178). -/
noncomputable def ham (W i : ℕ) : ℤ := q15 (0.54 - 0.46 * Real.cos (2 * Real.pi * i / (W - 1)))

/-- Reference `TW_RE[t]` (R187). -/
noncomputable def twRe (NFFT t : ℕ) : ℤ := q15 (Real.cos (2 * Real.pi * t / NFFT))

/-- Reference `TW_IM[t]` (R187). -/
noncomputable def twIm (NFFT t : ℕ) : ℤ := q15 (-Real.sin (2 * Real.pi * t / NFFT))

/-- `mel(f)` (R210). -/
noncomputable def mel (f : ℝ) : ℝ := 2595 * Real.logb 10 (1 + f / 700)

/-- `imel(u)` (R210). -/
noncomputable def imel (u : ℝ) : ℝ := 700 * ((10 : ℝ) ^ (u / 2595) - 1)

/-- `c_j`, the fractional bin position of filter edge `j` (R210). -/
noncomputable def melEdge (FS NFFT NF j : ℕ) : ℝ := imel (j * mel (FS / 2) / (NF + 1)) * NFFT / FS

/-- Reference `MELW[m][b]` (R210). -/
noncomputable def melWeight (FS NFFT NF m b : ℕ) : ℤ :=
  if melEdge FS NFFT NF m ≤ b ∧ (b : ℝ) ≤ melEdge FS NFFT NF (m + 1) then
    q15 ((b - melEdge FS NFFT NF m) / (melEdge FS NFFT NF (m + 1) - melEdge FS NFFT NF m))
  else if melEdge FS NFFT NF (m + 1) < b ∧ (b : ℝ) ≤ melEdge FS NFFT NF (m + 2) then
    q15 ((melEdge FS NFFT NF (m + 2) - b) / (melEdge FS NFFT NF (m + 2) - melEdge FS NFFT NF (m + 1)))
  else 0

/-- Reference `DCTC[k][n]` (R222). -/
noncomputable def dctc (NF k n : ℕ) : ℤ := q15 (Real.cos (Real.pi * k * (2 * n + 1) / (2 * NF)))

end Sys2Proof.Reference
end

