-- ==== Sys2Proof/Safety.lean ====
section
/-! DEFINITION. What counts as a safe state and a right run, in the terms the statements use: the invariant of 10_state.md
rule R54 made inductive, the history that numbers the written samples (20_memory.md rule R76), runs of STEP commands, the
literal accounting loop of 40_ring_buffer.md rule R125, and the statuses a command can end with (60_exceptions.md rule R272).
Nothing here is part of the machine. -/

namespace Sys2Proof

/-- The port an instruction belongs to (R104; a stage operation is port E's, R92). -/
def Instr.port : Instr → Port
  | .push _ => .P
  | .avail => .D
  | .rdcsr _ => .D
  | .mtake => .K
  | .mread _ _ => .K
  | .release => .K
  | .step => .E
  | .stIdle => .E
  | .stPreemph => .E
  | .stWindow => .E
  | .stFft => .E
  | .stPower => .E
  | .stMel => .E
  | .stDct => .E
  | .stStore => .E

end Sys2Proof

namespace Sys2Proof.Machine

/-- 1 while a token is taken whose frame is not read yet: a pending retry or an admitted read (R155, R156). -/
def State.claimed (s : State) : Nat := if s.uflag = true ∨ s.ePhase = .copy then 1 else 0

/-- Samples written whose accounting is still to come (between PUSH.B and PUSH.C, R31). -/
def State.unaccounted (s : State) : Nat := if s.pPhase = .acct then s.pN.toNat else 0

/-- The reset state of R53 beside the environment's data of `s`: what asserting `rst` leaves and its release finds (R300). -/
def State.atReset (s : State) : State :=
  { State.resetOf s.cfg with
    rst := s.rst
    resets := s.resets
    queues := s.queues
    beats := s.beats
    schedule := s.schedule
    responses := s.responses }

/-- The invariant: clauses (a) to (h) of R54, and what makes them inductive. -/
structure State.Inv (s : State) : Prop where
  /-- The cursors lie in `[0, C-1]` (R22, R23), which is (a). -/
  readPos_lt : s.readPos < s.cfg.val.C
  writePos_lt : s.writePos < s.cfg.val.C
  /-- (b). -/
  uflag_stage : s.uflag = true → s.stage = .idle
  /-- (c). -/
  copy_stage : s.ePhase = .copy → s.stage = .idle
  copy_unread : s.ePhase = .copy → s.cfg.val.W ≤ s.unread
  /-- (d). -/
  pending_stage : s.swapPending = true → s.stage = .store
  pending_row : s.swapPending = true → s.rowIdx.toNat = s.cfg.val.NUM_FRAMES
  /-- (e). -/
  row_lt : s.swapPending = false → s.rowIdx.toNat < s.cfg.val.NUM_FRAMES
  /-- (f). -/
  signal_ready : s.mrSig = true → s.readyValid = true
  /-- (g): here in every state, since PUSH.C is one event. -/
  stride_lt : s.strideCnt.toNat < s.cfg.val.S
  /-- The token account behind (h) (R160): every unread sample belongs to a token, a claim, the open stride, or a block whose
  accounting is still to come. -/
  tokens : s.unread = (s.frCount.toNat + s.claimed) * s.cfg.val.S + s.strideCnt.toNat + s.unaccounted
  /-- An admitted write fits and has its payload (R122, R128). -/
  push_fits : s.pPhase = .copy → s.pN.toNat ≤ s.free
  push_payload : s.pPhase = .copy → s.pPayload.length = s.pN.toNat
  /-- The memories are canonical and hold existing elements only (R60). -/
  ring_wf : s.ring.wf
  mat_wf : s.mat.wf
  ring_addr : ∀ p ∈ s.ring, p.1 < s.cfg.val.C
  mat_addr : ∀ p ∈ s.mat, p.1 < 2 * s.cfg.val.NUM_FRAMES * s.cfg.val.NCEPS
  /-- Every unread sample was written (R52). -/
  unread_written : ∀ k < s.unread, (s.ring.read (ringAddr s.cfg.val.C s.readPos k)).isSome = true
  /-- The ready matrix is complete (R231), and so are the rows stored so far (R234). -/
  ready_written : s.readyValid = true → ∀ r < s.cfg.val.NUM_FRAMES, ∀ c < s.cfg.val.NCEPS,
    (s.mat.read (matAddr s.cfg.val (!s.activeSel) r c)).isSome = true
  rows_written : ∀ r < s.rowIdx.toNat, ∀ c < s.cfg.val.NCEPS,
    (s.mat.read (matAddr s.cfg.val s.activeSel r c)).isSome = true
  /-- Each stage finds its input buffer written whole (R52, R310). -/
  frame_written : s.stage.code ≠ 0#3 → s.frame.length = s.cfg.val.W
  spectrum_written : 3#3 < s.stage.code → s.fre.length = s.cfg.val.NFFT ∧ s.fim.length = s.cfg.val.NFFT
  power_written : 4#3 < s.stage.code → s.power.length = s.cfg.val.NBINS
  melq_written : 5#3 < s.stage.code → s.melq.length = s.cfg.val.NF
  ceps_written : 6#3 < s.stage.code → s.ceps.length = s.cfg.val.NCEPS
  /-- While `rst` is asserted the CORE holds the state of R53; so no command is in flight on any port (R300). -/
  under_reset : s.rst = true → s = s.atReset

/-- The next step runs PUSH.B (R124). -/
def State.copiesNext (s : State) : Prop := s.schedule.head? = some (.port .P) ∧ s.pPhase = .copy ∧ s.rst = false

/-- The next step runs ST.IDLE.B (R127). -/
def State.readsNext (s : State) : Prop := s.schedule.head? = some (.port .E) ∧ s.ePhase = .copy ∧ s.rst = false

/-- The next step asserts `rst` (R300). -/
def State.resetsNext (s : State) : Prop := s.schedule.head? = some .assertRst

/-- What R76 numbers since the last reset: the successfully written samples in order, and the completed ring reads. -/
structure History where
  written : List Sample
  reads : Nat
deriving DecidableEq, Repr

/-- The history agrees with the ring: read number `k` starts at sample `k * S`, and the unread window holds the samples from
there to the last one written (R76). -/
structure History.Tracks (h : History) (s : State) : Prop where
  count : h.written.length = h.reads * s.cfg.val.S + s.unread
  window : ∀ k < s.unread,
    s.ring.read (ringAddr s.cfg.val.C s.readPos k) = h.written[h.reads * s.cfg.val.S + k]?

/-- The next step is a STEP that stores a row (R233): it is port E's move, the engine is in STORE with no swap pending, and the
next word on port E is STEP's (R93). -/
def State.storesNext (s : State) : Prop :=
  s.schedule.head? = some (.port .E) ∧ s.ePhase = .idle ∧ s.rst = false ∧ s.stage = .store ∧ s.swapPending = false ∧
    s.queues.E.head? = some 0x02000000#32

/-- Matrix `sel` holds the given rows, from row 0 on (R41, R234). -/
def State.holdsRows (s : State) (sel : Bool) (rows : List (List Sample)) : Prop :=
  ∀ r < rows.length, ∀ c < s.cfg.val.NCEPS, s.mat.read (matAddr s.cfg.val sel r c) = (rows.getD r [])[c]?

/-- `n` STEP events on port E with nothing between them: `exec .step` again and again. -/
def runSteps : Nat → State → Result
  | 0, s => .next s
  | n + 1, s =>
    match exec .step s with
    | .next t => runSteps n t
    | .fault f => .fault f
    | .refused r => .refused r

/-- The loop of R125, word for word: `while stride_cnt >= S: { stride_cnt <- stride_cnt - S; fr_count <- min(fr_count + 1,
65535) }`, with `fuel` rounds at most. -/
def strideLoop (S : Nat) : Nat → Nat × Nat → Nat × Nat
  | 0, x => x
  | fuel + 1, (stride, fr) => if S ≤ stride then strideLoop S fuel (stride - S, min (fr + 1) 65535) else (stride, fr)

/-- The statuses an instruction's command can end with (R272). -/
def allowedStatus : Instr → State → List Status
  | .push _, _ => [.ok, .overrun]
  | .avail, _ => [.ok]
  | .rdcsr _, _ => [.ok, .illegal]
  | .mtake, _ => [.ok, .wait]
  | .mread _ _, _ => [.ok, .illegal]
  | .release, _ => [.ok, .illegal]
  | .step, s =>
    match s.stage with
    | .idle => [.ok, .wait, .underrun]
    | .preEmphasis => [.ok, .clamp]
    | .window => [.ok]
    | .fft => [.ok]
    | .power => [.ok, .clamp]
    | .mel => [.ok, .clamp]
    | .dct => [.ok, .clamp]
    | .store => [.ok, .stall]
  | .stIdle, _ => [.ok, .wait, .underrun]
  | .stPreemph, _ => [.ok, .clamp]
  | .stWindow, _ => [.ok]
  | .stFft, _ => [.ok]
  | .stPower, _ => [.ok, .clamp]
  | .stMel, _ => [.ok, .clamp]
  | .stDct, _ => [.ok, .clamp]
  | .stStore, _ => [.ok, .stall]

/-- Events the command in flight on a port still needs (R31, R33); 0 when the port is between commands. -/
def State.eventsLeft (s : State) : Port → Nat
  | .P => match s.pPhase with
    | .idle => 0
    | .copy => 2
    | .acct => 1
  | .E => match s.ePhase with
    | .idle => 0
    | .copy => 1
  | .K => 0
  | .D => 0

/-- The unread count of R24 as R15 writes it, over the integers. -/
def State.unreadMod (s : State) : Int := ((s.writePos : Int) - s.readPos) % s.cfg.val.C

/-- Saturation to 16 bits as a bound on both sides (R15). -/
def within16 (v : Int) : Int := max (-32768) (min 32767 v)

/-- An element the saturation changes: one NumericClamp (R159). -/
def outside16 (v : Int) : Bool := decide (v < -32768 ∨ 32767 < v)

/-- `t` is `s` after an arithmetic stage that saturated `k` elements, as far as the counter, the stage register and the
response go (R159): `clamp_cnt` saturates at `2^32 - 1`, the status is CLAMP or OK, the data is the next stage's code. -/
def State.EndsStage (s t : State) (next : Stage) (k : Nat) : Prop :=
  t.clampCnt.toNat = min (s.clampCnt.toNat + k) 4294967295 ∧ t.stage = next ∧
    t.responses = ⟨.E, if 0 < k then .clamp else .ok, next.code.setWidth 32⟩ :: s.responses

end Sys2Proof.Machine
end

