-- ==== Sys2Proof/Certificates/Slice0/Obligations.lean ====
section
/-! DEFINITION. The statements for the provers, in the order of spec/: encodings (30), running a step (41, 70), the ring (40,
20), the stages (41 to 45), the matrices (46), the diagnostic port (47), conditions, reset and whole-machine rules (10, 60,
70). Each docstring names the rule it formalises. -/

open Sys2Proof Sys2Proof.Machine

/-! ## Encodings -/

/-- Decoding and encoding are inverse: R90 to R93, R95. No word but an instruction's own decodes to it. -/
def Obligations.DecodeAndEncodeAreInverse : Prop :=
  (∀ i : Instr, decode (encode i) = .ok i) ∧ ∀ (e : Encoded) (i : Instr), decode e = .ok i → encode i = e

/-- R93, row by row: a command word decodes to X exactly when it matches X's row and arrives on X's port. -/
def Obligations.CommandWordDecodesByItsRow : Prop :=
  ∀ (p : Port) (w : Word),
    (∀ n, decodeOn p w = .ok (.push n) ↔
      p = .P ∧ w &&& 0xFFFF0000#32 = 0x01000000#32 ∧ n = w.extractLsb' 0 16) ∧
    (decodeOn p w = .ok .step ↔ p = .E ∧ w &&& 0xFFFFFFFF#32 = 0x02000000#32) ∧
    (decodeOn p w = .ok .avail ↔ p = .D ∧ w &&& 0xFFFFFFFF#32 = 0x03000000#32) ∧
    (∀ a, decodeOn p w = .ok (.rdcsr a) ↔
      p = .D ∧ w &&& 0xFFFFFF00#32 = 0x04000000#32 ∧ a = w.extractLsb' 0 8) ∧
    (decodeOn p w = .ok .mtake ↔ p = .K ∧ w &&& 0xFFFFFFFF#32 = 0x05000000#32) ∧
    (∀ r c, decodeOn p w = .ok (.mread r c) ↔
      p = .K ∧ w &&& 0xFF000000#32 = 0x06000000#32 ∧ r = w.extractLsb' 12 12 ∧ c = w.extractLsb' 0 12) ∧
    (decodeOn p w = .ok .release ↔ p = .K ∧ w &&& 0xFFFFFFFF#32 = 0x07000000#32)

/-- R92: the eight stage codes and the operations they select; no code is reserved. -/
def Obligations.EveryStageCodeIsUsed : Prop :=
  decodeStage 0b000#3 = .stIdle ∧ decodeStage 0b001#3 = .stPreemph ∧ decodeStage 0b010#3 = .stWindow ∧
    decodeStage 0b011#3 = .stFft ∧ decodeStage 0b100#3 = .stPower ∧ decodeStage 0b101#3 = .stMel ∧
    decodeStage 0b110#3 = .stDct ∧ decodeStage 0b111#3 = .stStore ∧
    (∀ c : BitVec 3, (Stage.ofCode c).code = c) ∧ ∀ st : Stage, Stage.ofCode st.code = st

/-- R100, R101, R104: the words no port accepts, the words a port does not accept, and the must-be-zero bits, each with the
check of R99 that refuses them. -/
def Obligations.ReservedWordsAreRejectedByName : Prop :=
  ∀ (p : Port) (w : Word),
    (decodeOn p w = .error .reservedOpcode ↔
      (w.extractLsb' 24 8).toNat = 0 ∨ 8 ≤ (w.extractLsb' 24 8).toNat) ∧
    (decodeOn p w = .error .wrongPort ↔
      ((w.extractLsb' 24 8).toNat = 1 ∧ p ≠ .P) ∨ ((w.extractLsb' 24 8).toNat = 2 ∧ p ≠ .E) ∨
        ((w.extractLsb' 24 8).toNat = 3 ∧ p ≠ .D) ∨ ((w.extractLsb' 24 8).toNat = 4 ∧ p ≠ .D) ∨
        ((w.extractLsb' 24 8).toNat = 5 ∧ p ≠ .K) ∨ ((w.extractLsb' 24 8).toNat = 6 ∧ p ≠ .K) ∨
        ((w.extractLsb' 24 8).toNat = 7 ∧ p ≠ .K)) ∧
    (decodeOn p w = .error .mustBeZero ↔
      ((w.extractLsb' 24 8).toNat = 1 ∧ p = .P ∧ w.extractLsb' 16 8 ≠ 0#8) ∨
        ((w.extractLsb' 24 8).toNat = 2 ∧ p = .E ∧ w.extractLsb' 0 24 ≠ 0#24) ∨
        ((w.extractLsb' 24 8).toNat = 3 ∧ p = .D ∧ w.extractLsb' 0 24 ≠ 0#24) ∨
        ((w.extractLsb' 24 8).toNat = 4 ∧ p = .D ∧ w.extractLsb' 8 16 ≠ 0#16) ∨
        ((w.extractLsb' 24 8).toNat = 5 ∧ p = .K ∧ w.extractLsb' 0 24 ≠ 0#24) ∨
        ((w.extractLsb' 24 8).toNat = 7 ∧ p = .K ∧ w.extractLsb' 0 24 ≠ 0#24))

/-- R99: a word that fails any of the five checks ends with `(ILLEGAL, 0)` and changes nothing but the port's own queue. The
checks: reserved opcode (R100), wrong port (R104), must-be-zero bits (R101), a field out of range (R102, R103), a protocol
precondition (R239, R240). -/
def Obligations.IllegalCommandChangesNothing : Prop :=
  ∀ (s : State) (p : Port) (rest : List Move) (w : Word) (ws : List Word),
    s.schedule = .port p :: rest → s.eventsLeft p = 0 → s.queues.get p = w :: ws → s.rst = false →
    ((∃ e, decodeOn p w = .error e) ∨
      (∃ a, decodeOn p w = .ok (.rdcsr a) ∧
        ¬(a.toNat ≤ 0x05 ∨ (0x08 ≤ a.toNat ∧ a.toNat ≤ 0x0B) ∨ (0x10 ≤ a.toNat ∧ a.toNat ≤ 0x17))) ∨
      (∃ r c, decodeOn p w = .ok (.mread r c) ∧
        (s.cfg.val.NUM_FRAMES ≤ r.toNat ∨ s.cfg.val.NCEPS ≤ c.toNat ∨ s.readyValid = false)) ∨
      (decodeOn p w = .ok .release ∧ s.readyValid = false)) →
    step s = .next { s with
      schedule := rest
      queues := s.queues.set ws p
      responses := ⟨p, .illegal, 0#32⟩ :: s.responses }

/-- Words written out in R101, R107 and R265, decoded. -/
def Obligations.WordsOfTheSpecDecode : Prop :=
  decodeOn .P 0x01000003#32 = .ok (.push 3#16) ∧ decodeOn .E 0x02000000#32 = .ok .step ∧
    decodeOn .D 0x03000000#32 = .ok .avail ∧ decodeOn .D 0x0400000A#32 = .ok (.rdcsr 0x0A#8) ∧
    decodeOn .K 0x05000000#32 = .ok .mtake ∧ decodeOn .K 0x06001000#32 = .ok (.mread 1#12 0#12) ∧
    decodeOn .K 0x07000000#32 = .ok .release ∧ decodeOn .E 0x02000001#32 = .error .mustBeZero ∧
    decodeOn .P 0x01010004#32 = .error .mustBeZero ∧ decodeOn .D 0x04000100#32 = .error .mustBeZero

/-! ## Running a step -/

/-- R19, R325: a port between commands whose requester has a word runs the instruction it decodes to, in the state with the
move and the word taken. -/
def Obligations.StepRunsTheDecodedInstruction : Prop :=
  ∀ (s : State) (p : Port) (rest : List Move) (w : Word) (ws : List Word) (i : Instr),
    s.schedule = .port p :: rest → s.eventsLeft p = 0 → s.queues.get p = w :: ws → s.rst = false →
    decodeOn p w = .ok i →
    step s = exec i { s with schedule := rest, queues := s.queues.set ws p }

/-- R19, R31, R33: outside reset (R300) a port inside a command runs that command's next event; its queue is not read. That a
port with no command and no word makes no event, and that an empty schedule changes nothing, is the model's inference from
R150 and R291 (log entry 23). -/
def Obligations.StepContinuesTheCommandInFlight : Prop :=
  ∀ (s : State) (rest : List Move),
    (s.schedule = .port .P :: rest → s.pPhase ≠ .idle → s.rst = false →
      step s = exec (.push s.pN) { s with schedule := rest }) ∧
    (s.schedule = .port .E :: rest → s.ePhase = .copy → s.rst = false →
      step s = exec .stIdle { s with schedule := rest }) ∧
    (∀ p, s.schedule = .port p :: rest → s.eventsLeft p = 0 → s.queues.get p = [] →
      step s = .next { s with schedule := rest }) ∧
    (s.schedule = [] → step s = .next s)

/-- R151: STEP is the stage operation `stage` selects, and its response carries the stage after it; ST.IDLE may take a first
event that answers nothing (it admits the read). After reset STEP answers `WAIT, 0`. -/
def Obligations.StepRunsTheSelectedStage : Prop :=
  (∀ s : State,
    (s.stage = .idle → exec .step s = exec .stIdle s) ∧ (s.stage = .preEmphasis → exec .step s = exec .stPreemph s) ∧
    (s.stage = .window → exec .step s = exec .stWindow s) ∧ (s.stage = .fft → exec .step s = exec .stFft s) ∧
    (s.stage = .power → exec .step s = exec .stPower s) ∧ (s.stage = .mel → exec .step s = exec .stMel s) ∧
    (s.stage = .dct → exec .step s = exec .stDct s) ∧ (s.stage = .store → exec .step s = exec .stStore s)) ∧
  (∀ s t : State, exec .step s = .next t →
    (∃ st, t.responses = ⟨.E, st, t.stage.code.setWidth 32⟩ :: s.responses) ∨
      (s.stage = .idle ∧ s.ePhase = .idle ∧ t.ePhase = .copy ∧ t.responses = s.responses)) ∧
  ∀ c : WfConfig, exec .step (State.resetOf c) =
    .next { State.resetOf c with responses := [⟨.E, .wait, 0#32⟩] }

/-- R152: the transition table, row by row with its `when`, and that no other command moves `stage`. In STORE the swap is due
when it is pending or the row just stored was the last one (R233); it is performed exactly when `ready_valid = 0` (R235). -/
def Obligations.StageFollowsTheTransitionTable : Prop :=
  (∀ s t : State, exec .step s = .next t →
    (s.stage = .idle → (s.ePhase = .copy → t.stage = .preEmphasis) ∧ (s.ePhase = .idle → t.stage = .idle)) ∧
    (s.stage = .preEmphasis → t.stage = .window) ∧ (s.stage = .window → t.stage = .fft) ∧
    (s.stage = .fft → t.stage = .power) ∧ (s.stage = .power → t.stage = .mel) ∧ (s.stage = .mel → t.stage = .dct) ∧
    (s.stage = .dct → t.stage = .store) ∧
    (s.stage = .store →
      (s.swapPending = false → s.rowIdx.toNat + 1 < s.cfg.val.NUM_FRAMES →
        t.stage = .idle ∧ t.swapPending = false ∧ t.activeSel = s.activeSel ∧ t.readyValid = s.readyValid ∧
          t.rowIdx.toNat = s.rowIdx.toNat + 1 ∧ t.responses = ⟨.E, .ok, 0#32⟩ :: s.responses) ∧
      (s.swapPending = true ∨ s.cfg.val.NUM_FRAMES ≤ s.rowIdx.toNat + 1 →
        (s.readyValid = false →
          t.stage = .idle ∧ t.swapPending = false ∧ t.activeSel = !s.activeSel ∧ t.readyValid = true ∧
            t.rowIdx = 0#13 ∧ t.responses = ⟨.E, .ok, 0#32⟩ :: s.responses) ∧
        (s.readyValid = true →
          t.stage = .store ∧ t.swapPending = true ∧ t.activeSel = s.activeSel ∧ t.readyValid = true ∧
            t.responses = ⟨.E, .stall, 7#32⟩ :: s.responses)))) ∧
  ∀ (i : Instr) (s t : State), i.port ≠ .E → exec i s = .next t → t.stage = s.stage

/-- STEP completes (R74, R151) wherever its stage has its operands: the unread window is written when ST.IDLE.B is next, the
active matrix has the row when ST.STORE is next. Every other stage needs nothing. -/
def Obligations.StepCompletes : Prop :=
  ∀ s : State,
    (s.stage = .idle → s.ePhase = .copy → ∀ k < s.cfg.val.W,
      (s.ring.read ((s.readPos + k) % s.cfg.val.C)).isSome = true) →
    (s.stage = .store → s.swapPending = false → s.rowIdx.toNat < s.cfg.val.NUM_FRAMES) →
    ∃ t, exec .step s = .next t

/-! ## The sample ring -/

/-- Event PUSH.A (R122, R123, R128): `p_n` and `p_payload` are latched; on Overrun the block is dropped and counted, else the
write is admitted. That the latch holds on Overrun is R128's word; R273 leaves only `overrun_cnt` changed there (log entry 9).
A PUSH whose payload the environment does not deliver is refused, the model's own choice (log entry 13). -/
def Obligations.PushAdmitsOrDropsTheBlock : Prop :=
  ∀ (s : State) (n : BitVec 16), s.pPhase = .idle →
    (n.toNat ≤ s.beats.length → (s.cfg.val.C : Int) - 1 - s.unreadMod < n.toNat →
      ∃ t, exec (.push n) s = .next t ∧ t.overrunCnt.toNat = min (s.overrunCnt.toNat + 1) 4294967295 ∧
        t = { s with
          beats := s.beats.drop n.toNat
          pN := n
          pPayload := s.beats.take n.toNat
          overrunCnt := t.overrunCnt
          responses := ⟨.P, .overrun, 0#32⟩ :: s.responses }) ∧
    (n.toNat ≤ s.beats.length → (n.toNat : Int) ≤ s.cfg.val.C - 1 - s.unreadMod →
      exec (.push n) s = .next { s with
        beats := s.beats.drop n.toNat
        pN := n
        pPayload := s.beats.take n.toNat
        pPhase := .copy }) ∧
    (s.beats.length < n.toNat → exec (.push n) s = .refused .payloadIncomplete)

/-- Event PUSH.B (R124): the payload lands in consecutive elements with wrap-around, every other element keeps its value, the
cursor is published. The frame is exact. -/
def Obligations.PushStoresThePayload : Prop :=
  ∀ (s : State) (n : BitVec 16), s.pPhase = .copy → s.ring.wf → s.pPayload.length = s.pN.toNat →
    s.pN.toNat ≤ s.cfg.val.C →
    ∃ t, exec (.push n) s = .next t ∧
      (∀ i < s.pN.toNat, t.ring.read ((s.writePos + i) % s.cfg.val.C) = s.pPayload[i]?) ∧
      (∀ a, (∀ i < s.pN.toNat, a ≠ (s.writePos + i) % s.cfg.val.C) → t.ring.read a = s.ring.read a) ∧
      t = { s with ring := t.ring, writePos := (s.writePos + s.pN.toNat) % s.cfg.val.C, pPhase := .acct }

/-- Event PUSH.C (R125): the loop of the rule word for word; at most one token for a block no longer than a stride; with `T`
samples accounted before and `stride_cnt = T mod S`, the tokens raised are those of `floor(T / S)`. The frame is exact. -/
def Obligations.PushAccountsByStrides : Prop :=
  ∀ (s : State) (n : BitVec 16), s.pPhase = .acct →
    ∃ t, exec (.push n) s = .next t ∧
      (t.strideCnt.toNat, t.frCount.toNat) =
        strideLoop s.cfg.val.S (s.strideCnt.toNat + s.pN.toNat)
          (s.strideCnt.toNat + s.pN.toNat, s.frCount.toNat) ∧
      (s.strideCnt.toNat < s.cfg.val.S → s.pN.toNat ≤ s.cfg.val.S → t.frCount.toNat ≤ s.frCount.toNat + 1) ∧
      (∀ T, s.strideCnt.toNat = T % s.cfg.val.S →
        t.strideCnt.toNat = (T + s.pN.toNat) % s.cfg.val.S ∧
        t.frCount.toNat =
          min (s.frCount.toNat + ((T + s.pN.toNat) / s.cfg.val.S - T / s.cfg.val.S)) 65535) ∧
      t = { s with
        strideCnt := t.strideCnt
        frCount := t.frCount
        pPhase := .idle
        responses := ⟨.P, .ok, 0#32⟩ :: s.responses }

/-- R128: a PUSH that fits runs its three events to `(OK, 0)` and leaves the state R124 and R125 give, with the corner cases
`n = 0` (stores nothing) and a write that ends at the array's end (`write_pos = 0`); with `n >= C` it always ends in OVERRUN.
-/
def Obligations.PushRunsItsThreeEvents : Prop :=
  ∀ (s : State) (n : BitVec 16), s.pPhase = .idle → s.ring.wf → s.strideCnt.toNat < s.cfg.val.S →
    s.writePos < s.cfg.val.C → n.toNat ≤ s.beats.length →
    ((n.toNat : Int) ≤ s.cfg.val.C - 1 - s.unreadMod →
      ∃ a b t, exec (.push n) s = .next a ∧ a.pPhase = .copy ∧ exec (.push a.pN) a = .next b ∧ b.pPhase = .acct ∧
        exec (.push b.pN) b = .next t ∧ t.pPhase = .idle ∧ a.responses = s.responses ∧ b.responses = s.responses ∧
        t.responses = ⟨.P, .ok, 0#32⟩ :: s.responses ∧
        (∀ i < n.toNat, t.ring.read ((s.writePos + i) % s.cfg.val.C) = s.beats[i]?) ∧
        (∀ a, (∀ i < n.toNat, a ≠ (s.writePos + i) % s.cfg.val.C) → t.ring.read a = s.ring.read a) ∧
        t.writePos = (s.writePos + n.toNat) % s.cfg.val.C ∧
        (t.strideCnt.toNat, t.frCount.toNat) =
          strideLoop s.cfg.val.S (s.strideCnt.toNat + n.toNat) (s.strideCnt.toNat + n.toNat, s.frCount.toNat) ∧
        (n = 0#16 → t.ring = s.ring ∧ t.writePos = s.writePos ∧ t.strideCnt = s.strideCnt ∧ t.frCount = s.frCount) ∧
        (s.writePos + n.toNat = s.cfg.val.C → t.writePos = 0) ∧
        t = { s with
          ring := t.ring
          writePos := t.writePos
          strideCnt := t.strideCnt
          frCount := t.frCount
          pPhase := .idle
          pN := n
          pPayload := s.beats.take n.toNat
          beats := s.beats.drop n.toNat
          responses := t.responses }) ∧
    (s.cfg.val.C ≤ n.toNat → ∃ t, exec (.push n) s = .next t ∧
      t.overrunCnt.toNat = min (s.overrunCnt.toNat + 1) 4294967295 ∧
      t = { s with
        beats := s.beats.drop n.toNat
        pN := n
        pPayload := s.beats.take n.toNat
        overrunCnt := t.overrunCnt
        responses := ⟨.P, .overrun, 0#32⟩ :: s.responses })

/-- The guarantee of R122 and R131 (2): whatever event comes next, no unread sample is overwritten. Only a reset, which leaves
RING unspecified, is set apart. -/
def Obligations.UnreadSamplesAreNeverOverwritten : Prop :=
  ∀ s t : State, s.Inv → step s = .next t → ¬s.resetsNext →
    ∀ k < s.unread, t.ring.read ((s.readPos + k) % s.cfg.val.C) = s.ring.read ((s.readPos + k) % s.cfg.val.C)

/-- R76: with the written samples numbered since reset, read number `k` delivers `frame[i] = s_(k*S + i)`; the numbering and
the ring agree after every step, refused samples get no number, and reset starts it again. -/
def Obligations.SamplesAreReadInTheOrderWritten : Prop :=
  (∀ c : WfConfig, History.Tracks ⟨[], 0⟩ (State.resetOf c)) ∧
  ∀ (s t : State) (h : History), s.Inv → h.Tracks s → step s = .next t →
    (s.copiesNext → History.Tracks ⟨h.written ++ s.pPayload, h.reads⟩ t) ∧
    (s.readsNext → History.Tracks ⟨h.written, h.reads + 1⟩ t ∧
      t.frame.length = s.cfg.val.W ∧
      ∀ i < s.cfg.val.W, t.frame[i]? = h.written[h.reads * s.cfg.val.S + i]?) ∧
    (s.resetsNext → History.Tracks ⟨[], 0⟩ t) ∧
    (¬s.copiesNext → ¬s.readsNext → ¬s.resetsNext → h.Tracks t)

/-- R130: AVAIL answers `(write_pos - read_pos) mod C`, in `[0, C-1]`, and writes no state. -/
def Obligations.AvailAnswersTheUnreadCount : Prop :=
  ∀ s : State, ∃ d : Word, exec .avail s = .next { s with responses := ⟨.D, .ok, d⟩ :: s.responses } ∧
    (d.toNat : Int) = ((s.writePos : Int) - s.readPos) % s.cfg.val.C ∧ d.toNat ≤ s.cfg.val.C - 1

/-! ## The stage operations -/

/-- Event ST.IDLE.A (R155, R126): WAIT without a token unless a retry holds one; else the token is taken and the read is
admitted or ends in UNDERRUN. The frame is exact. -/
def Obligations.IdleTakesATokenAndChecksTheRing : Prop :=
  ∀ s : State, s.stage = .idle → s.ePhase = .idle →
    (s.uflag = false → s.frCount = 0#16 →
      exec .stIdle s = .next { s with responses := ⟨.E, .wait, 0#32⟩ :: s.responses }) ∧
    (s.uflag = true ∨ s.frCount ≠ 0#16 →
      ∃ t, exec .stIdle s = .next t ∧
        t.frCount.toNat = (if s.uflag then s.frCount.toNat else s.frCount.toNat - 1) ∧
        (s.unreadMod < s.cfg.val.W →
          t.underrunCnt.toNat = min (s.underrunCnt.toNat + 1) 4294967295 ∧
          t = { s with
            frCount := t.frCount
            uflag := true
            underrunCnt := t.underrunCnt
            responses := ⟨.E, .underrun, 0#32⟩ :: s.responses }) ∧
        (s.cfg.val.W ≤ s.unreadMod → t = { s with frCount := t.frCount, ePhase := .copy }))

/-- Event ST.IDLE.B (R127, R155): the frame is the `W` samples from `read_pos` on, with wrap-around; the cursor advances by
the stride; RING and everything else keep their values. -/
def Obligations.IdleCopiesTheFrame : Prop :=
  ∀ s : State, s.stage = .idle → s.ePhase = .copy →
    (∀ i < s.cfg.val.W, (s.ring.read ((s.readPos + i) % s.cfg.val.C)).isSome = true) →
    ∃ t, exec .stIdle s = .next t ∧ t.frame.length = s.cfg.val.W ∧
      (∀ i < s.cfg.val.W, t.frame[i]? = s.ring.read ((s.readPos + i) % s.cfg.val.C)) ∧
      t = { s with
        frame := t.frame
        readPos := (s.readPos + s.cfg.val.S) % s.cfg.val.C
        ePhase := .idle
        uflag := false
        stage := .preEmphasis
        responses := ⟨.E, .ok, 1#32⟩ :: s.responses }

/-- Where the model faults (log entries 6, 20): an element never written faults the operation that reads it, with the address
of the first one (R315, 93_implementation_defined.md I13), and a row the active matrix does not have faults ST.STORE. No
reachable state does either (EveryStepAnswersInsideWellFormedUse). -/
def Obligations.MissingElementsFaultByName : Prop :=
  (∀ (s : State) (k : Nat), s.ePhase = .copy → k < s.cfg.val.W →
    s.ring.read ((s.readPos + k) % s.cfg.val.C) = none →
    (∀ i < k, (s.ring.read ((s.readPos + i) % s.cfg.val.C)).isSome = true) →
    exec .stIdle s = .fault (.unwrittenRing ((s.readPos + k) % s.cfg.val.C))) ∧
  (∀ (s : State) (r c : BitVec 12), r.toNat < s.cfg.val.NUM_FRAMES → c.toNat < s.cfg.val.NCEPS →
    s.readyValid = true → s.mat.read (matAddr s.cfg.val (!s.activeSel) r.toNat c.toNat) = none →
    exec (.mread r c) s = .fault (.unwrittenMat (matAddr s.cfg.val (!s.activeSel) r.toNat c.toNat))) ∧
  ∀ s : State, s.swapPending = false → s.cfg.val.NUM_FRAMES ≤ s.rowIdx.toNat →
    exec .stStore s = .fault (.noSuchRow s.rowIdx.toNat)

/-- R173, R174, R175: every output sample comes from the unfiltered inputs, saturated; `frame[0]` passes through; one clamp is
counted per saturated element; the intermediate values have the rule's widths. The frame is exact. -/
def Obligations.PreemphFiltersFromTheUnfilteredInputs : Prop :=
  ∀ s : State, ∃ t, exec .stPreemph s = .next t ∧ t.frame.length = s.cfg.val.W ∧
    t.frame[0]? = some (s.frameAt 0) ∧
    (∀ i, i + 1 < s.cfg.val.W →
      (t.frame[i + 1]?.map BitVec.toInt) = some (within16
        ((s.frameAt (i + 1)).toInt - (s.cfg.val.ALPHA_Q15 * (s.frameAt i).toInt) / 32768))) ∧
    (∀ i, i + 1 < s.cfg.val.W →
      -32767 * 32768 ≤ s.cfg.val.ALPHA_Q15 * (s.frameAt i).toInt ∧
      s.cfg.val.ALPHA_Q15 * (s.frameAt i).toInt ≤ 32767 * 32767 ∧
      -32767 ≤ (s.cfg.val.ALPHA_Q15 * (s.frameAt i).toInt) / 32768 ∧
      (s.cfg.val.ALPHA_Q15 * (s.frameAt i).toInt) / 32768 ≤ 32766 ∧
      |(s.frameAt (i + 1)).toInt - (s.cfg.val.ALPHA_Q15 * (s.frameAt i).toInt) / 32768| ≤ 65534) ∧
    s.EndsStage t .window ((List.range (s.cfg.val.W - 1)).countP fun i =>
      outside16 ((s.frameAt (i + 1)).toInt - (s.cfg.val.ALPHA_Q15 * (s.frameAt i).toInt) / 32768)) ∧
    t = { s with frame := t.frame, clampCnt := t.clampCnt, stage := t.stage, responses := t.responses }

/-- R179, R180: the window product, exact in 16 bits without saturation; always OK. The frame is exact. -/
def Obligations.WindowNeverSaturates : Prop :=
  ∀ s : State, ∃ t, exec .stWindow s = .next t ∧ t.frame.length = s.cfg.val.W ∧
    (∀ i < s.cfg.val.W, (t.frame[i]?.map BitVec.toInt) =
      some (((s.frameAt i).toInt * tableAt s.cfg.val.HAM i) / 32768)) ∧
    (∀ i < s.cfg.val.W, -1073709056 ≤ (s.frameAt i).toInt * tableAt s.cfg.val.HAM i ∧
      (s.frameAt i).toInt * tableAt s.cfg.val.HAM i ≤ 1073676289 ∧
      -32767 ≤ ((s.frameAt i).toInt * tableAt s.cfg.val.HAM i) / 32768 ∧
      ((s.frameAt i).toInt * tableAt s.cfg.val.HAM i) / 32768 ≤ 32766) ∧
    t = { s with frame := t.frame, stage := .fft, responses := ⟨.E, .ok, 3#32⟩ :: s.responses }

/-- R188, R189: bit reversal on `LOG2N` bits is an involution of the indices that reverses the bits, and the load writes
every element, the zero padding included. -/
def Obligations.FftLoadsInBitReversedOrder : Prop :=
  (∀ L i b, b < L → (bitrev L i).testBit (L - 1 - b) = i.testBit b) ∧
  (∀ L i, bitrev L i < 2 ^ L) ∧ (∀ L i, i < 2 ^ L → bitrev L (bitrev L i) = i) ∧
  ∀ (c : WfConfig) (x : Nat → Int) (i : Nat), i < c.val.NFFT →
    (fftLoad c.val x).1.length = c.val.NFFT ∧ (fftLoad c.val x).2.length = c.val.NFFT ∧
    (fftLoad c.val x).1[bitrev c.val.LOG2N i]? = some (if i < c.val.W then x i else 0) ∧
    (fftLoad c.val x).2[bitrev c.val.LOG2N i]? = some 0

/-- R190, R191: in pass `s` every butterfly `(k + t, k + t + half)` uses the values from before the pass, the products are
combined before the one shift, and the sums are exact. The passes run in order after the load; the frame is exact. -/
def Obligations.FftRunsItsButterflies : Prop :=
  ∀ s : State, ∃ z : Nat → List Int × List Int,
    z 0 = fftLoad s.cfg.val (fun i => (s.frameAt i).toInt) ∧
    (∀ p ≤ s.cfg.val.LOG2N, (z p).1.length = s.cfg.val.NFFT ∧ (z p).2.length = s.cfg.val.NFFT) ∧
    (∀ p < s.cfg.val.LOG2N, ∀ b < s.cfg.val.NFFT / 2 ^ (p + 1), ∀ t < 2 ^ p,
      ∀ wr wi br bi ur ui : Int,
      wr = tableAt s.cfg.val.TW_RE (t * (s.cfg.val.NFFT / 2 ^ (p + 1))) →
      wi = tableAt s.cfg.val.TW_IM (t * (s.cfg.val.NFFT / 2 ^ (p + 1))) →
      (z p).1[b * 2 ^ (p + 1) + t + 2 ^ p]? = some br → (z p).2[b * 2 ^ (p + 1) + t + 2 ^ p]? = some bi →
      (z p).1[b * 2 ^ (p + 1) + t]? = some ur → (z p).2[b * 2 ^ (p + 1) + t]? = some ui →
      (z (p + 1)).1[b * 2 ^ (p + 1) + t]? = some (ur + (wr * br - wi * bi) / 32768) ∧
      (z (p + 1)).2[b * 2 ^ (p + 1) + t]? = some (ui + (wr * bi + wi * br) / 32768) ∧
      (z (p + 1)).1[b * 2 ^ (p + 1) + t + 2 ^ p]? = some (ur - (wr * br - wi * bi) / 32768) ∧
      (z (p + 1)).2[b * 2 ^ (p + 1) + t + 2 ^ p]? = some (ui - (wr * bi + wi * br) / 32768)) ∧
    exec .stFft s = .next { s with
      fre := (z s.cfg.val.LOG2N).1
      fim := (z s.cfg.val.LOG2N).2
      stage := .power
      responses := ⟨.E, .ok, 4#32⟩ :: s.responses }

/-- R194: zero in, zero out, for any twiddle table. -/
def Obligations.FftOfZeroIsZero : Prop :=
  ∀ s : State, (∀ i < s.cfg.val.W, s.frameAt i = 0#16) →
    ∃ t, exec .stFft s = .next t ∧ t.fre = List.replicate s.cfg.val.NFFT 0 ∧
      t.fim = List.replicate s.cfg.val.NFFT 0

/-- The range argument of R192: with every twiddle of magnitude at most `1 + 2^-15`, every value held in `fre` or `fim`, after
the load and after every pass, lies strictly inside `(-2^30, 2^30)`. It is what lets R37 call the elements `int32`; the model
carries unbounded integers (log entry 10). -/
def Obligations.FftStaysInsideThirtyOneBits : Prop :=
  ∀ (c : WfConfig) (x : Nat → Sample) (p : Nat), p ≤ c.val.LOG2N →
    (∀ t < c.val.NFFT / 2,
      tableAt c.val.TW_RE t * tableAt c.val.TW_RE t + tableAt c.val.TW_IM t * tableAt c.val.TW_IM t ≤ 32769 * 32769) →
    ∀ v ∈ ((List.range p).foldl (fun z s => fftPass c.val (s + 1) z) (fftLoad c.val fun i => (x i).toInt)).1 ++
        ((List.range p).foldl (fun z s => fftPass c.val (s + 1) z) (fftLoad c.val fun i => (x i).toInt)).2,
      -(2 ^ 30 : Int) < v ∧ v < 2 ^ 30

/-- R200, R201: the power of each retained bin, divided by `NFFT` rounding down, saturated at `2^32 - 1` and counted. The
frame is exact. -/
def Obligations.PowerDividesAndSaturates : Prop :=
  ∀ s : State, ∃ t, exec .stPower s = .next t ∧ t.power.length = s.cfg.val.NFFT / 2 + 1 ∧
    (∀ b < s.cfg.val.NFFT / 2 + 1, (t.power[b]?.map fun v => (v.toNat : Int)) =
      some (min ((s.freAt b ^ 2 + s.fimAt b ^ 2) / s.cfg.val.NFFT) 4294967295)) ∧
    s.EndsStage t .mel ((List.range (s.cfg.val.NFFT / 2 + 1)).countP fun b =>
      decide (4294967295 < (s.freAt b ^ 2 + s.fimAt b ^ 2) / (s.cfg.val.NFFT : Int))) ∧
    t = { s with power := t.power, clampCnt := t.clampCnt, stage := t.stage, responses := t.responses }

/-- R208, R205: the exact accumulation over all bins, the log compression, the saturation and its count. The frame is exact.
-/
def Obligations.MelAccumulatesAndCompresses : Prop :=
  ∀ s : State, ∃ (t : State) (acc : Nat → Nat), exec .stMel s = .next t ∧ t.melq.length = s.cfg.val.NF ∧
    (∀ m < s.cfg.val.NF, (acc m : Int) =
      ∑ b ∈ Finset.range (s.cfg.val.NFFT / 2 + 1),
        ((s.powerAt b).toNat : Int) * (((s.cfg.val.MELW.getD m []).getD b 0#16).toInt)) ∧
    (∀ m < s.cfg.val.NF, acc m < 2 ^ 32 * 2 ^ 15 * (2 ^ 13 + 1)) ∧
    (∀ m < s.cfg.val.NF, (t.melq[m]?.map BitVec.toInt) = some (within16 (s.cfg.val.LOGQ.value (acc m)))) ∧
    s.EndsStage t .dct ((List.range s.cfg.val.NF).countP fun m => outside16 (s.cfg.val.LOGQ.value (acc m))) ∧
    t = { s with melq := t.melq, clampCnt := t.clampCnt, stage := t.stage, responses := t.responses }

/-- R212 (a) and (b) of the reference log compression with any gain, (a) to (d) with `LOG_GAIN = 1024`, and the values of R213
that are not among them. -/
def Obligations.ReferenceLogHasItsProperties : Prop :=
  (∀ gain, ∀ acc ≤ 32768, logqRef gain acc = 0) ∧ (∀ gain a b, a ≤ b → logqRef gain a ≤ logqRef gain b) ∧
  (∀ acc ≤ 32800, logqRef 1024 acc = 0) ∧ logqRef 1024 32801 = 1 ∧
  (∀ acc < 2 ^ 61, logqRef 1024 acc ≤ 32650) ∧
  logqRef 1024 (2 ^ 15 * 2 ^ 1) = 709 ∧ logqRef 1024 (2 ^ 15 * 2 ^ 5) = 3548 ∧
  logqRef 1024 (2 ^ 15 * 2 ^ 25) = 17744 ∧ logqRef 1024 (2 ^ 15 * 2 ^ 45) = 31940 ∧
  logqRef 1024 89072 = 1023 ∧ logqRef 1024 89073 = 1024 ∧ logqRef 1024 108477455119 = 15372 ∧
  logqRef 1024 272400106844 = 16315 ∧ logqRef 1024 (2 ^ 61 - 1) = 32650 ∧ logqRef 1024 (2 ^ 64 - 1) = 34779

/-- The integer evaluation is R212's real formula up to a relative error of `2^-100` in the accumulator, with every gain (log
entries 4, 29): the result `k` satisfies `acc / 32768 < e^((k+1)/gain)`, and `e^(k/gain) (1 - 2^-100) <= acc / 32768` unless
it is 0. -/
def Obligations.ReferenceLogBracketsTheLogarithm : Prop :=
  ∀ gain acc : Nat, 0 < gain → acc < 2 ^ 64 →
    (acc : ℝ) < 32768 * Real.exp ((((logqRef gain acc : ℕ) : ℝ) + 1) / gain) ∧
    (logqRef gain acc ≠ 0 →
      32768 * Real.exp (((logqRef gain acc : ℕ) : ℝ) / gain) * (1 - 1 / 2 ^ 100) ≤ (acc : ℝ))

/-- R208, R212 (c): with the reference log compression ST.MEL never clamps: the status is OK, `clamp_cnt` keeps its value and
each output is the compressed accumulator itself. -/
def Obligations.MelWithReferenceLogNeverClamps : Prop :=
  ∀ s : State, s.cfg.val.LOGQ = .reference 1024 →
    ∃ t, exec .stMel s = .next t ∧ t.clampCnt = s.clampCnt ∧
      t.responses = ⟨.E, .ok, 6#32⟩ :: s.responses ∧ ∀ q ∈ t.melq, 0 ≤ q.toInt ∧ q.toInt ≤ 32650

/-- R223, R224: the whole sum is shifted once, then saturated and counted; the accumulator needs 39 bits and the shifted
value 24. The frame is exact. -/
def Obligations.DctShiftsTheWholeSum : Prop :=
  ∀ s : State, ∃ (t : State) (acc : Nat → Int), exec .stDct s = .next t ∧ t.ceps.length = s.cfg.val.NCEPS ∧
    (∀ k < s.cfg.val.NCEPS, acc k = ∑ n ∈ Finset.range s.cfg.val.NF,
      (s.melqAt n).toInt * (((s.cfg.val.DCTC.getD k []).getD n 0#16).toInt)) ∧
    (∀ k < s.cfg.val.NCEPS, ∀ n < s.cfg.val.NF,
      -1073709056 ≤ (s.melqAt n).toInt * (((s.cfg.val.DCTC.getD k []).getD n 0#16).toInt) ∧
      (s.melqAt n).toInt * (((s.cfg.val.DCTC.getD k []).getD n 0#16).toInt) ≤ 1073741824) ∧
    (∀ k < s.cfg.val.NCEPS, |acc k| ≤ 2 ^ 38 ∧ |acc k / 32768| ≤ 2 ^ 23) ∧
    (∀ k < s.cfg.val.NCEPS, (t.ceps[k]?.map BitVec.toInt) = some (within16 (acc k / 32768))) ∧
    s.EndsStage t .store ((List.range s.cfg.val.NCEPS).countP fun k => outside16 (acc k / 32768)) ∧
    t = { s with ceps := t.ceps, clampCnt := t.clampCnt, stage := t.stage, responses := t.responses }

/-- R226, the silence baseline: under any well-formed configuration a zero frame gives a zero row, six OK responses and no
clamp. The converse fails: in TINY the frames `[1, 1, 1, 1]` and `[-1, -1, -1, -1]` give a zero row too. -/
def Obligations.SilenceGivesAZeroRow : Prop :=
  (∀ s : State, s.stage = .preEmphasis → (∀ i < s.cfg.val.W, s.frameAt i = 0#16) →
    ∃ t, runSteps 6 s = .next t ∧ t.ceps = List.replicate s.cfg.val.NCEPS 0#16 ∧ t.stage = .store ∧
      t.clampCnt = s.clampCnt ∧
      t.responses = [⟨.E, .ok, 7#32⟩, ⟨.E, .ok, 6#32⟩, ⟨.E, .ok, 5#32⟩, ⟨.E, .ok, 4#32⟩, ⟨.E, .ok, 3#32⟩,
        ⟨.E, .ok, 2#32⟩] ++ s.responses) ∧
  (∃ t, runSteps 6 { State.reset with stage := .preEmphasis, frame := [1#16, 1#16, 1#16, 1#16] } = .next t ∧
    t.ceps = [0#16, 0#16]) ∧
  ∃ t, runSteps 6 { State.reset with stage := .preEmphasis, frame := [-1#16, -1#16, -1#16, -1#16] } = .next t ∧
    t.ceps = [0#16, 0#16]

/-- R158, R227: the row is a function of the frame and the configuration. Two engines that agree on those, and on nothing
else, give the same row, the same six responses and the same clamp counts; each changes only its own work buffers. -/
def Obligations.RowIsAFunctionOfTheFrame : Prop :=
  ∀ s s' : State, s.cfg = s'.cfg → s.stage = .preEmphasis → s'.stage = .preEmphasis →
    (∀ i < s.cfg.val.W, s.frameAt i = s'.frameAt i) →
    ∃ t t' k rs, runSteps 6 s = .next t ∧ runSteps 6 s' = .next t' ∧ t.ceps = t'.ceps ∧
      rs.length = 6 ∧ t.responses = rs ++ s.responses ∧ t'.responses = rs ++ s'.responses ∧
      t.clampCnt.toNat = min (s.clampCnt.toNat + k) 4294967295 ∧
      t'.clampCnt.toNat = min (s'.clampCnt.toNat + k) 4294967295 ∧
      t = { s with
        frame := t.frame, fre := t.fre, fim := t.fim, power := t.power, melq := t.melq, ceps := t.ceps
        stage := .store, clampCnt := t.clampCnt, responses := t.responses }

/-! ## The feature matrices -/

/-- R233 with the swap of R236 and the gate of R235: the row is stored whole at `row_idx` of the active matrix and nowhere
else, then the three outcomes of the rule; a gated swap is retried without storing anything. The frame is exact. -/
def Obligations.StoreAppendsTheRowAndSwapsWhenFull : Prop :=
  (∀ s : State, s.stage = .store → s.mat.wf → s.swapPending = false → s.rowIdx.toNat < s.cfg.val.NUM_FRAMES →
    ∃ t, exec .stStore s = .next t ∧
      (∀ c < s.cfg.val.NCEPS,
        t.mat.read (matAddr s.cfg.val s.activeSel s.rowIdx.toNat c) = some (s.cepsAt c)) ∧
      (∀ a, (∀ c < s.cfg.val.NCEPS, a ≠ matAddr s.cfg.val s.activeSel s.rowIdx.toNat c) →
        t.mat.read a = s.mat.read a) ∧
      (s.rowIdx.toNat + 1 < s.cfg.val.NUM_FRAMES →
        t.rowIdx.toNat = s.rowIdx.toNat + 1 ∧
        t = { s with
          mat := t.mat, rowIdx := t.rowIdx, stage := .idle, responses := ⟨.E, .ok, 0#32⟩ :: s.responses }) ∧
      (s.rowIdx.toNat + 1 = s.cfg.val.NUM_FRAMES → s.readyValid = false →
        t = { s with
          mat := t.mat, activeSel := !s.activeSel, readyValid := true, rowIdx := 0#13, mrSig := true
          stage := .idle, responses := ⟨.E, .ok, 0#32⟩ :: s.responses }) ∧
      (s.rowIdx.toNat + 1 = s.cfg.val.NUM_FRAMES → s.readyValid = true →
        t.rowIdx.toNat = s.cfg.val.NUM_FRAMES ∧
        t.stallCnt.toNat = min (s.stallCnt.toNat + 1) 4294967295 ∧
        t = { s with
          mat := t.mat, rowIdx := t.rowIdx, swapPending := true, stallCnt := t.stallCnt
          responses := ⟨.E, .stall, 7#32⟩ :: s.responses })) ∧
  ∀ s : State, s.stage = .store → s.swapPending = true →
    (s.readyValid = false → exec .stStore s = .next { s with
      activeSel := !s.activeSel, readyValid := true, rowIdx := 0#13, mrSig := true, swapPending := false
      stage := .idle, responses := ⟨.E, .ok, 0#32⟩ :: s.responses }) ∧
    (s.readyValid = true → exec .stStore s = .next { s with
      responses := ⟨.E, .stall, 7#32⟩ :: s.responses })

/-- R73, R236: the roles, the row index, the signal and the pending flag change in one step, only while the other matrix is
not ready; and a matrix becomes ready in no other way. -/
def Obligations.SwapIsOneStep : Prop :=
  ∀ s t : State, step s = .next t → ¬s.resetsNext →
    (t.activeSel ≠ s.activeSel ↔ s.readyValid = false ∧ t.readyValid = true) ∧
    (t.activeSel ≠ s.activeSel → t.mrSig = true ∧ t.rowIdx = 0#13 ∧ t.swapPending = false ∧ t.stage = .idle) ∧
    (t.mrSig = true → s.mrSig = true ∨ t.activeSel ≠ s.activeSel)

/-- R231: from a swap to the release that follows it, no step of any port writes an element of the ready matrix or changes
which matrix that is; only a reset ends it otherwise. -/
def Obligations.ReadyMatrixIsNeverWritten : Prop :=
  ∀ s t : State, s.Inv → step s = .next t → ¬s.resetsNext → s.readyValid = true →
    t.activeSel = s.activeSel ∧
    ∀ r < s.cfg.val.NUM_FRAMES, ∀ c < s.cfg.val.NCEPS,
      t.mat.read (matAddr s.cfg.val (!s.activeSel) r c) = s.mat.read (matAddr s.cfg.val (!s.activeSel) r c)

/-- R234: rows are appended in strictly increasing index order, and the matrix a swap makes ready holds exactly the
`NUM_FRAMES` rows stored since it became active, in that order. `rows` is the list of those rows so far; every step keeps it
true of the active matrix. -/
def Obligations.ReadyMatrixHoldsTheRowsInOrder : Prop :=
  ∀ (s t : State) (rows : List (List Sample)), s.Inv → step s = .next t → rows.length = s.rowIdx.toNat →
    s.holdsRows s.activeSel rows →
    (s.storesNext → t.activeSel = s.activeSel →
      (rows ++ [s.cepsNow]).length = t.rowIdx.toNat ∧ t.holdsRows t.activeSel (rows ++ [s.cepsNow])) ∧
    (s.storesNext → t.activeSel ≠ s.activeSel → t.rowIdx.toNat = 0 ∧
      (rows ++ [s.cepsNow]).length = s.cfg.val.NUM_FRAMES ∧ t.holdsRows (!t.activeSel) (rows ++ [s.cepsNow])) ∧
    (¬s.storesNext → ¬s.resetsNext → t.activeSel ≠ s.activeSel → t.rowIdx.toNat = 0 ∧
      rows.length = s.cfg.val.NUM_FRAMES ∧ t.holdsRows (!t.activeSel) rows) ∧
    (¬s.storesNext → ¬s.resetsNext → t.activeSel = s.activeSel →
      rows.length = t.rowIdx.toNat ∧ t.holdsRows t.activeSel rows)

/-- R238: MTAKE tests and clears the signal in one event and answers the ready matrix's index, or WAIT. -/
def Obligations.MtakeTakesTheSignalOnce : Prop :=
  ∀ s : State,
    (s.mrSig = true → exec .mtake s = .next { s with
      mrSig := false
      responses := ⟨.K, .ok, if s.activeSel then 0#32 else 1#32⟩ :: s.responses }) ∧
    (s.mrSig = false → exec .mtake s = .next { s with responses := ⟨.K, .wait, 0#32⟩ :: s.responses })

/-- R239, R231: MREAD answers every element of a ready matrix, sign-extended, and writes no state; out of range, or with no
ready matrix, it is ILLEGAL. -/
def Obligations.MreadAnswersEveryReadyElement : Prop :=
  (∀ (s : State) (r c : BitVec 12), s.Inv → s.readyValid = true → r.toNat < s.cfg.val.NUM_FRAMES →
    c.toNat < s.cfg.val.NCEPS →
    ∃ v, s.mat.read (matAddr s.cfg.val (!s.activeSel) r.toNat c.toNat) = some v ∧
      exec (.mread r c) s = .next { s with responses := ⟨.K, .ok, v.signExtend 32⟩ :: s.responses }) ∧
  ∀ (s : State) (r c : BitVec 12),
    (s.cfg.val.NUM_FRAMES ≤ r.toNat ∨ s.cfg.val.NCEPS ≤ c.toNat ∨ s.readyValid = false) →
    exec (.mread r c) s = .next { s with responses := ⟨.K, .illegal, 0#32⟩ :: s.responses }

/-- R240: RELEASE clears `ready_valid` and `mr_sig` and nothing else, or is ILLEGAL when there is nothing to release. -/
def Obligations.ReleaseFreesTheReadyMatrix : Prop :=
  ∀ s : State,
    (s.readyValid = true → exec .release s = .next { s with
      readyValid := false, mrSig := false, responses := ⟨.K, .ok, 0#32⟩ :: s.responses }) ∧
    (s.readyValid = false → exec .release s = .next { s with responses := ⟨.K, .illegal, 0#32⟩ :: s.responses })

/-! ## The diagnostic port and the outputs -/

/-- R49, R262, R102: the register map, zero-extended, read without a side effect; every other address is ILLEGAL. -/
def Obligations.RdcsrReadsTheMap : Prop :=
  ∀ (s : State) (a : BitVec 8), ∃ st d, exec (.rdcsr a) s = .next { s with responses := ⟨.D, st, d⟩ :: s.responses } ∧
    (a.toNat = 0x00 → st = .ok ∧ d = s.statusWord) ∧
    (s.readPos < s.cfg.val.C → a.toNat = 0x01 → st = .ok ∧ d.toNat = s.readPos) ∧
    (s.writePos < s.cfg.val.C → a.toNat = 0x02 → st = .ok ∧ d.toNat = s.writePos) ∧
    (a.toNat = 0x03 → st = .ok ∧ d.toNat = s.strideCnt.toNat) ∧
    (a.toNat = 0x04 → st = .ok ∧ d.toNat = s.frCount.toNat) ∧
    (a.toNat = 0x05 → st = .ok ∧ d.toNat = s.rowIdx.toNat) ∧
    (a.toNat = 0x08 → st = .ok ∧ d = s.overrunCnt) ∧ (a.toNat = 0x09 → st = .ok ∧ d = s.underrunCnt) ∧
    (a.toNat = 0x0A → st = .ok ∧ d = s.clampCnt) ∧ (a.toNat = 0x0B → st = .ok ∧ d = s.stallCnt) ∧
    (a.toNat = 0x10 → st = .ok ∧ d.toNat = s.cfg.val.C) ∧ (a.toNat = 0x11 → st = .ok ∧ d.toNat = s.cfg.val.W) ∧
    (a.toNat = 0x12 → st = .ok ∧ d.toNat = s.cfg.val.S) ∧ (a.toNat = 0x13 → st = .ok ∧ d.toNat = s.cfg.val.NFFT) ∧
    (a.toNat = 0x14 → st = .ok ∧ d.toNat = s.cfg.val.NF) ∧ (a.toNat = 0x15 → st = .ok ∧ d.toNat = s.cfg.val.NCEPS) ∧
    (a.toNat = 0x16 → st = .ok ∧ d.toNat = s.cfg.val.NUM_FRAMES) ∧
    (a.toNat = 0x17 → st = .ok ∧ d.toNat = s.cfg.val.ALPHA_Q15) ∧
    (¬(a.toNat ≤ 0x05 ∨ (0x08 ≤ a.toNat ∧ a.toNat ≤ 0x0B) ∨ (0x10 ≤ a.toNat ∧ a.toNat ≤ 0x17)) →
      st = .illegal ∧ d = 0#32)

/-- R50: the fields of STATUS and its reset value. -/
def Obligations.StatusRegisterFields : Prop :=
  (∀ s : State,
    s.statusWord.extractLsb' 0 3 = s.stage.code ∧ s.statusWord.getLsbD 3 = s.uflag ∧
    s.statusWord.getLsbD 4 = decide (s.ePhase = .copy) ∧ s.statusWord.getLsbD 5 = s.swapPending ∧
    s.statusWord.getLsbD 6 = s.activeSel ∧ s.statusWord.getLsbD 7 = s.readyValid ∧
    s.statusWord.getLsbD 8 = s.mrSig ∧
    (s.statusWord.extractLsb' 9 2).toNat = (match s.pPhase with | .idle => 0 | .copy => 1 | .acct => 2) ∧
    s.statusWord.extractLsb' 11 21 = 0#21) ∧
  ∀ c : WfConfig, (State.resetOf c).statusWord = 0x00000000#32

/-- R48 (with R300 for the time under reset): the two signal outputs, which carry nothing that STATUS and FR_COUNT do not. -/
def Obligations.SignalOutputsFollowTheState : Prop :=
  (∀ s : State,
    (s.rst = false → (s.frameReadyO = true ↔ 0 < s.frCount.toNat ∨ s.uflag = true) ∧ s.matrixReadyO = s.mrSig) ∧
    (s.rst = true → s.frameReadyO = false ∧ s.matrixReadyO = false)) ∧
  ∀ s s' : State, s.rst = false → s'.rst = false → s.statusWord = s'.statusWord → s.frCount = s'.frCount →
    s.frameReadyO = s'.frameReadyO ∧ s.matrixReadyO = s'.matrixReadyO

/-! ## Conditions, reset, and rules about the whole machine -/

/-- R53: the values the rule gives after reset, under any configuration, and the two outputs. -/
def Obligations.ResetStateIsAsStated : Prop :=
  ∀ c : WfConfig,
    (State.resetOf c).readPos = 0 ∧ (State.resetOf c).writePos = 0 ∧ (State.resetOf c).strideCnt = 0#17 ∧
    (State.resetOf c).frCount = 0#16 ∧ (State.resetOf c).overrunCnt = 0#32 ∧ (State.resetOf c).underrunCnt = 0#32 ∧
    (State.resetOf c).clampCnt = 0#32 ∧ (State.resetOf c).stallCnt = 0#32 ∧ (State.resetOf c).pPhase = .idle ∧
    (State.resetOf c).ePhase = .idle ∧ (State.resetOf c).stage = .idle ∧ (State.resetOf c).uflag = false ∧
    (State.resetOf c).activeSel = false ∧ (State.resetOf c).readyValid = false ∧ (State.resetOf c).mrSig = false ∧
    (State.resetOf c).rowIdx = 0#13 ∧ (State.resetOf c).swapPending = false ∧
    (State.resetOf c).frameReadyO = false ∧ (State.resetOf c).matrixReadyO = false

/-- What the model puts in the memories and work buffers R53 calls unspecified (its own reading of R52, log entries 6 and 7):
after reset RING and MAT hold no value anywhere, and every element of a work buffer is the free value of that reset, which
nothing constrains. It is not about `p_n` and `p_payload`, whose reset values are the model's choice (log entry 8). -/
def Obligations.MemoriesAndWorkBuffersHoldNoChosenValue : Prop :=
  ∀ s : State,
    (∀ a, s.assertReset.ring.read a = none ∧ s.assertReset.mat.read a = none) ∧
    ∀ i, s.assertReset.frameAt i = Config.freeFrame (s.resets + 1) i ∧
      s.assertReset.freAt i = Config.freeFre (s.resets + 1) i ∧
      s.assertReset.fimAt i = Config.freeFim (s.resets + 1) i ∧
      s.assertReset.powerAt i = Config.freePower (s.resets + 1) i ∧
      s.assertReset.melqAt i = Config.freeMelq (s.resets + 1) i ∧
      s.assertReset.cepsAt i = Config.freeCeps (s.resets + 1) i

/-- R300 as the model reads it (log entries 14, 15, 23): asserting `rst` abandons the command in flight without a response and
gives the state of R53; while it is asserted both outputs are 0, no command is in flight, no port makes an event, and a
command issued is refused; at its release the state is that of R53. -/
def Obligations.ResetInputRestoresTheResetState : Prop :=
  (∀ (s : State) (rest : List Move), s.schedule = .assertRst :: rest →
    ∃ t, step s = .next t ∧ t = { State.resetOf s.cfg with
      rst := true, resets := s.resets + 1, queues := s.queues, beats := s.beats, schedule := rest
      responses := s.responses } ∧ t.frameReadyO = false ∧ t.matrixReadyO = false) ∧
  (∀ (s : State) (rest : List Move), s.schedule = .releaseRst :: rest →
    step s = .next { s with schedule := rest, rst := false }) ∧
  (∀ (s : State) (p : Port) (rest : List Move), s.rst = true → s.schedule = .port p :: rest →
    (s.queues.get p = [] → step s = .next { s with schedule := rest }) ∧
    ∀ w ws, s.queues.get p = w :: ws → step s = .refused .commandUnderReset) ∧
  (∀ s : State, s.Inv → s.rst = true →
    (∀ p, s.eventsLeft p = 0) ∧ s.frameReadyO = false ∧ s.matrixReadyO = false) ∧
  ∀ (s : State) (rest : List Move), s.Inv → s.rst = true → s.schedule = .releaseRst :: rest →
    step s = .next { State.resetOf s.cfg with
      resets := s.resets, queues := s.queues, beats := s.beats, schedule := rest, responses := s.responses }

/-- R54 and the model's own invariants hold after reset, under any configuration. -/
def Obligations.InvariantHoldsAtReset : Prop := ∀ c : WfConfig, (State.resetOf c).Inv

/-- R54: every step keeps clauses (a) to (h) and what makes them inductive, and R300: the state of R53 while `rst` is
asserted, with no command in flight. -/
def Obligations.InvariantIsKeptByEveryStep : Prop := ∀ s t : State, s.Inv → step s = .next t → t.Inv

/-- R52, R276, R315: under the invariant no step faults, and a step is refused only to an environment that issues a command
during reset (R315's treatment, log entry 14) or delivers fewer payload beats than its PUSH announces (R94 rules it out; the
refusal is the model's own choice, log entry 13). -/
def Obligations.EveryStepAnswersInsideWellFormedUse : Prop :=
  ∀ s : State, s.Inv →
    (∃ t, step s = .next t) ∨
    (∃ p rest w ws, s.schedule = .port p :: rest ∧ s.eventsLeft p = 0 ∧ s.queues.get p = w :: ws ∧
      ((s.rst = true ∧ step s = .refused .commandUnderReset) ∨
        (s.rst = false ∧ p = .P ∧ s.beats.length < (w.extractLsb' 0 16).toNat ∧
          step s = .refused .payloadIncomplete)))

/-- R160, R54 (h): `fr_count` is at most `(C - 1) / S`, so the saturation of PUSH.C never changes a value and no token is
lost. -/
def Obligations.TokenCountIsBounded : Prop :=
  ∀ s : State, s.Inv → s.frCount.toNat ≤ (s.cfg.val.C - 1) / s.cfg.val.S ∧ (s.cfg.val.C - 1) / s.cfg.val.S ≤ 65535 ∧
    (s.pPhase = .acct → ∃ t, exec (.push s.pN) s = .next t ∧
      t.frCount.toNat = s.frCount.toNat + (s.strideCnt.toNat + s.pN.toNat) / s.cfg.val.S)

/-- R161: a frame whose samples are written never lacks its token: with `W` samples unread and accounted, a STEP in IDLE is
admitted. -/
def Obligations.WrittenFrameNeverLacksItsToken : Prop :=
  ∀ s : State, s.Inv → s.stage = .idle → s.ePhase = .idle → s.pPhase ≠ .acct → s.cfg.val.W ≤ s.unread →
    ∃ a t, exec .step s = .next a ∧ a.ePhase = .copy ∧ exec .stIdle a = .next t ∧ t.stage = .preEmphasis ∧
      t.responses = ⟨.E, .ok, 1#32⟩ :: s.responses

/-- R286, R21 to R46 (written only by): each port's instructions write only that port's column, port P only adds tokens and
port E only takes them, port E only sets `ready_valid` and `mr_sig` and port K only clears them, port D writes nothing. Of MAT
port E writes only row `row_idx` of the active matrix, and only when it stores a row (R233); never the other matrix. -/
def Obligations.EachPortWritesOnlyItsOwnState : Prop :=
  ∀ (i : Instr) (s t : State), exec i s = .next t →
    (i.port = .P → s.frCount.toNat ≤ t.frCount.toNat ∧
      t = { s with
        ring := t.ring, writePos := t.writePos, strideCnt := t.strideCnt, frCount := t.frCount
        overrunCnt := t.overrunCnt, pPhase := t.pPhase, pN := t.pN, pPayload := t.pPayload, beats := t.beats
        responses := t.responses }) ∧
    (i.port = .E → t.frCount.toNat ≤ s.frCount.toNat ∧ (s.readyValid = true → t.readyValid = true) ∧
      (s.mrSig = true → t.mrSig = true) ∧
      (i ≠ .stStore → (i = .step → s.stage ≠ .store) → t.mat = s.mat) ∧ (s.swapPending = true → t.mat = s.mat) ∧
      (∀ a, (∀ c < s.cfg.val.NCEPS, a ≠ matAddr s.cfg.val s.activeSel s.rowIdx.toNat c) →
        t.mat.read a = s.mat.read a) ∧
      (∀ r < s.cfg.val.NUM_FRAMES, ∀ c < s.cfg.val.NCEPS,
        t.mat.read (matAddr s.cfg.val (!s.activeSel) r c) = s.mat.read (matAddr s.cfg.val (!s.activeSel) r c)) ∧
      t = { s with
        readPos := t.readPos, frCount := t.frCount, underrunCnt := t.underrunCnt, clampCnt := t.clampCnt
        stallCnt := t.stallCnt, ePhase := t.ePhase, stage := t.stage, uflag := t.uflag, frame := t.frame
        fre := t.fre, fim := t.fim, power := t.power, melq := t.melq, ceps := t.ceps, mat := t.mat
        activeSel := t.activeSel, readyValid := t.readyValid, mrSig := t.mrSig, rowIdx := t.rowIdx
        swapPending := t.swapPending, responses := t.responses }) ∧
    (i.port = .K → (t.readyValid = true → s.readyValid = true) ∧ (t.mrSig = true → s.mrSig = true) ∧
      t = { s with readyValid := t.readyValid, mrSig := t.mrSig, responses := t.responses }) ∧
    (i.port = .D → t = { s with responses := t.responses })

/-- R74, R270, R273: a command ends within three of its own events, whatever the other ports do: each event either answers
once and leaves the port idle, or answers nothing and leaves strictly less to do; other ports' commands are where they were.
-/
def Obligations.EveryCommandEndsWithinThreeEvents : Prop :=
  ∀ (s t : State) (p : Port) (rest : List Move), s.Inv → s.schedule = .port p :: rest → step s = .next t →
    (∀ p', p' ≠ p → t.eventsLeft p' = s.eventsLeft p') ∧
    ((t.eventsLeft p = 0 ∧ ∃ st d, t.responses = ⟨p, st, d⟩ :: s.responses) ∨
      (t.responses = s.responses ∧ 0 < t.eventsLeft p ∧ t.eventsLeft p ≤ 2 ∧
        (s.eventsLeft p ≠ 0 → t.eventsLeft p < s.eventsLeft p)) ∨
      (s.eventsLeft p = 0 ∧ s.queues.get p = [] ∧ t = { s with schedule := rest }))

/-- R272, R97: the status an instruction can answer with, by instruction and, for STEP, by stage. -/
def Obligations.StatusesAreTheCommandsOwn : Prop :=
  ∀ (i : Instr) (s t : State) (r : Response), exec i s = .next t → t.responses = r :: s.responses →
    r.port = i.port ∧ r.status ∈ allowedStatus i s

/-- R316, R27 to R30: no step but a reset makes a counter smaller, so none wraps; a saturated one stays. -/
def Obligations.CountersNeverWrap : Prop :=
  ∀ s t : State, step s = .next t → ¬s.resetsNext →
    s.overrunCnt.toNat ≤ t.overrunCnt.toNat ∧ s.underrunCnt.toNat ≤ t.underrunCnt.toNat ∧
    s.clampCnt.toNat ≤ t.clampCnt.toNat ∧ s.stallCnt.toNat ≤ t.stallCnt.toNat ∧
    t.overrunCnt.toNat ≤ s.overrunCnt.toNat + 1 ∧ t.underrunCnt.toNat ≤ s.underrunCnt.toNat + 1 ∧
    t.stallCnt.toNat ≤ s.stallCnt.toNat + 1

/-- R304: the first commands after reset, under any configuration. PUSH 0 latches its own `n` and payload (R128), so nothing here
rests on what those registers hold after reset. -/
def Obligations.FirstCommandsAfterReset : Prop :=
  ∀ c : WfConfig,
    exec .step (State.resetOf c) = .next { State.resetOf c with responses := [⟨.E, .wait, 0#32⟩] } ∧
    exec .mtake (State.resetOf c) = .next { State.resetOf c with responses := [⟨.K, .wait, 0#32⟩] } ∧
    exec (.mread 0#12 0#12) (State.resetOf c) =
      .next { State.resetOf c with responses := [⟨.K, .illegal, 0#32⟩] } ∧
    exec .release (State.resetOf c) = .next { State.resetOf c with responses := [⟨.K, .illegal, 0#32⟩] } ∧
    exec .avail (State.resetOf c) = .next { State.resetOf c with responses := [⟨.D, .ok, 0#32⟩] } ∧
    exec (.rdcsr 0x00#8) (State.resetOf c) = .next { State.resetOf c with responses := [⟨.D, .ok, 0#32⟩] } ∧
    ∃ a b, exec (.push 0#16) (State.resetOf c) = .next a ∧ exec (.push a.pN) a = .next b ∧
      exec (.push b.pN) b =
        .next { State.resetOf c with pN := 0#16, pPayload := [], responses := [⟨.P, .ok, 0#32⟩] }

/-- R322, R152: one frame costs nine events of port E and eight responses, frees `S` ring slots and, unless the swap is gated,
brings the engine back to IDLE. -/
def Obligations.OneFrameIsNineEvents : Prop :=
  ∀ s : State, s.Inv → s.stage = .idle → s.ePhase = .idle → (s.uflag = true ∨ s.frCount ≠ 0#16) →
    s.cfg.val.W ≤ s.unread → (s.readyValid = false ∨ s.rowIdx.toNat + 1 < s.cfg.val.NUM_FRAMES) →
    ∃ t, runSteps 9 s = .next t ∧ t.stage = .idle ∧ t.ePhase = .idle ∧ t.uflag = false ∧
      t.unread + s.cfg.val.S = s.unread ∧ t.responses.length = s.responses.length + 8 ∧ t.ring = s.ring ∧
      t.rowIdx.toNat = (s.rowIdx.toNat + 1) % s.cfg.val.NUM_FRAMES

/-- R13: the reference deployment's HAM, twiddle and DCT tables are the reference formulas of R178, R187 and R222 at its
sizes, and its `ALPHA_Q15` is `q15(0.97)` (R172). -/
def Obligations.TinyTablesAreTheReferenceFormulas : Prop :=
  (∀ i < 4, tableAt Config.tiny.HAM i = Reference.ham 4 i) ∧
  (∀ t < 2, tableAt Config.tiny.TW_RE t = Reference.twRe 4 t ∧ tableAt Config.tiny.TW_IM t = Reference.twIm 4 t) ∧
  (∀ k < 2, ∀ n < 2, tableRowAt Config.tiny.DCTC k n = Reference.dctc 2 k n) ∧
  (Config.tiny.ALPHA_Q15 : ℤ) = Reference.q15 0.97
end

