-- ==== Sys2Proof/Laws/Config.lean ====
section
/-! SUPPORT. What a well-formed configuration gives (00_scope.md rules R9, R10, R12), one lemma per clause. -/

namespace Sys2Proof

theorem isPowerOfTwo_iff {n : Nat} : isPowerOfTwo n = true ↔ n = 2 ^ Nat.log2 n := by
  simp [isPowerOfTwo]

theorem isWeightRow_iff {n : Nat} {row : List Sample} :
    isWeightRow n row = true ↔ row.length = n ∧ ∀ q ∈ row, 0 ≤ q.toInt := by
  simp [isWeightRow]

theorem Config.sizes_of_wf {c : Config} (h : c.wf = true) :
    c.C = 2 ^ c.LOGC ∧ (2 ≤ c.C ∧ c.C ≤ 65536) ∧ (1 ≤ c.S ∧ c.S < c.W) ∧ (2 ≤ c.W ∧ c.W ≤ c.C - 1) ∧
      c.W ≤ c.NFFT ∧ c.NFFT = 2 ^ c.LOG2N ∧ (2 ≤ c.NFFT ∧ c.NFFT ≤ 16384) ∧ (1 ≤ c.NF ∧ c.NF ≤ 256) ∧
      (1 ≤ c.NCEPS ∧ c.NCEPS ≤ c.NF) ∧ (1 ≤ c.NUM_FRAMES ∧ c.NUM_FRAMES ≤ 4096) := by
  simp only [Config.wf, Config.sizesOk, Bool.and_eq_true, decide_eq_true_eq, isPowerOfTwo_iff] at h
  exact ⟨h.1.1.1.1.1.1.1.1.1.1, h.1.1.1.1.1.1.1.1.1.2, h.1.1.1.1.1.1.1.1.2, h.1.1.1.1.1.1.1.2, h.1.1.1.1.1.1.2,
    h.1.1.1.1.1.2, h.1.1.1.1.2, h.1.1.1.2, h.1.1.2, h.1.2⟩

theorem Config.tables_of_wf {c : Config} (h : c.wf = true) :
    c.ALPHA_Q15 ≤ 32767 ∧ (c.HAM.length = c.W ∧ ∀ q ∈ c.HAM, 0 ≤ q.toInt) ∧ c.TW_RE.length = c.NFFT / 2 ∧
      c.TW_IM.length = c.NFFT / 2 ∧ c.MELW.length = c.NF ∧
      (∀ row ∈ c.MELW, row.length = c.NBINS ∧ ∀ q ∈ row, 0 ≤ q.toInt) ∧ c.DCTC.length = c.NCEPS ∧
      (∀ row ∈ c.DCTC, row.length = c.NF) ∧ c.LOGQ.wf = true := by
  simp only [Config.wf, Config.tablesOk, Bool.and_eq_true, decide_eq_true_eq, isWeightRow_iff, beq_iff_eq,
    List.all_eq_true] at h
  obtain ⟨-, ⟨⟨⟨⟨⟨⟨⟨h1, h2⟩, h3⟩, h4⟩, h5⟩, h6⟩, h7⟩, h8⟩, h9⟩ := h
  exact ⟨h1, h2, h3, h4, h5, h6, h7, h8, h9⟩

namespace WfConfig

theorem two_le_C (c : WfConfig) : 2 ≤ c.val.C := (Config.sizes_of_wf c.property).2.1.1

theorem C_pos (c : WfConfig) : 0 < c.val.C := Nat.lt_of_lt_of_le (by decide) c.two_le_C

theorem C_le (c : WfConfig) : c.val.C ≤ 65536 := (Config.sizes_of_wf c.property).2.1.2

theorem S_pos (c : WfConfig) : 0 < c.val.S := (Config.sizes_of_wf c.property).2.2.1.1

theorem S_lt_W (c : WfConfig) : c.val.S < c.val.W := (Config.sizes_of_wf c.property).2.2.1.2

theorem W_lt_C (c : WfConfig) : c.val.W < c.val.C := by
  have := (Config.sizes_of_wf c.property).2.2.2.1.2
  have := c.C_pos
  omega

theorem W_le_NFFT (c : WfConfig) : c.val.W ≤ c.val.NFFT := (Config.sizes_of_wf c.property).2.2.2.2.1

theorem NFFT_eq (c : WfConfig) : c.val.NFFT = 2 ^ c.val.LOG2N := (Config.sizes_of_wf c.property).2.2.2.2.2.1

theorem NFFT_le (c : WfConfig) : c.val.NFFT ≤ 16384 := (Config.sizes_of_wf c.property).2.2.2.2.2.2.1.2

theorem NF_le (c : WfConfig) : c.val.NF ≤ 256 := (Config.sizes_of_wf c.property).2.2.2.2.2.2.2.1.2

theorem NCEPS_pos (c : WfConfig) : 0 < c.val.NCEPS := (Config.sizes_of_wf c.property).2.2.2.2.2.2.2.2.1.1

theorem NCEPS_le (c : WfConfig) : c.val.NCEPS ≤ c.val.NF := (Config.sizes_of_wf c.property).2.2.2.2.2.2.2.2.1.2

theorem NUM_FRAMES_pos (c : WfConfig) : 0 < c.val.NUM_FRAMES := (Config.sizes_of_wf c.property).2.2.2.2.2.2.2.2.2.1

theorem NUM_FRAMES_le (c : WfConfig) : c.val.NUM_FRAMES ≤ 4096 := (Config.sizes_of_wf c.property).2.2.2.2.2.2.2.2.2.2

theorem ALPHA_Q15_le (c : WfConfig) : c.val.ALPHA_Q15 ≤ 32767 := (Config.tables_of_wf c.property).1

theorem HAM_nonneg (c : WfConfig) : ∀ q ∈ c.val.HAM, 0 ≤ q.toInt := (Config.tables_of_wf c.property).2.1.2

theorem MELW_nonneg (c : WfConfig) : ∀ row ∈ c.val.MELW, ∀ q ∈ row, 0 ≤ q.toInt :=
  fun row hr => ((Config.tables_of_wf c.property).2.2.2.2.2.1 row hr).2

theorem LOGQ_wf (c : WfConfig) : c.val.LOGQ.wf = true := (Config.tables_of_wf c.property).2.2.2.2.2.2.2.2

end WfConfig

end Sys2Proof
end

