-- ==== Sys2Proof/Laws/Cursor.lean ====
section
/-! SUPPORT. Cursor arithmetic of the ring (10_state.md rule R24, 40_ring_buffer.md rule R121): the unread count as a case
split that `omega` can use, its bounds, and how it moves with each cursor. -/

namespace Sys2Proof.Machine

theorem unreadCount_eq {C w r : Nat} (hw : w < C) (hr : r < C) :
    unreadCount C w r = if r ≤ w then w - r else w + C - r := by
  unfold unreadCount
  rw [Nat.mod_eq_of_lt hr]
  split
  · rw [show w + C - r = (w - r) + C by omega, Nat.add_mod_right, Nat.mod_eq_of_lt (by omega)]
  · exact Nat.mod_eq_of_lt (by omega)

theorem unreadCount_lt {C : Nat} (hC : 0 < C) (w r : Nat) : unreadCount C w r < C := Nat.mod_lt _ hC

theorem ringAddr_eq {C a k : Nat} (ha : a < C) (hk : k < C) :
    ringAddr C a k = if a + k < C then a + k else a + k - C := by
  unfold ringAddr
  split
  · exact Nat.mod_eq_of_lt ‹_›
  · rw [show a + k = (a + k - C) + C by omega, Nat.add_mod_right, Nat.mod_eq_of_lt (by omega)]; omega

/-- Publishing `n` samples that fit adds `n` to the unread count (R124). -/
theorem unreadCount_write {C w r n : Nat} (hw : w < C) (hr : r < C) (hn : n ≤ freeCount C w r) :
    unreadCount C (ringAddr C w n) r = unreadCount C w r + n := by
  have hC : 0 < C := by omega
  have hu := unreadCount_eq hw hr
  have hlt := unreadCount_lt hC w r
  unfold freeCount at hn
  have ha := ringAddr_eq hw (show n < C by omega)
  rw [unreadCount_eq (by rw [ha]; split <;> omega) hr, hu, ha]
  rw [hu] at hn
  split_ifs at hn ⊢ <;> omega

/-- Publishing a read of stride `n` takes `n` off the unread count (R127). -/
theorem unreadCount_read {C w r n : Nat} (hw : w < C) (hr : r < C) (hn : n ≤ unreadCount C w r) :
    unreadCount C w (ringAddr C r n) = unreadCount C w r - n := by
  have hC : 0 < C := by omega
  have hu := unreadCount_eq hw hr
  have hlt := unreadCount_lt hC w r
  have ha := ringAddr_eq hr (show n < C by omega)
  rw [unreadCount_eq hw (by rw [ha]; split <;> omega), hu, ha]
  rw [hu] at hn
  split_ifs at hn ⊢ <;> omega

/-- The write cursor stands `unread` past the read cursor. -/
theorem writePos_eq {C w r : Nat} (hw : w < C) (hr : r < C) : ringAddr C r (unreadCount C w r) = w := by
  rw [ringAddr_eq hr (unreadCount_lt (by omega) w r), unreadCount_eq hw hr]
  split_ifs <;> omega

theorem ringAddr_add (C a i k : Nat) : ringAddr C (ringAddr C a i) k = ringAddr C a (i + k) := by
  simp [ringAddr, Nat.add_assoc]

/-- A sample written at offset `k` is unread sample number `unread + k`. -/
theorem ringAddr_writePos {C w r : Nat} (hw : w < C) (hr : r < C) (k : Nat) :
    ringAddr C w k = ringAddr C r (unreadCount C w r + k) := by
  conv_lhs => rw [← writePos_eq hw hr]
  exact ringAddr_add C r _ k

end Sys2Proof.Machine
end

