-- ==== Sys2Proof/Laws/Flags.lean ====
section
/-! SUPPORT. The numeric helpers of Machine/Flags.lean as bounds and integers (00_scope.md rule R15): one spec lemma each. -/

namespace Sys2Proof.Machine

theorem asr_fifteen (v : Int) : asr v 15 = v / 32768 := rfl

@[simp] theorem asr_zero (k : Nat) : asr 0 k = 0 := by simp [asr]

theorem clamp16_eq_within16 (v : Int) : clamp16 v = within16 v := by
  unfold clamp16 within16
  split_ifs <;> omega

theorem clamps16_eq (v : Int) : clamps16 v = if outside16 v then 1 else 0 := by
  unfold clamps16 outside16
  by_cases h : v > 32767 ∨ v < -32768
  · rw [if_pos h, if_pos (by simpa using h.symm)]
  · rw [if_neg h, if_neg (by simpa [or_comm] using h)]

/-- A value in the signed 16-bit range is stored exactly (R14). -/
theorem toInt_toSample {v : Int} (h : -32768 ≤ v) (h' : v ≤ 32767) : (toSample v).toInt = v := by
  rw [toSample, BitVec.toInt_ofInt]
  exact Int.bmod_eq_of_le (by norm_num; omega) (by norm_num; omega)

theorem toInt_toSample_clamp16 (v : Int) : (toSample (clamp16 v)).toInt = within16 v := by
  rw [clamp16_eq_within16]
  exact toInt_toSample (by unfold within16; omega) (by unfold within16; omega)

theorem toInt_bounds (x : Sample) : -32768 ≤ x.toInt ∧ x.toInt ≤ 32767 := by
  have h1 := BitVec.toInt_lt (x := x)
  have h2 := BitVec.le_toInt x
  norm_num at h1 h2
  omega

theorem toNat_satU32 {v : Int} (h : 0 ≤ v) : ((satU32 v).toNat : Int) = min v 4294967295 := by
  rw [satU32, BitVec.toNat_ofInt]
  omega

theorem satAdd_toNat (c : Word) (k : Nat) : (satAdd c k).toNat = min (c.toNat + k) 4294967295 := by
  have := Nat.min_le_right (c.toNat + k) 4294967295
  rw [satAdd, BitVec.toNat_ofNat, Nat.mod_eq_of_lt (by omega)]

theorem satInc_toNat (c : Word) : (satInc c).toNat = min (c.toNat + 1) 4294967295 := satAdd_toNat c 1

theorem le_satAdd (c : Word) (k : Nat) : c.toNat ≤ (satAdd c k).toNat := by
  have := c.isLt
  rw [satAdd_toNat]
  omega

@[simp] theorem satAdd_zero (c : Word) : satAdd c 0 = c := by
  apply BitVec.eq_of_toNat_eq
  have := c.isLt
  rw [satAdd_toNat]
  omega

/-- The end of an arithmetic stage is what R159 says. -/
theorem finish_endsStage (s : State) (g : Stage) (k : Nat) : s.EndsStage (s.finish g k) g k :=
  ⟨satAdd_toNat _ _, rfl, rfl⟩

/-- Clamps counted one by one are the elements outside the range. -/
theorem sum_clamps16 (n : Nat) (v : Nat → Int) :
    ((List.range n).map fun i => clamps16 (v i)).sum = (List.range n).countP fun i => outside16 (v i) := by
  induction List.range n with
  | nil => rfl
  | cons a l ih =>
    rw [List.map_cons, List.sum_cons, ih, List.countP_cons, clamps16_eq]
    split_ifs <;> omega

theorem sum_clampsU32 (n : Nat) (v : Nat → Int) :
    ((List.range n).map fun i => clampsU32 (v i)).sum =
      (List.range n).countP fun i => decide (4294967295 < v i) := by
  induction List.range n with
  | nil => rfl
  | cons a l ih =>
    rw [List.map_cons, List.sum_cons, ih, List.countP_cons, clampsU32]
    simp only [gt_iff_lt, decide_eq_true_eq]
    split_ifs <;> omega

end Sys2Proof.Machine
end

