-- ==== Sys2Proof/Laws/LogCompress.lean ====
section
/-! SUPPORT. What the integer evaluation of `LOGQ_ref` (44_power_mel.md rule R212) does, for every positive gain: the scaled
exponentials from below and from above, and the search for the binary digits. -/

namespace Sys2Proof.Machine

/-- A quotient rounded down loses less than 1. -/
theorem div_sub_one_le {a d : ℕ} (hd : 0 < d) : (a : ℝ) / d - 1 ≤ ((a / d : ℕ) : ℝ) := by
  have hd' : (0 : ℝ) < d := by exact_mod_cast hd
  have : (a : ℝ) < d * (((a / d : ℕ) : ℝ) + 1) := by exact_mod_cast Nat.lt_mul_div_succ a hd
  rw [sub_le_iff_le_add, div_le_iff₀ hd']
  nlinarith

/-- Term `n` of the exponential series of `1 / gain`, scaled by `b`. -/
noncomputable def expTerm (gain : ℕ) (b : ℝ) (n : ℕ) : ℝ := b * ((1 / (gain : ℝ)) ^ n / n.factorial)

/-- Each term is the one before it divided as `expSeries` divides it. -/
theorem expTerm_succ {gain : ℕ} (hg : 0 < gain) (b : ℝ) (n : ℕ) :
    expTerm gain b (n + 1) = expTerm gain b n / (gain * (n + 1) : ℕ) := by
  have : (gain : ℝ) ≠ 0 := by positivity
  have : (n.factorial : ℝ) ≠ 0 := by positivity
  have : (n : ℝ) + 1 ≠ 0 := by positivity
  unfold expTerm
  rw [Nat.factorial_succ, pow_succ]
  push_cast
  field_simp

/-- A rounded series is at most the sum of its exact terms. -/
theorem expSeries_le {gain : ℕ} (hg : 0 < gain) (b : ℝ) (fuel n term : ℕ) (h : (term : ℝ) ≤ expTerm gain b n) :
    (expSeries gain fuel n term : ℝ) ≤ ∑ i ∈ Finset.range (fuel + 1), expTerm gain b (n + i) := by
  induction fuel generalizing n term with
  | zero => simpa [expSeries] using h
  | succ fuel ih =>
    rw [expSeries, Finset.sum_range_succ']
    push_cast
    have hs : ((term / (gain * (n + 1)) : ℕ) : ℝ) ≤ expTerm gain b (n + 1) := by
      rw [expTerm_succ hg]
      exact Nat.cast_div_le.trans (div_le_div_of_nonneg_right h (by positivity))
    have := ih (n + 1) _ hs
    simp only [Nat.add_assoc n 1, Nat.add_comm 1] at this
    simp only [Nat.add_zero]
    linarith

/-- A rounded series loses at most 2 per term: every divisor after the first term is at least 2. -/
theorem le_expSeries {gain : ℕ} (hg : 0 < gain) (b : ℝ) (fuel n term : ℕ) (hn : 0 < n)
    (h : expTerm gain b n - 2 ≤ term) :
    ∑ i ∈ Finset.range (fuel + 1), expTerm gain b (n + i) - 2 * (fuel + 1) ≤ expSeries gain fuel n term := by
  induction fuel generalizing n term with
  | zero => simpa [expSeries] using h
  | succ fuel ih =>
    rw [expSeries, Finset.sum_range_succ']
    push_cast
    have hd : 0 < gain * (n + 1) := by positivity
    have hd2 : (2 : ℝ) ≤ (gain * (n + 1) : ℕ) := by exact_mod_cast (by nlinarith : 2 ≤ gain * (n + 1))
    have hs : expTerm gain b (n + 1) - 2 ≤ ((term / (gain * (n + 1)) : ℕ) : ℝ) := by
      rw [expTerm_succ hg]
      have h1 := div_sub_one_le (a := term) hd
      have h2 : (expTerm gain b n - 2) / (gain * (n + 1) : ℕ) ≤ (term : ℝ) / (gain * (n + 1) : ℕ) :=
        div_le_div_of_nonneg_right h (by linarith)
      have h3 : (2 : ℝ) / (gain * (n + 1) : ℕ) ≤ 1 := by rw [div_le_one (by linarith)]; exact hd2
      rw [sub_div] at h2
      linarith
    have := ih (n + 1) _ (by omega) hs
    simp only [Nat.add_assoc n 1, Nat.add_comm 1] at this
    simp only [Nat.add_zero]
    linarith

theorem logScale_pos (gain : ℕ) : (0 : ℝ) < 2 ^ logPrecision gain := by positivity

theorem sum_expTerm (gain : ℕ) (b : ℝ) (n : ℕ) :
    ∑ i ∈ Finset.range n, expTerm gain b i = b * ∑ i ∈ Finset.range n, (1 / (gain : ℝ)) ^ i / i.factorial := by
  simp only [expTerm, Finset.mul_sum]

/-- `expUnit` is `e^(1 / gain)` from below. -/
theorem expUnit_le {gain : ℕ} (hg : 0 < gain) :
    (expUnit gain : ℝ) ≤ 2 ^ logPrecision gain * Real.exp (1 / gain) := by
  have h := expSeries_le hg (2 ^ logPrecision gain) 64 0 (2 ^ logPrecision gain) (by simp [expTerm])
  simp only [Nat.zero_add] at h
  rw [sum_expTerm] at h
  exact h.trans (mul_le_mul_of_nonneg_left (Real.sum_le_exp_of_nonneg (by positivity) _) (logScale_pos gain).le)

theorem two_pow_log2_le {gain : ℕ} (hg : 0 < gain) : 2 ^ Nat.log2 gain ≤ gain := Nat.log2_self_le (by omega)

/-- `expUnit` is below `e^(1 / gain)` by at most 131 units of the last place, the cut tail of the series included. -/
theorem le_expUnit {gain : ℕ} (hg : 0 < gain) :
    2 ^ logPrecision gain * Real.exp (1 / gain) - 131 ≤ expUnit gain := by
  have hg' : (1 : ℝ) ≤ gain := by exact_mod_cast hg
  have h1 : expTerm gain (2 ^ logPrecision gain) 1 - 2 ≤ ((2 ^ logPrecision gain / (gain * (0 + 1)) : ℕ) : ℝ) := by
    have := div_sub_one_le (a := 2 ^ logPrecision gain) (d := gain * (0 + 1)) (by omega)
    rw [expTerm_succ hg]
    simp only [expTerm] at *
    push_cast at *
    simp at *
    linarith
  have h := le_expSeries hg (2 ^ logPrecision gain) 63 1 _ one_pos h1
  have hu : (expUnit gain : ℝ) = 2 ^ logPrecision gain +
      expSeries gain 63 1 (2 ^ logPrecision gain / (gain * (0 + 1))) := by
    simp only [expUnit, expSeries]; push_cast; rfl
  have hs : ∑ i ∈ Finset.range 65, expTerm gain (2 ^ logPrecision gain) i =
      ∑ i ∈ Finset.range 64, expTerm gain (2 ^ logPrecision gain) (1 + i) + 2 ^ logPrecision gain := by
    rw [Finset.sum_range_succ']; simp [expTerm, Nat.add_comm]
  rw [sum_expTerm] at hs
  have hx : |(1 / (gain : ℝ))| ≤ 1 := by
    rw [abs_of_nonneg (by positivity)]; exact (div_le_one (by linarith)).mpr hg'
  have hb := (abs_le.mp (Real.exp_bound hx (n := 65) (by norm_num))).2
  rw [abs_of_nonneg (by positivity : (0 : ℝ) ≤ 1 / gain)] at hb
  have hsmall : 2 ^ logPrecision gain * ((1 / (gain : ℝ)) ^ 65 * ((65 : ℕ).succ / ((65 : ℕ).factorial * (65 : ℕ)))) ≤ 1 := by
    have hp : (2 : ℝ) ^ logPrecision gain ≤ 2 ^ 192 * (gain : ℝ) ^ 2 := by
      have : (2 : ℝ) ^ Nat.log2 gain ≤ gain := by exact_mod_cast two_pow_log2_le hg
      rw [logPrecision, pow_add, Nat.mul_comm, pow_mul]
      exact mul_le_mul_of_nonneg_left (pow_le_pow_left₀ (by positivity) this 2) (by positivity)
    have hq : (gain : ℝ) ^ 2 * (1 / (gain : ℝ)) ^ 65 ≤ 1 := by
      rw [one_div, inv_pow, ← div_eq_mul_inv, div_le_one (by positivity)]
      exact pow_le_pow_right₀ hg' (by norm_num)
    have hr : (2 : ℝ) ^ 192 * ((65 : ℕ).succ / ((65 : ℕ).factorial * (65 : ℕ))) ≤ 1 := by
      norm_num [Nat.factorial]
    calc _ ≤ 2 ^ 192 * (gain : ℝ) ^ 2 * ((1 / (gain : ℝ)) ^ 65 * ((65 : ℕ).succ / ((65 : ℕ).factorial * (65 : ℕ)))) :=
          mul_le_mul_of_nonneg_right hp (by positivity)
      _ = ((gain : ℝ) ^ 2 * (1 / (gain : ℝ)) ^ 65) * (2 ^ 192 * ((65 : ℕ).succ / ((65 : ℕ).factorial * (65 : ℕ)))) := by
          ring
      _ ≤ 1 * 1 := mul_le_mul hq hr (by positivity) one_pos.le
      _ = 1 := one_mul 1
  have hm := mul_le_mul_of_nonneg_left hb (logScale_pos gain).le
  rw [mul_sub] at hm
  rw [hu]
  push_cast at h
  linarith

theorem expPow_zero (gain : ℕ) : expPow gain 0 = expUnit gain := by rw [expPow]

/-- `expPow` is `e^(2^j / gain)` from below. -/
theorem expPow_le {gain : ℕ} (hg : 0 < gain) (j : ℕ) :
    (expPow gain j : ℝ) ≤ 2 ^ logPrecision gain * Real.exp (2 ^ j / gain) := by
  induction j with
  | zero => rw [expPow_zero, pow_zero]; exact expUnit_le hg
  | succ j ih =>
    have hB := logScale_pos gain
    rw [expPow]
    refine Nat.cast_div_le.trans ?_
    push_cast
    rw [div_le_iff₀ hB]
    have he : Real.exp (2 ^ (j + 1) / gain) = Real.exp (2 ^ j / gain) ^ 2 := by
      rw [← Real.exp_nat_mul]; congr 1; push_cast; ring
    rw [he]
    calc (expPow gain j : ℝ) ^ 2 ≤ (2 ^ logPrecision gain * Real.exp (2 ^ j / gain)) ^ 2 :=
          pow_le_pow_left₀ (by positivity) ih 2
      _ = _ := by ring

/-- The relative error of a power: `132 * 2^j - 1` units of the last place. -/
theorem le_expPow {gain : ℕ} (hg : 0 < gain) (j : ℕ) :
    Real.exp (2 ^ j / gain) * (2 ^ logPrecision gain - (132 * 2 ^ j - 1)) ≤ expPow gain j := by
  have hB := logScale_pos gain
  induction j with
  | zero =>
    have h := le_expUnit hg
    have h1 : 1 ≤ Real.exp (1 / gain) := Real.one_le_exp (by positivity)
    rw [expPow_zero, pow_zero]
    refine le_trans ?_ h
    generalize Real.exp (1 / gain) = x at h1
    generalize (2 : ℝ) ^ logPrecision gain = B
    linarith
  | succ j ih =>
    have he : Real.exp (2 ^ (j + 1) / gain) = Real.exp (2 ^ j / gain) ^ 2 := by
      rw [← Real.exp_nat_mul]; congr 1; push_cast; ring
    have h1 : 1 ≤ Real.exp (2 ^ j / gain) := Real.one_le_exp (by positivity)
    have hf := div_sub_one_le (a := expPow gain j ^ 2) (d := 2 ^ logPrecision gain) (by positivity)
    rw [expPow, he]
    push_cast at hf ⊢
    refine le_trans ?_ hf
    set B : ℝ := 2 ^ logPrecision gain
    set x := Real.exp (2 ^ j / gain)
    set d : ℝ := 132 * 2 ^ j - 1 with hd
    have hd0 : 0 ≤ d := by
      have : (1 : ℝ) ≤ 2 ^ j := one_le_pow₀ (by norm_num)
      rw [hd]; linarith
    have e2 : (132 : ℝ) * 2 ^ (j + 1) - 1 = 2 * d + 1 := by rw [hd, pow_succ]; ring
    rw [e2, le_sub_iff_add_le, le_div_iff₀ hB]
    by_cases hc : d ≤ B
    · have h2 : (x * (B - d)) ^ 2 ≤ (expPow gain j : ℝ) ^ 2 :=
        pow_le_pow_left₀ (mul_nonneg (by linarith) (by linarith)) ih 2
      have h3 : 1 ≤ x ^ 2 := one_le_pow₀ h1
      nlinarith [mul_nonneg (sq_nonneg x) (sq_nonneg d), mul_le_mul_of_nonneg_right h3 hB.le]
    · have hc : B < d := by linarith
      have h3 : 1 ≤ x ^ 2 := one_le_pow₀ h1
      have h4 : x ^ 2 * (B - (2 * d + 1)) + 1 ≤ 0 := by nlinarith
      nlinarith [sq_nonneg (expPow gain j : ℝ)]

/-- Every power of `e^(1 / gain)` is above 1. -/
theorem lt_expPow {gain : ℕ} (hg : 0 < gain) (j : ℕ) : 2 ^ logPrecision gain < expPow gain j := by
  induction j with
  | zero =>
    rw [expPow_zero]
    have hlog : (gain : ℝ) < 2 ^ (Nat.log2 gain + 1) := by exact_mod_cast Nat.lt_log2_self
    have hgr : (0 : ℝ) < gain := by exact_mod_cast hg
    have hu := le_expUnit hg
    have hx := Real.add_one_le_exp (1 / (gain : ℝ))
    have hB : (132 : ℝ) ≤ 2 ^ logPrecision gain * (1 / gain) := by
      rw [mul_one_div, le_div_iff₀ hgr, logPrecision, two_mul, pow_add, pow_add]
      have : (1 : ℝ) ≤ 2 ^ Nat.log2 gain := one_le_pow₀ (by norm_num)
      rw [pow_succ] at hlog
      norm_num
      nlinarith
    have := mul_le_mul_of_nonneg_left hx (logScale_pos gain).le
    have : (2 : ℝ) ^ logPrecision gain < expUnit gain := by linarith
    exact_mod_cast this
  | succ j ih =>
    rw [expPow]
    refine Nat.lt_of_lt_of_le (Nat.lt_succ_self _) ((Nat.le_div_iff_mul_le (by positivity)).mpr ?_)
    rw [Nat.succ_mul, pow_two]
    have := Nat.mul_le_mul_left (expPow gain j) ih
    have := Nat.mul_le_mul_right (2 ^ logPrecision gain) ih
    simp only [Nat.succ_mul, Nat.mul_succ] at *
    omega

/-- The product of two scaled exponentials, rounded down, from above. -/
theorem expMul_le {gain prod k j : ℕ} (hg : 0 < gain)
    (hp : (prod : ℝ) ≤ 2 ^ logPrecision gain * Real.exp (k / gain)) :
    ((prod * expPow gain j / 2 ^ logPrecision gain : ℕ) : ℝ) ≤
      2 ^ logPrecision gain * Real.exp ((k + 2 ^ j : ℕ) / gain) := by
  have hB := logScale_pos gain
  refine Nat.cast_div_le.trans ?_
  push_cast
  rw [div_le_iff₀ hB, add_div, Real.exp_add]
  calc (prod : ℝ) * expPow gain j ≤
        (2 ^ logPrecision gain * Real.exp (k / gain)) * (2 ^ logPrecision gain * Real.exp (2 ^ j / gain)) :=
        mul_le_mul hp (expPow_le hg j) (by positivity) (by positivity)
    _ = _ := by ring

/-- The product of two scaled exponentials, rounded down, from below: the two errors and one more unit add up. -/
theorem le_expMul {gain prod k j : ℕ} {c : ℝ} (hg : 0 < gain) (hc : 0 ≤ c)
    (hp : Real.exp (k / gain) * (2 ^ logPrecision gain - c) ≤ prod) :
    Real.exp ((k + 2 ^ j : ℕ) / gain) * (2 ^ logPrecision gain - (c + 132 * 2 ^ j)) ≤
      ((prod * expPow gain j / 2 ^ logPrecision gain : ℕ) : ℝ) := by
  have hB := logScale_pos gain
  have hx : 1 ≤ Real.exp ((k : ℝ) / gain) := Real.one_le_exp (by positivity)
  have hy : 1 ≤ Real.exp (2 ^ j / gain) := Real.one_le_exp (by positivity)
  have hf := div_sub_one_le (a := prod * expPow gain j) (d := 2 ^ logPrecision gain) (by positivity)
  have he := le_expPow hg j
  have hj : (1 : ℝ) ≤ 2 ^ j := one_le_pow₀ (by norm_num)
  have hprod : (0 : ℝ) ≤ prod := by positivity
  have hpow : (0 : ℝ) ≤ expPow gain j := by positivity
  push_cast at hf ⊢
  refine le_trans ?_ hf
  rw [add_div, Real.exp_add, le_sub_iff_add_le, le_div_iff₀ hB]
  generalize (2 : ℝ) ^ logPrecision gain = B at *
  generalize Real.exp ((k : ℝ) / gain) = x at *
  generalize Real.exp (2 ^ j / gain) = y at *
  generalize (expPow gain j : ℝ) = e at *
  generalize (prod : ℝ) = p at *
  obtain ⟨d, hd⟩ : ∃ d : ℝ, d = 132 * 2 ^ j - 1 := ⟨_, rfl⟩
  have hd0 : 0 ≤ d := by linarith
  rw [← hd] at he
  rw [show (132 : ℝ) * 2 ^ j = d + 1 by linarith]
  have hxy : 1 ≤ x * y := one_le_mul_of_one_le_of_one_le hx hy
  by_cases h : c ≤ B ∧ d ≤ B
  · have h2 : (x * (B - c)) * (y * (B - d)) ≤ p * e :=
      mul_le_mul hp he (mul_nonneg (by linarith) (by linarith)) hprod
    have h3 : 0 ≤ x * y * (c * d) := by positivity
    nlinarith [mul_le_mul_of_nonneg_right hxy hB.le]
  · have h4 : B - (c + (d + 1)) ≤ -1 := by
      by_contra hn
      exact h ⟨by linarith, by linarith⟩
    have h5 : x * y * (B - (c + (d + 1))) + 1 ≤ 0 := by nlinarith
    nlinarith [mul_nonneg hprod hpow]

/-- The search adds the binary digits of a number below `2^j`. -/
theorem logDigits_bounds (gain acc j k prod : ℕ) :
    k ≤ logDigits gain acc j k prod ∧ logDigits gain acc j k prod < k + 2 ^ j := by
  induction j generalizing k prod with
  | zero => simp [logDigits]
  | succ j ih =>
    rw [logDigits, pow_succ]
    split
    · have := ih (k + 2 ^ j) (prod * expPow gain j / 2 ^ logPrecision gain); omega
    · have := ih k prod; omega

/-- What the search for the binary digits can do: from a prefix `k` that is admitted (or 0) with `k + 2^j` too large, it ends
in an admitted `r` with `r + 1` too large, up to the error of the scaled products. -/
theorem logDigits_spec {gain acc : ℕ} (hg : 0 < gain) (j k prod : ℕ) (c : ℝ) (hc : 0 ≤ c)
    (hu : (prod : ℝ) ≤ 2 ^ logPrecision gain * Real.exp (k / gain))
    (hl : Real.exp (k / gain) * (2 ^ logPrecision gain - c) ≤ prod)
    (ha : k = 0 ∨ 2 ^ 15 * prod ≤ acc * 2 ^ logPrecision gain)
    (hr : (acc : ℝ) < 32768 * Real.exp ((k + 2 ^ j : ℕ) / gain)) :
    (acc : ℝ) < 32768 * Real.exp ((logDigits gain acc j k prod + 1 : ℕ) / gain) ∧
      (logDigits gain acc j k prod ≠ 0 →
        32768 * (Real.exp ((logDigits gain acc j k prod : ℕ) / gain) *
          (2 ^ logPrecision gain - (c + 132 * 2 ^ j))) ≤ acc * 2 ^ logPrecision gain) := by
  have hB := logScale_pos gain
  induction j generalizing k prod c with
  | zero =>
    rw [logDigits]
    refine ⟨hr, fun hk => ?_⟩
    have h : ((2 ^ 15 * prod : ℕ) : ℝ) ≤ (acc * 2 ^ logPrecision gain : ℕ) := by exact_mod_cast ha.resolve_left hk
    push_cast at h
    have hx := Real.exp_pos ((k : ℝ) / gain)
    nlinarith
  | succ j ih =>
    rw [logDigits]
    split
    next h =>
      obtain ⟨h1, h2⟩ := ih (k + 2 ^ j) _ (c + 132 * 2 ^ j) (by positivity) (expMul_le hg hu) (le_expMul hg hc hl)
        (.inr h) (by rwa [Nat.add_assoc, ← Nat.two_mul, ← Nat.pow_succ'])
      refine ⟨h1, fun hk => ?_⟩
      rw [pow_succ, mul_two, mul_add, ← add_assoc]
      exact h2 hk
    next h =>
      have hlt : ((acc * 2 ^ logPrecision gain : ℕ) : ℝ) <
          (2 ^ 15 * (prod * expPow gain j / 2 ^ logPrecision gain) : ℕ) := by exact_mod_cast Nat.lt_of_not_le h
      have hm := expMul_le (j := j) hg hu
      rw [Nat.cast_mul, Nat.cast_mul] at hlt
      push_cast at hlt hm
      obtain ⟨h1, h2⟩ := ih k prod c hc hu hl ha (by
        push_cast
        refine lt_of_mul_lt_mul_right ?_ hB.le
        nlinarith)
      refine ⟨h1, fun hk => ?_⟩
      refine le_trans ?_ (h2 hk)
      have hx := Real.exp_pos ((logDigits gain acc j k prod : ℕ) / (gain : ℝ))
      have : (2 : ℝ) ^ j ≤ 2 ^ (j + 1) := pow_le_pow_right₀ (by norm_num) (by omega)
      nlinarith

end Sys2Proof.Machine
end

