-- ==== Sys2Proof/Laws/Memory.lean ====
section
/-! SUPPORT. The laws of the element memories: read after write, canonical form, and what the ring and row accesses do. -/

namespace Sys2Proof.Machine

@[simp] theorem Memory.read_nil (a : Nat) : Memory.read [] a = none := rfl

theorem Memory.read_write (m : Memory) (hm : Memory.wf m) (a b : Nat) (x : Sample) :
    Memory.read (m.write a x) b = if b = a then some x else m.read b := by
  induction m with
  | nil => simp [Memory.write, Memory.read]
  | cons p m ih =>
    obtain ⟨c, v⟩ := p
    obtain ⟨hlt, hm⟩ := List.pairwise_cons.mp hm
    rw [Memory.write]
    split
    · simp only [Memory.read]
    · split
      · subst_vars
        simp only [Memory.read]
        split <;> rfl
      · simp only [Memory.read, ih hm]
        split
        · next h => subst h; rw [if_neg (Ne.symm ‹_›)]
        · rfl

theorem Memory.read_write_same (m : Memory) (hm : m.wf) (a : Nat) (x : Sample) :
    Memory.read (m.write a x) a = some x := by
  rw [Memory.read_write m hm, if_pos rfl]

theorem Memory.read_write_ne (m : Memory) (hm : m.wf) {a b : Nat} (x : Sample) (h : b ≠ a) :
    Memory.read (m.write a x) b = m.read b := by
  rw [Memory.read_write m hm, if_neg h]

theorem Memory.mem_write {m : Memory} {a : Nat} {x : Sample} {p : Nat × Sample} (h : p ∈ m.write a x) :
    p = (a, x) ∨ p ∈ m := by
  induction m with
  | nil => simpa [Memory.write] using h
  | cons q m ih =>
    obtain ⟨c, v⟩ := q
    rw [Memory.write] at h
    split at h
    · simpa using h
    · split at h
      · rcases List.mem_cons.mp h with h | h
        · exact .inl h
        · exact .inr (List.mem_cons_of_mem _ h)
      · rcases List.mem_cons.mp h with h | h
        · exact .inr (by simp [h])
        · exact (ih h).imp id (List.mem_cons_of_mem _)

theorem Memory.wf_write {m : Memory} (hm : m.wf) (a : Nat) (x : Sample) : (m.write a x).wf := by
  induction m with
  | nil => simp [Memory.write, Memory.wf]
  | cons p m ih =>
    obtain ⟨c, v⟩ := p
    obtain ⟨hlt, hm'⟩ := List.pairwise_cons.mp hm
    rw [Memory.write]
    split
    · next h =>
      refine List.pairwise_cons.mpr ⟨fun q hq => ?_, hm⟩
      rcases List.mem_cons.mp hq with rfl | hq
      · exact h
      · exact Nat.lt_trans h (hlt q hq)
    · split
      · next h => subst h; exact List.pairwise_cons.mpr ⟨hlt, hm'⟩
      · refine List.pairwise_cons.mpr ⟨fun q hq => ?_, ih hm'⟩
        rcases Memory.mem_write hq with rfl | hq
        · show c < a; omega
        · exact hlt q hq

/-! Ring accesses. -/

theorem ringAddr_lt {C : Nat} (hC : 0 < C) (a k : Nat) : ringAddr C a k < C := Nat.mod_lt _ hC

theorem ringAddr_succ (C a k : Nat) : ringAddr C (a + 1) k = ringAddr C a (k + 1) := by
  simp only [ringAddr]; congr 1; omega

theorem ringWrite_wf {C : Nat} (xs : List Sample) {m : Memory} (hm : m.wf) (a : Nat) :
    (ringWrite C m a xs).wf := by
  induction xs generalizing m a with
  | nil => exact hm
  | cons x xs ih => exact ih (Memory.wf_write hm _ x) (a + 1)

theorem ringWrite_mem {C : Nat} (hC : 0 < C) (xs : List Sample) {m : Memory} {a : Nat} {p : Nat × Sample}
    (h : p ∈ ringWrite C m a xs) : p ∈ m ∨ p.1 < C := by
  induction xs generalizing m a with
  | nil => exact .inl h
  | cons x xs ih =>
    rcases ih h with h | h
    · rcases Memory.mem_write h with rfl | h
      · exact .inr (ringAddr_lt hC a 0)
      · exact .inl h
    · exact .inr h

/-- An element no sample is stored to keeps its value (R124). -/
theorem ringWrite_read_other {C : Nat} (xs : List Sample) {m : Memory} (hm : m.wf) (a b : Nat)
    (h : ∀ k < xs.length, b ≠ ringAddr C a k) : Memory.read (ringWrite C m a xs) b = m.read b := by
  induction xs generalizing m a with
  | nil => rfl
  | cons x xs ih =>
    rw [ringWrite, ih (Memory.wf_write hm _ x) (a + 1), Memory.read_write_ne m hm x (h 0 (by simp))]
    intro k hk
    rw [ringAddr_succ]
    exact h (k + 1) (by simpa using hk)

theorem ringAddr_inj {C a i j : Nat} (hi : i < C) (hj : j < C) (h : ringAddr C a i = ringAddr C a j) : i = j := by
  have h' : a + i ≡ a + j [MOD C] := h
  have := Nat.ModEq.add_left_cancel' a h'
  rwa [Nat.ModEq, Nat.mod_eq_of_lt hi, Nat.mod_eq_of_lt hj] at this

/-- The k-th sample stored is the one read there (R124), for a block that does not overrun itself. -/
theorem ringWrite_read_at {C : Nat} (xs : List Sample) {m : Memory} (hm : m.wf) (a k : Nat) (hk : k < xs.length)
    (hn : xs.length ≤ C) : Memory.read (ringWrite C m a xs) (ringAddr C a k) = xs[k]? := by
  induction xs generalizing m a k with
  | nil => simp at hk
  | cons x xs ih =>
    rw [List.length_cons] at hk hn
    cases k with
    | zero =>
      rw [ringWrite, ringWrite_read_other xs (Memory.wf_write hm _ x), Memory.read_write_same m hm]
      · simp
      · intro k hk' e
        rw [ringAddr_succ] at e
        exact absurd (ringAddr_inj (by omega) (by omega) e) (by omega)
    | succ k =>
      rw [ringWrite, ← ringAddr_succ, ih (Memory.wf_write hm _ x) (a + 1) k (by omega) (by omega)]
      simp

/-- When every element of the window is written, the ring read delivers exactly those elements, in order (R127). -/
theorem ringRead_ok {C : Nat} {m : Memory} {a n : Nat} {xs : List Sample} :
    ringRead C m a n = .ok xs ↔ xs.length = n ∧ ∀ k < n, m.read (ringAddr C a k) = xs[k]? := by
  induction n generalizing a xs with
  | zero =>
    simp only [ringRead, Except.ok.injEq]
    constructor
    · rintro rfl; simp
    · rintro ⟨h, -⟩; exact (List.length_eq_zero_iff.mp h).symm
  | succ n ih =>
    rw [ringRead]
    constructor
    · intro h
      split at h
      · cases h
      · cases h
      · next x ys hx hys =>
        cases h
        obtain ⟨h1, h2⟩ := ih.mp hys
        refine ⟨by simp [h1], fun k hk => ?_⟩
        cases k with
        | zero => simpa using hx
        | succ k => rw [← ringAddr_succ, h2 k (by omega)]; simp
    · rintro ⟨h1, h2⟩
      cases xs with
      | nil => simp at h1
      | cons x xs =>
        have hx : m.read (ringAddr C a 0) = some x := by simpa using h2 0 (by omega)
        have hxs : ringRead C m (a + 1) n = .ok xs := by
          refine ih.mpr ⟨by simpa using h1, fun k hk => ?_⟩
          rw [ringAddr_succ, h2 (k + 1) (by omega)]; simp
        rw [hx, hxs]

theorem ringRead_isOk {C : Nat} {m : Memory} {a n : Nat} (h : ∀ k < n, (m.read (ringAddr C a k)).isSome) :
    ∃ xs, ringRead C m a n = .ok xs := by
  induction n generalizing a with
  | zero => exact ⟨[], rfl⟩
  | succ n ih =>
    obtain ⟨x, hx⟩ := Option.isSome_iff_exists.mp (h 0 (by omega))
    obtain ⟨xs, hxs⟩ := ih (a := a + 1) fun k hk => by rw [ringAddr_succ]; exact h (k + 1) (by omega)
    exact ⟨x :: xs, by rw [ringRead, hx, hxs]⟩

/-! Row accesses. -/

theorem rowWrite_wf (xs : List Sample) {m : Memory} (hm : m.wf) (a : Nat) : (rowWrite m a xs).wf := by
  induction xs generalizing m a with
  | nil => exact hm
  | cons x xs ih => exact ih (Memory.wf_write hm a x) (a + 1)

theorem rowWrite_mem (xs : List Sample) {m : Memory} {a : Nat} {p : Nat × Sample} (h : p ∈ rowWrite m a xs) :
    p ∈ m ∨ (a ≤ p.1 ∧ p.1 < a + xs.length) := by
  induction xs generalizing m a with
  | nil => exact .inl h
  | cons x xs ih =>
    rw [List.length_cons]
    rcases ih h with h | h
    · rcases Memory.mem_write h with rfl | h
      · exact .inr ⟨Nat.le_refl a, by show a < a + (xs.length + 1); omega⟩
      · exact .inl h
    · exact .inr ⟨by omega, by omega⟩

theorem rowWrite_read (xs : List Sample) {m : Memory} (hm : m.wf) (a b : Nat) :
    Memory.read (rowWrite m a xs) b = if a ≤ b ∧ b < a + xs.length then xs[b - a]? else m.read b := by
  induction xs generalizing m a with
  | nil => simp [rowWrite]
  | cons x xs ih =>
    rw [rowWrite, ih (Memory.wf_write hm a x) (a + 1), List.length_cons, Memory.read_write m hm]
    by_cases hb : b = a
    · subst hb; simp
    · by_cases hlt : a ≤ b ∧ b < a + (xs.length + 1)
      · rw [if_pos hlt, if_pos (by omega), show b - a = (b - (a + 1)) + 1 by omega]; simp
      · rw [if_neg hlt, if_neg (by omega), if_neg hb]

/-- Different elements of MAT have different addresses (R60). -/
theorem matAddr_inj {c : Config} {s s' : Bool} {r r' k k' : Nat} (hr : r < c.NUM_FRAMES) (hr' : r' < c.NUM_FRAMES)
    (hk : k < c.NCEPS) (hk' : k' < c.NCEPS) (h : matAddr c s r k = matAddr c s' r' k') : s = s' ∧ r = r' ∧ k = k' := by
  unfold matAddr at h
  have e1 : k = k' := by
    have := congrArg (· % c.NCEPS) h
    simpa [Nat.mul_add_mod', Nat.mod_eq_of_lt hk, Nat.mod_eq_of_lt hk', Nat.add_mod, Nat.mul_mod] using this
  subst e1
  have h1 : s.toNat * c.NUM_FRAMES + r = s'.toNat * c.NUM_FRAMES + r' :=
    Nat.eq_of_mul_eq_mul_right (by omega) (Nat.add_right_cancel h)
  have e2 : s.toNat = s'.toNat := by
    cases s <;> cases s' <;> simp at h1 ⊢ <;> omega
  have e3 : s = s' := by cases s <;> cases s' <;> simp_all
  subst e3
  exact ⟨rfl, by omega, rfl⟩

theorem matAddr_lt {c : Config} {s : Bool} {r k : Nat} (hr : r < c.NUM_FRAMES) (hk : k < c.NCEPS) :
    matAddr c s r k < 2 * c.NUM_FRAMES * c.NCEPS := by
  unfold matAddr
  have h1 : s.toNat * c.NUM_FRAMES + r + 1 ≤ 2 * c.NUM_FRAMES := by cases s <;> simp <;> omega
  calc (s.toNat * c.NUM_FRAMES + r) * c.NCEPS + k < (s.toNat * c.NUM_FRAMES + r) * c.NCEPS + c.NCEPS := by omega
    _ = (s.toNat * c.NUM_FRAMES + r + 1) * c.NCEPS := by ring
    _ ≤ _ := Nat.mul_le_mul_right _ h1

theorem matAddr_add (c : Config) (s : Bool) (r k : Nat) : matAddr c s r k = matAddr c s r 0 + k := by
  simp [matAddr]

end Sys2Proof.Machine
end

