-- ==== Sys2Proof/Laws/State.lean ====
section
/-! SUPPORT. One lemma per field of State per named update of Machine/Ops.lean, true by unfolding, so that no later proof
unfolds a record update. -/

namespace Sys2Proof.Machine

variable (s : State)

@[simp] theorem State.illegal_eq (p : Port) : s.illegal p = s.respond p .illegal 0#32 := rfl

/-! A response changes the delivered responses only (R96). -/

@[simp] theorem State.respond_cfg (p : Port) (st : Status) (d : Word) : (s.respond p st d).cfg = s.cfg := rfl
@[simp] theorem State.respond_ring (p : Port) (st : Status) (d : Word) : (s.respond p st d).ring = s.ring := rfl
@[simp] theorem State.respond_readPos (p : Port) (st : Status) (d : Word) : (s.respond p st d).readPos = s.readPos := rfl
@[simp] theorem State.respond_writePos (p : Port) (st : Status) (d : Word) : (s.respond p st d).writePos = s.writePos := rfl
@[simp] theorem State.respond_strideCnt (p : Port) (st : Status) (d : Word) : (s.respond p st d).strideCnt = s.strideCnt := rfl
@[simp] theorem State.respond_frCount (p : Port) (st : Status) (d : Word) : (s.respond p st d).frCount = s.frCount := rfl
@[simp] theorem State.respond_overrunCnt (p : Port) (st : Status) (d : Word) : (s.respond p st d).overrunCnt = s.overrunCnt := rfl
@[simp] theorem State.respond_underrunCnt (p : Port) (st : Status) (d : Word) : (s.respond p st d).underrunCnt = s.underrunCnt := rfl
@[simp] theorem State.respond_clampCnt (p : Port) (st : Status) (d : Word) : (s.respond p st d).clampCnt = s.clampCnt := rfl
@[simp] theorem State.respond_stallCnt (p : Port) (st : Status) (d : Word) : (s.respond p st d).stallCnt = s.stallCnt := rfl
@[simp] theorem State.respond_pPhase (p : Port) (st : Status) (d : Word) : (s.respond p st d).pPhase = s.pPhase := rfl
@[simp] theorem State.respond_pN (p : Port) (st : Status) (d : Word) : (s.respond p st d).pN = s.pN := rfl
@[simp] theorem State.respond_pPayload (p : Port) (st : Status) (d : Word) : (s.respond p st d).pPayload = s.pPayload := rfl
@[simp] theorem State.respond_ePhase (p : Port) (st : Status) (d : Word) : (s.respond p st d).ePhase = s.ePhase := rfl
@[simp] theorem State.respond_stage (p : Port) (st : Status) (d : Word) : (s.respond p st d).stage = s.stage := rfl
@[simp] theorem State.respond_uflag (p : Port) (st : Status) (d : Word) : (s.respond p st d).uflag = s.uflag := rfl
@[simp] theorem State.respond_frame (p : Port) (st : Status) (d : Word) : (s.respond p st d).frame = s.frame := rfl
@[simp] theorem State.respond_fre (p : Port) (st : Status) (d : Word) : (s.respond p st d).fre = s.fre := rfl
@[simp] theorem State.respond_fim (p : Port) (st : Status) (d : Word) : (s.respond p st d).fim = s.fim := rfl
@[simp] theorem State.respond_power (p : Port) (st : Status) (d : Word) : (s.respond p st d).power = s.power := rfl
@[simp] theorem State.respond_melq (p : Port) (st : Status) (d : Word) : (s.respond p st d).melq = s.melq := rfl
@[simp] theorem State.respond_ceps (p : Port) (st : Status) (d : Word) : (s.respond p st d).ceps = s.ceps := rfl
@[simp] theorem State.respond_mat (p : Port) (st : Status) (d : Word) : (s.respond p st d).mat = s.mat := rfl
@[simp] theorem State.respond_activeSel (p : Port) (st : Status) (d : Word) : (s.respond p st d).activeSel = s.activeSel := rfl
@[simp] theorem State.respond_readyValid (p : Port) (st : Status) (d : Word) : (s.respond p st d).readyValid = s.readyValid := rfl
@[simp] theorem State.respond_mrSig (p : Port) (st : Status) (d : Word) : (s.respond p st d).mrSig = s.mrSig := rfl
@[simp] theorem State.respond_rowIdx (p : Port) (st : Status) (d : Word) : (s.respond p st d).rowIdx = s.rowIdx := rfl
@[simp] theorem State.respond_swapPending (p : Port) (st : Status) (d : Word) : (s.respond p st d).swapPending = s.swapPending := rfl
@[simp] theorem State.respond_rst (p : Port) (st : Status) (d : Word) : (s.respond p st d).rst = s.rst := rfl
@[simp] theorem State.respond_resets (p : Port) (st : Status) (d : Word) : (s.respond p st d).resets = s.resets := rfl
@[simp] theorem State.respond_queues (p : Port) (st : Status) (d : Word) : (s.respond p st d).queues = s.queues := rfl
@[simp] theorem State.respond_beats (p : Port) (st : Status) (d : Word) : (s.respond p st d).beats = s.beats := rfl
@[simp] theorem State.respond_schedule (p : Port) (st : Status) (d : Word) : (s.respond p st d).schedule = s.schedule := rfl
@[simp] theorem State.respond_responses (p : Port) (st : Status) (d : Word) : (s.respond p st d).responses = ⟨p, st, d⟩ :: s.responses := rfl
@[simp] theorem State.respond_unread (p : Port) (st : Status) (d : Word) : (s.respond p st d).unread = s.unread := rfl
@[simp] theorem State.respond_free (p : Port) (st : Status) (d : Word) : (s.respond p st d).free = s.free := rfl

/-! Leaving a stage that cannot saturate (R152). -/

@[simp] theorem State.advance_cfg (g : Stage) : (s.advance g).cfg = s.cfg := rfl
@[simp] theorem State.advance_ring (g : Stage) : (s.advance g).ring = s.ring := rfl
@[simp] theorem State.advance_readPos (g : Stage) : (s.advance g).readPos = s.readPos := rfl
@[simp] theorem State.advance_writePos (g : Stage) : (s.advance g).writePos = s.writePos := rfl
@[simp] theorem State.advance_strideCnt (g : Stage) : (s.advance g).strideCnt = s.strideCnt := rfl
@[simp] theorem State.advance_frCount (g : Stage) : (s.advance g).frCount = s.frCount := rfl
@[simp] theorem State.advance_overrunCnt (g : Stage) : (s.advance g).overrunCnt = s.overrunCnt := rfl
@[simp] theorem State.advance_underrunCnt (g : Stage) : (s.advance g).underrunCnt = s.underrunCnt := rfl
@[simp] theorem State.advance_clampCnt (g : Stage) : (s.advance g).clampCnt = s.clampCnt := rfl
@[simp] theorem State.advance_stallCnt (g : Stage) : (s.advance g).stallCnt = s.stallCnt := rfl
@[simp] theorem State.advance_pPhase (g : Stage) : (s.advance g).pPhase = s.pPhase := rfl
@[simp] theorem State.advance_pN (g : Stage) : (s.advance g).pN = s.pN := rfl
@[simp] theorem State.advance_pPayload (g : Stage) : (s.advance g).pPayload = s.pPayload := rfl
@[simp] theorem State.advance_ePhase (g : Stage) : (s.advance g).ePhase = s.ePhase := rfl
@[simp] theorem State.advance_stage (g : Stage) : (s.advance g).stage = g := rfl
@[simp] theorem State.advance_uflag (g : Stage) : (s.advance g).uflag = s.uflag := rfl
@[simp] theorem State.advance_frame (g : Stage) : (s.advance g).frame = s.frame := rfl
@[simp] theorem State.advance_fre (g : Stage) : (s.advance g).fre = s.fre := rfl
@[simp] theorem State.advance_fim (g : Stage) : (s.advance g).fim = s.fim := rfl
@[simp] theorem State.advance_power (g : Stage) : (s.advance g).power = s.power := rfl
@[simp] theorem State.advance_melq (g : Stage) : (s.advance g).melq = s.melq := rfl
@[simp] theorem State.advance_ceps (g : Stage) : (s.advance g).ceps = s.ceps := rfl
@[simp] theorem State.advance_mat (g : Stage) : (s.advance g).mat = s.mat := rfl
@[simp] theorem State.advance_activeSel (g : Stage) : (s.advance g).activeSel = s.activeSel := rfl
@[simp] theorem State.advance_readyValid (g : Stage) : (s.advance g).readyValid = s.readyValid := rfl
@[simp] theorem State.advance_mrSig (g : Stage) : (s.advance g).mrSig = s.mrSig := rfl
@[simp] theorem State.advance_rowIdx (g : Stage) : (s.advance g).rowIdx = s.rowIdx := rfl
@[simp] theorem State.advance_swapPending (g : Stage) : (s.advance g).swapPending = s.swapPending := rfl
@[simp] theorem State.advance_rst (g : Stage) : (s.advance g).rst = s.rst := rfl
@[simp] theorem State.advance_resets (g : Stage) : (s.advance g).resets = s.resets := rfl
@[simp] theorem State.advance_queues (g : Stage) : (s.advance g).queues = s.queues := rfl
@[simp] theorem State.advance_beats (g : Stage) : (s.advance g).beats = s.beats := rfl
@[simp] theorem State.advance_schedule (g : Stage) : (s.advance g).schedule = s.schedule := rfl
@[simp] theorem State.advance_responses (g : Stage) : (s.advance g).responses = ⟨.E, .ok, g.word⟩ :: s.responses := rfl
@[simp] theorem State.advance_unread (g : Stage) : (s.advance g).unread = s.unread := rfl
@[simp] theorem State.advance_free (g : Stage) : (s.advance g).free = s.free := rfl

/-! Leaving an arithmetic stage (R159). -/

@[simp] theorem State.finish_cfg (g : Stage) (k : Nat) : (s.finish g k).cfg = s.cfg := rfl
@[simp] theorem State.finish_ring (g : Stage) (k : Nat) : (s.finish g k).ring = s.ring := rfl
@[simp] theorem State.finish_readPos (g : Stage) (k : Nat) : (s.finish g k).readPos = s.readPos := rfl
@[simp] theorem State.finish_writePos (g : Stage) (k : Nat) : (s.finish g k).writePos = s.writePos := rfl
@[simp] theorem State.finish_strideCnt (g : Stage) (k : Nat) : (s.finish g k).strideCnt = s.strideCnt := rfl
@[simp] theorem State.finish_frCount (g : Stage) (k : Nat) : (s.finish g k).frCount = s.frCount := rfl
@[simp] theorem State.finish_overrunCnt (g : Stage) (k : Nat) : (s.finish g k).overrunCnt = s.overrunCnt := rfl
@[simp] theorem State.finish_underrunCnt (g : Stage) (k : Nat) : (s.finish g k).underrunCnt = s.underrunCnt := rfl
@[simp] theorem State.finish_clampCnt (g : Stage) (k : Nat) : (s.finish g k).clampCnt = satAdd s.clampCnt k := rfl
@[simp] theorem State.finish_stallCnt (g : Stage) (k : Nat) : (s.finish g k).stallCnt = s.stallCnt := rfl
@[simp] theorem State.finish_pPhase (g : Stage) (k : Nat) : (s.finish g k).pPhase = s.pPhase := rfl
@[simp] theorem State.finish_pN (g : Stage) (k : Nat) : (s.finish g k).pN = s.pN := rfl
@[simp] theorem State.finish_pPayload (g : Stage) (k : Nat) : (s.finish g k).pPayload = s.pPayload := rfl
@[simp] theorem State.finish_ePhase (g : Stage) (k : Nat) : (s.finish g k).ePhase = s.ePhase := rfl
@[simp] theorem State.finish_stage (g : Stage) (k : Nat) : (s.finish g k).stage = g := rfl
@[simp] theorem State.finish_uflag (g : Stage) (k : Nat) : (s.finish g k).uflag = s.uflag := rfl
@[simp] theorem State.finish_frame (g : Stage) (k : Nat) : (s.finish g k).frame = s.frame := rfl
@[simp] theorem State.finish_fre (g : Stage) (k : Nat) : (s.finish g k).fre = s.fre := rfl
@[simp] theorem State.finish_fim (g : Stage) (k : Nat) : (s.finish g k).fim = s.fim := rfl
@[simp] theorem State.finish_power (g : Stage) (k : Nat) : (s.finish g k).power = s.power := rfl
@[simp] theorem State.finish_melq (g : Stage) (k : Nat) : (s.finish g k).melq = s.melq := rfl
@[simp] theorem State.finish_ceps (g : Stage) (k : Nat) : (s.finish g k).ceps = s.ceps := rfl
@[simp] theorem State.finish_mat (g : Stage) (k : Nat) : (s.finish g k).mat = s.mat := rfl
@[simp] theorem State.finish_activeSel (g : Stage) (k : Nat) : (s.finish g k).activeSel = s.activeSel := rfl
@[simp] theorem State.finish_readyValid (g : Stage) (k : Nat) : (s.finish g k).readyValid = s.readyValid := rfl
@[simp] theorem State.finish_mrSig (g : Stage) (k : Nat) : (s.finish g k).mrSig = s.mrSig := rfl
@[simp] theorem State.finish_rowIdx (g : Stage) (k : Nat) : (s.finish g k).rowIdx = s.rowIdx := rfl
@[simp] theorem State.finish_swapPending (g : Stage) (k : Nat) : (s.finish g k).swapPending = s.swapPending := rfl
@[simp] theorem State.finish_rst (g : Stage) (k : Nat) : (s.finish g k).rst = s.rst := rfl
@[simp] theorem State.finish_resets (g : Stage) (k : Nat) : (s.finish g k).resets = s.resets := rfl
@[simp] theorem State.finish_queues (g : Stage) (k : Nat) : (s.finish g k).queues = s.queues := rfl
@[simp] theorem State.finish_beats (g : Stage) (k : Nat) : (s.finish g k).beats = s.beats := rfl
@[simp] theorem State.finish_schedule (g : Stage) (k : Nat) : (s.finish g k).schedule = s.schedule := rfl
@[simp] theorem State.finish_responses (g : Stage) (k : Nat) : (s.finish g k).responses = ⟨.E, stageStatus k, g.word⟩ :: s.responses := rfl
@[simp] theorem State.finish_unread (g : Stage) (k : Nat) : (s.finish g k).unread = s.unread := rfl
@[simp] theorem State.finish_free (g : Stage) (k : Nat) : (s.finish g k).free = s.free := rfl

/-! The swap (R236). -/

@[simp] theorem State.swap_cfg : s.swap.cfg = s.cfg := rfl
@[simp] theorem State.swap_ring : s.swap.ring = s.ring := rfl
@[simp] theorem State.swap_readPos : s.swap.readPos = s.readPos := rfl
@[simp] theorem State.swap_writePos : s.swap.writePos = s.writePos := rfl
@[simp] theorem State.swap_strideCnt : s.swap.strideCnt = s.strideCnt := rfl
@[simp] theorem State.swap_frCount : s.swap.frCount = s.frCount := rfl
@[simp] theorem State.swap_overrunCnt : s.swap.overrunCnt = s.overrunCnt := rfl
@[simp] theorem State.swap_underrunCnt : s.swap.underrunCnt = s.underrunCnt := rfl
@[simp] theorem State.swap_clampCnt : s.swap.clampCnt = s.clampCnt := rfl
@[simp] theorem State.swap_stallCnt : s.swap.stallCnt = s.stallCnt := rfl
@[simp] theorem State.swap_pPhase : s.swap.pPhase = s.pPhase := rfl
@[simp] theorem State.swap_pN : s.swap.pN = s.pN := rfl
@[simp] theorem State.swap_pPayload : s.swap.pPayload = s.pPayload := rfl
@[simp] theorem State.swap_ePhase : s.swap.ePhase = s.ePhase := rfl
@[simp] theorem State.swap_stage : s.swap.stage = s.stage := rfl
@[simp] theorem State.swap_uflag : s.swap.uflag = s.uflag := rfl
@[simp] theorem State.swap_frame : s.swap.frame = s.frame := rfl
@[simp] theorem State.swap_fre : s.swap.fre = s.fre := rfl
@[simp] theorem State.swap_fim : s.swap.fim = s.fim := rfl
@[simp] theorem State.swap_power : s.swap.power = s.power := rfl
@[simp] theorem State.swap_melq : s.swap.melq = s.melq := rfl
@[simp] theorem State.swap_ceps : s.swap.ceps = s.ceps := rfl
@[simp] theorem State.swap_mat : s.swap.mat = s.mat := rfl
@[simp] theorem State.swap_activeSel : s.swap.activeSel = !s.activeSel := rfl
@[simp] theorem State.swap_readyValid : s.swap.readyValid = true := rfl
@[simp] theorem State.swap_mrSig : s.swap.mrSig = true := rfl
@[simp] theorem State.swap_rowIdx : s.swap.rowIdx = 0#13 := rfl
@[simp] theorem State.swap_swapPending : s.swap.swapPending = s.swapPending := rfl
@[simp] theorem State.swap_rst : s.swap.rst = s.rst := rfl
@[simp] theorem State.swap_resets : s.swap.resets = s.resets := rfl
@[simp] theorem State.swap_queues : s.swap.queues = s.queues := rfl
@[simp] theorem State.swap_beats : s.swap.beats = s.beats := rfl
@[simp] theorem State.swap_schedule : s.swap.schedule = s.schedule := rfl
@[simp] theorem State.swap_responses : s.swap.responses = s.responses := rfl
@[simp] theorem State.swap_unread : s.swap.unread = s.unread := rfl
@[simp] theorem State.swap_free : s.swap.free = s.free := rfl

/-! The row store (R233). -/

@[simp] theorem State.storeRow_cfg : s.storeRow.cfg = s.cfg := rfl
@[simp] theorem State.storeRow_ring : s.storeRow.ring = s.ring := rfl
@[simp] theorem State.storeRow_readPos : s.storeRow.readPos = s.readPos := rfl
@[simp] theorem State.storeRow_writePos : s.storeRow.writePos = s.writePos := rfl
@[simp] theorem State.storeRow_strideCnt : s.storeRow.strideCnt = s.strideCnt := rfl
@[simp] theorem State.storeRow_frCount : s.storeRow.frCount = s.frCount := rfl
@[simp] theorem State.storeRow_overrunCnt : s.storeRow.overrunCnt = s.overrunCnt := rfl
@[simp] theorem State.storeRow_underrunCnt : s.storeRow.underrunCnt = s.underrunCnt := rfl
@[simp] theorem State.storeRow_clampCnt : s.storeRow.clampCnt = s.clampCnt := rfl
@[simp] theorem State.storeRow_stallCnt : s.storeRow.stallCnt = s.stallCnt := rfl
@[simp] theorem State.storeRow_pPhase : s.storeRow.pPhase = s.pPhase := rfl
@[simp] theorem State.storeRow_pN : s.storeRow.pN = s.pN := rfl
@[simp] theorem State.storeRow_pPayload : s.storeRow.pPayload = s.pPayload := rfl
@[simp] theorem State.storeRow_ePhase : s.storeRow.ePhase = s.ePhase := rfl
@[simp] theorem State.storeRow_stage : s.storeRow.stage = s.stage := rfl
@[simp] theorem State.storeRow_uflag : s.storeRow.uflag = s.uflag := rfl
@[simp] theorem State.storeRow_frame : s.storeRow.frame = s.frame := rfl
@[simp] theorem State.storeRow_fre : s.storeRow.fre = s.fre := rfl
@[simp] theorem State.storeRow_fim : s.storeRow.fim = s.fim := rfl
@[simp] theorem State.storeRow_power : s.storeRow.power = s.power := rfl
@[simp] theorem State.storeRow_melq : s.storeRow.melq = s.melq := rfl
@[simp] theorem State.storeRow_ceps : s.storeRow.ceps = s.ceps := rfl
@[simp] theorem State.storeRow_mat : s.storeRow.mat = rowWrite s.mat (matAddr s.cfg.val s.activeSel s.rowIdx.toNat 0) s.cepsNow := rfl
@[simp] theorem State.storeRow_activeSel : s.storeRow.activeSel = s.activeSel := rfl
@[simp] theorem State.storeRow_readyValid : s.storeRow.readyValid = s.readyValid := rfl
@[simp] theorem State.storeRow_mrSig : s.storeRow.mrSig = s.mrSig := rfl
@[simp] theorem State.storeRow_rowIdx : s.storeRow.rowIdx = s.rowIdx := rfl
@[simp] theorem State.storeRow_swapPending : s.storeRow.swapPending = s.swapPending := rfl
@[simp] theorem State.storeRow_rst : s.storeRow.rst = s.rst := rfl
@[simp] theorem State.storeRow_resets : s.storeRow.resets = s.resets := rfl
@[simp] theorem State.storeRow_queues : s.storeRow.queues = s.queues := rfl
@[simp] theorem State.storeRow_beats : s.storeRow.beats = s.beats := rfl
@[simp] theorem State.storeRow_schedule : s.storeRow.schedule = s.schedule := rfl
@[simp] theorem State.storeRow_responses : s.storeRow.responses = s.responses := rfl
@[simp] theorem State.storeRow_unread : s.storeRow.unread = s.unread := rfl
@[simp] theorem State.storeRow_free : s.storeRow.free = s.free := rfl

/-! The latch of PUSH.A (R128). -/

@[simp] theorem State.latchPush_cfg (n : BitVec 16) : (s.latchPush n).cfg = s.cfg := rfl
@[simp] theorem State.latchPush_ring (n : BitVec 16) : (s.latchPush n).ring = s.ring := rfl
@[simp] theorem State.latchPush_readPos (n : BitVec 16) : (s.latchPush n).readPos = s.readPos := rfl
@[simp] theorem State.latchPush_writePos (n : BitVec 16) : (s.latchPush n).writePos = s.writePos := rfl
@[simp] theorem State.latchPush_strideCnt (n : BitVec 16) : (s.latchPush n).strideCnt = s.strideCnt := rfl
@[simp] theorem State.latchPush_frCount (n : BitVec 16) : (s.latchPush n).frCount = s.frCount := rfl
@[simp] theorem State.latchPush_overrunCnt (n : BitVec 16) : (s.latchPush n).overrunCnt = s.overrunCnt := rfl
@[simp] theorem State.latchPush_underrunCnt (n : BitVec 16) : (s.latchPush n).underrunCnt = s.underrunCnt := rfl
@[simp] theorem State.latchPush_clampCnt (n : BitVec 16) : (s.latchPush n).clampCnt = s.clampCnt := rfl
@[simp] theorem State.latchPush_stallCnt (n : BitVec 16) : (s.latchPush n).stallCnt = s.stallCnt := rfl
@[simp] theorem State.latchPush_pPhase (n : BitVec 16) : (s.latchPush n).pPhase = s.pPhase := rfl
@[simp] theorem State.latchPush_pN (n : BitVec 16) : (s.latchPush n).pN = n := rfl
@[simp] theorem State.latchPush_pPayload (n : BitVec 16) : (s.latchPush n).pPayload = s.beats.take n.toNat := rfl
@[simp] theorem State.latchPush_ePhase (n : BitVec 16) : (s.latchPush n).ePhase = s.ePhase := rfl
@[simp] theorem State.latchPush_stage (n : BitVec 16) : (s.latchPush n).stage = s.stage := rfl
@[simp] theorem State.latchPush_uflag (n : BitVec 16) : (s.latchPush n).uflag = s.uflag := rfl
@[simp] theorem State.latchPush_frame (n : BitVec 16) : (s.latchPush n).frame = s.frame := rfl
@[simp] theorem State.latchPush_fre (n : BitVec 16) : (s.latchPush n).fre = s.fre := rfl
@[simp] theorem State.latchPush_fim (n : BitVec 16) : (s.latchPush n).fim = s.fim := rfl
@[simp] theorem State.latchPush_power (n : BitVec 16) : (s.latchPush n).power = s.power := rfl
@[simp] theorem State.latchPush_melq (n : BitVec 16) : (s.latchPush n).melq = s.melq := rfl
@[simp] theorem State.latchPush_ceps (n : BitVec 16) : (s.latchPush n).ceps = s.ceps := rfl
@[simp] theorem State.latchPush_mat (n : BitVec 16) : (s.latchPush n).mat = s.mat := rfl
@[simp] theorem State.latchPush_activeSel (n : BitVec 16) : (s.latchPush n).activeSel = s.activeSel := rfl
@[simp] theorem State.latchPush_readyValid (n : BitVec 16) : (s.latchPush n).readyValid = s.readyValid := rfl
@[simp] theorem State.latchPush_mrSig (n : BitVec 16) : (s.latchPush n).mrSig = s.mrSig := rfl
@[simp] theorem State.latchPush_rowIdx (n : BitVec 16) : (s.latchPush n).rowIdx = s.rowIdx := rfl
@[simp] theorem State.latchPush_swapPending (n : BitVec 16) : (s.latchPush n).swapPending = s.swapPending := rfl
@[simp] theorem State.latchPush_rst (n : BitVec 16) : (s.latchPush n).rst = s.rst := rfl
@[simp] theorem State.latchPush_resets (n : BitVec 16) : (s.latchPush n).resets = s.resets := rfl
@[simp] theorem State.latchPush_queues (n : BitVec 16) : (s.latchPush n).queues = s.queues := rfl
@[simp] theorem State.latchPush_beats (n : BitVec 16) : (s.latchPush n).beats = s.beats.drop n.toNat := rfl
@[simp] theorem State.latchPush_schedule (n : BitVec 16) : (s.latchPush n).schedule = s.schedule := rfl
@[simp] theorem State.latchPush_responses (n : BitVec 16) : (s.latchPush n).responses = s.responses := rfl
@[simp] theorem State.latchPush_unread (n : BitVec 16) : (s.latchPush n).unread = s.unread := rfl
@[simp] theorem State.latchPush_free (n : BitVec 16) : (s.latchPush n).free = s.free := rfl

/-! Release of reset (R300). -/

@[simp] theorem State.releaseReset_cfg : s.releaseReset.cfg = s.cfg := rfl
@[simp] theorem State.releaseReset_ring : s.releaseReset.ring = s.ring := rfl
@[simp] theorem State.releaseReset_readPos : s.releaseReset.readPos = s.readPos := rfl
@[simp] theorem State.releaseReset_writePos : s.releaseReset.writePos = s.writePos := rfl
@[simp] theorem State.releaseReset_strideCnt : s.releaseReset.strideCnt = s.strideCnt := rfl
@[simp] theorem State.releaseReset_frCount : s.releaseReset.frCount = s.frCount := rfl
@[simp] theorem State.releaseReset_overrunCnt : s.releaseReset.overrunCnt = s.overrunCnt := rfl
@[simp] theorem State.releaseReset_underrunCnt : s.releaseReset.underrunCnt = s.underrunCnt := rfl
@[simp] theorem State.releaseReset_clampCnt : s.releaseReset.clampCnt = s.clampCnt := rfl
@[simp] theorem State.releaseReset_stallCnt : s.releaseReset.stallCnt = s.stallCnt := rfl
@[simp] theorem State.releaseReset_pPhase : s.releaseReset.pPhase = s.pPhase := rfl
@[simp] theorem State.releaseReset_pN : s.releaseReset.pN = s.pN := rfl
@[simp] theorem State.releaseReset_pPayload : s.releaseReset.pPayload = s.pPayload := rfl
@[simp] theorem State.releaseReset_ePhase : s.releaseReset.ePhase = s.ePhase := rfl
@[simp] theorem State.releaseReset_stage : s.releaseReset.stage = s.stage := rfl
@[simp] theorem State.releaseReset_uflag : s.releaseReset.uflag = s.uflag := rfl
@[simp] theorem State.releaseReset_frame : s.releaseReset.frame = s.frame := rfl
@[simp] theorem State.releaseReset_fre : s.releaseReset.fre = s.fre := rfl
@[simp] theorem State.releaseReset_fim : s.releaseReset.fim = s.fim := rfl
@[simp] theorem State.releaseReset_power : s.releaseReset.power = s.power := rfl
@[simp] theorem State.releaseReset_melq : s.releaseReset.melq = s.melq := rfl
@[simp] theorem State.releaseReset_ceps : s.releaseReset.ceps = s.ceps := rfl
@[simp] theorem State.releaseReset_mat : s.releaseReset.mat = s.mat := rfl
@[simp] theorem State.releaseReset_activeSel : s.releaseReset.activeSel = s.activeSel := rfl
@[simp] theorem State.releaseReset_readyValid : s.releaseReset.readyValid = s.readyValid := rfl
@[simp] theorem State.releaseReset_mrSig : s.releaseReset.mrSig = s.mrSig := rfl
@[simp] theorem State.releaseReset_rowIdx : s.releaseReset.rowIdx = s.rowIdx := rfl
@[simp] theorem State.releaseReset_swapPending : s.releaseReset.swapPending = s.swapPending := rfl
@[simp] theorem State.releaseReset_rst : s.releaseReset.rst = false := rfl
@[simp] theorem State.releaseReset_resets : s.releaseReset.resets = s.resets := rfl
@[simp] theorem State.releaseReset_queues : s.releaseReset.queues = s.queues := rfl
@[simp] theorem State.releaseReset_beats : s.releaseReset.beats = s.beats := rfl
@[simp] theorem State.releaseReset_schedule : s.releaseReset.schedule = s.schedule := rfl
@[simp] theorem State.releaseReset_responses : s.releaseReset.responses = s.responses := rfl
@[simp] theorem State.releaseReset_unread : s.releaseReset.unread = s.unread := rfl
@[simp] theorem State.releaseReset_free : s.releaseReset.free = s.free := rfl

/-! The state under reset (R53, R300). -/

@[simp] theorem State.assertReset_cfg : s.assertReset.cfg = s.cfg := rfl
@[simp] theorem State.assertReset_ring : s.assertReset.ring = [] := rfl
@[simp] theorem State.assertReset_readPos : s.assertReset.readPos = 0 := rfl
@[simp] theorem State.assertReset_writePos : s.assertReset.writePos = 0 := rfl
@[simp] theorem State.assertReset_strideCnt : s.assertReset.strideCnt = 0#17 := rfl
@[simp] theorem State.assertReset_frCount : s.assertReset.frCount = 0#16 := rfl
@[simp] theorem State.assertReset_overrunCnt : s.assertReset.overrunCnt = 0#32 := rfl
@[simp] theorem State.assertReset_underrunCnt : s.assertReset.underrunCnt = 0#32 := rfl
@[simp] theorem State.assertReset_clampCnt : s.assertReset.clampCnt = 0#32 := rfl
@[simp] theorem State.assertReset_stallCnt : s.assertReset.stallCnt = 0#32 := rfl
@[simp] theorem State.assertReset_pPhase : s.assertReset.pPhase = .idle := rfl
@[simp] theorem State.assertReset_pN : s.assertReset.pN = 0#16 := rfl
@[simp] theorem State.assertReset_pPayload : s.assertReset.pPayload = [] := rfl
@[simp] theorem State.assertReset_ePhase : s.assertReset.ePhase = .idle := rfl
@[simp] theorem State.assertReset_stage : s.assertReset.stage = .idle := rfl
@[simp] theorem State.assertReset_uflag : s.assertReset.uflag = false := rfl
@[simp] theorem State.assertReset_frame : s.assertReset.frame = [] := rfl
@[simp] theorem State.assertReset_fre : s.assertReset.fre = [] := rfl
@[simp] theorem State.assertReset_fim : s.assertReset.fim = [] := rfl
@[simp] theorem State.assertReset_power : s.assertReset.power = [] := rfl
@[simp] theorem State.assertReset_melq : s.assertReset.melq = [] := rfl
@[simp] theorem State.assertReset_ceps : s.assertReset.ceps = [] := rfl
@[simp] theorem State.assertReset_mat : s.assertReset.mat = [] := rfl
@[simp] theorem State.assertReset_activeSel : s.assertReset.activeSel = false := rfl
@[simp] theorem State.assertReset_readyValid : s.assertReset.readyValid = false := rfl
@[simp] theorem State.assertReset_mrSig : s.assertReset.mrSig = false := rfl
@[simp] theorem State.assertReset_rowIdx : s.assertReset.rowIdx = 0#13 := rfl
@[simp] theorem State.assertReset_swapPending : s.assertReset.swapPending = false := rfl
@[simp] theorem State.assertReset_rst : s.assertReset.rst = true := rfl
@[simp] theorem State.assertReset_resets : s.assertReset.resets = s.resets + 1 := rfl
@[simp] theorem State.assertReset_queues : s.assertReset.queues = s.queues := rfl
@[simp] theorem State.assertReset_beats : s.assertReset.beats = s.beats := rfl
@[simp] theorem State.assertReset_schedule : s.assertReset.schedule = s.schedule := rfl
@[simp] theorem State.assertReset_responses : s.assertReset.responses = s.responses := rfl

/-! Taking a command word from a queue, and the four queues. -/

@[simp] theorem CommandQueues.get_set_same (q : CommandQueues) (ws : List Word) (p : Port) :
    (q.set ws p).get p = ws := by cases p <;> rfl

theorem CommandQueues.get_set_ne (q : CommandQueues) (ws : List Word) {p p' : Port} (h : p' ≠ p) :
    (q.set ws p).get p' = q.get p' := by cases p <;> cases p' <;> first | rfl | exact absurd rfl h

theorem State.takeWord_eq_some {p : Port} {w : Word} {s' : State} :
    s.takeWord p = some (w, s') ↔
      ∃ ws, s.queues.get p = w :: ws ∧ s' = { s with queues := s.queues.set ws p } := by
  unfold State.takeWord
  split
  · next h => simp [h]
  · next v vs h => simp [h, and_assoc, eq_comm]

theorem State.takeWord_eq_none {p : Port} : s.takeWord p = none ↔ s.queues.get p = [] := by
  unfold State.takeWord
  split <;> simp_all

end Sys2Proof.Machine
end

