-- ==== Sys2Proof/Laws/Matrix.lean ====
section
/-! SUPPORT. What the shared operations of ST.STORE and ST.IDLE do, one lemma per outcome: the row store
(46_feature_matrix.md rule R233), what follows it (R235), the read check (40_ring_buffer.md rule R126), the frame copy. -/

namespace Sys2Proof.Machine

theorem cepsNow_length (s : State) : s.cepsNow.length = s.cfg.val.NCEPS := by simp [State.cepsNow]

theorem frameNow_length (s : State) : s.frameNow.length = s.cfg.val.W := by simp [State.frameNow]

/-- After the row store, element `(sel, r, k)` is the new coefficient in the stored row and what it was elsewhere (R233). -/
theorem storeRow_read (s : State) (hm : s.mat.wf) (hr : s.rowIdx.toNat < s.cfg.val.NUM_FRAMES) {sel : Bool} {r k : Nat}
    (hr' : r < s.cfg.val.NUM_FRAMES) (hk : k < s.cfg.val.NCEPS) :
    s.storeRow.mat.read (matAddr s.cfg.val sel r k) =
      if sel = s.activeSel ∧ r = s.rowIdx.toNat then some (s.cepsAt k) else s.mat.read (matAddr s.cfg.val sel r k) := by
  rw [State.storeRow_mat, rowWrite_read _ hm, cepsNow_length]
  by_cases h : sel = s.activeSel ∧ r = s.rowIdx.toNat
  · obtain ⟨rfl, rfl⟩ := h
    have := matAddr_add s.cfg.val s.activeSel s.rowIdx.toNat k
    rw [if_pos (by omega), if_pos ⟨rfl, rfl⟩, this, Nat.add_sub_cancel_left]
    simp [State.cepsNow, hk]
  · rw [if_neg h, if_neg]
    rintro ⟨h1, h2⟩
    have e := matAddr_add s.cfg.val s.activeSel s.rowIdx.toNat
      (matAddr s.cfg.val sel r k - matAddr s.cfg.val s.activeSel s.rowIdx.toNat 0)
    obtain ⟨a, b, -⟩ := matAddr_inj hr' hr hk (by omega) ((Nat.add_sub_cancel' h1).symm.trans e.symm)
    exact h ⟨a, b⟩

/-- The row store touches existing elements only (R60). -/
theorem storeRow_mem (s : State) (hr : s.rowIdx.toNat < s.cfg.val.NUM_FRAMES)
    (h : ∀ p ∈ s.mat, p.1 < 2 * s.cfg.val.NUM_FRAMES * s.cfg.val.NCEPS) :
    ∀ p ∈ s.storeRow.mat, p.1 < 2 * s.cfg.val.NUM_FRAMES * s.cfg.val.NCEPS := by
  intro p hp
  rw [State.storeRow_mat] at hp
  rcases rowWrite_mem _ hp with hp | ⟨-, h2⟩
  · exact h p hp
  · have hN := s.cfg.NCEPS_pos
    have e := matAddr_add s.cfg.val s.activeSel s.rowIdx.toNat (s.cfg.val.NCEPS - 1)
    have := matAddr_lt (c := s.cfg.val) (s := s.activeSel) (k := s.cfg.val.NCEPS - 1) hr (by omega)
    rw [cepsNow_length] at h2
    omega

variable {s : State}

/-! After the row is stored and counted (R233). -/

theorem afterRow_go (h : s.rowIdx.toNat < s.cfg.val.NUM_FRAMES) : afterRow s = s.advance .idle := if_pos h

theorem afterRow_swap (h : ¬s.rowIdx.toNat < s.cfg.val.NUM_FRAMES) (hr : s.readyValid = false) :
    afterRow s = s.swap.advance .idle := by
  rw [afterRow, if_neg h, if_pos hr]

theorem afterRow_stall (h : ¬s.rowIdx.toNat < s.cfg.val.NUM_FRAMES) (hr : s.readyValid = true) :
    afterRow s = { s with swapPending := true, stallCnt := satInc s.stallCnt }.respond .E .stall 7#32 := by
  rw [afterRow, if_neg h, if_neg (by simp [hr])]
  rfl

theorem retrySwap_swap (hr : s.readyValid = false) :
    retrySwap s = { s.swap with swapPending := false }.advance .idle := if_pos hr

theorem retrySwap_stall (hr : s.readyValid = true) : retrySwap s = s.respond .E .stall s.stage.word :=
  if_neg (by simp [hr])

/-- The three ways ST.STORE answers a next state, and when it does not (R233). -/
theorem execStStore_pending (h : s.swapPending = true) : execStStore s = .next (retrySwap s) := if_pos h

theorem execStStore_store (h : s.swapPending = false) (hr : s.rowIdx.toNat < s.cfg.val.NUM_FRAMES) :
    execStStore s = .next (afterRow { s.storeRow with rowIdx := s.rowIdx + 1#13 }) := by
  rw [execStStore, if_neg (by simp [h]), if_pos hr]

/-- Counting a row that exists does not wrap the 13-bit index (R45). -/
theorem toNat_rowIdx_succ (hr : s.rowIdx.toNat < s.cfg.val.NUM_FRAMES) : (s.rowIdx + 1#13).toNat = s.rowIdx.toNat + 1 := by
  have := s.cfg.NUM_FRAMES_le
  bv_omega

/-! Event ST.IDLE.A (R126, R155). -/

theorem readCheck_underrun (h : s.unread < s.cfg.val.W) :
    readCheck s = { s with uflag := true, underrunCnt := satInc s.underrunCnt }.respond .E .underrun s.stage.word :=
  if_pos h

theorem readCheck_admit (h : s.cfg.val.W ≤ s.unread) : readCheck s = { s with ePhase := .copy } :=
  if_neg (Nat.not_lt.mpr h)

theorem idleCheck_retry (h : s.uflag = true) : idleCheck s = readCheck s := if_pos h

theorem idleCheck_wait (h : s.uflag = false) (h0 : s.frCount = 0#16) :
    idleCheck s = s.respond .E .wait s.stage.word := by
  rw [idleCheck, if_neg (by simp [h]), if_pos h0]

theorem idleCheck_take (h : s.uflag = false) (h0 : s.frCount ≠ 0#16) :
    idleCheck s = readCheck { s with frCount := s.frCount - 1#16 } := by
  rw [idleCheck, if_neg (by simp [h]), if_neg h0]

/-! Event ST.IDLE.B (R127). -/

theorem idleCopy_next {x : List Sample} (h : ringRead s.cfg.val.C s.ring s.readPos s.cfg.val.W = .ok x) :
    idleCopy s = .next ({ s with
      frame := x
      readPos := ringAddr s.cfg.val.C s.readPos s.cfg.val.S
      ePhase := .idle
      uflag := false }.advance .preEmphasis) := by
  rw [idleCopy, h]

end Sys2Proof.Machine
end

