-- ==== Sys2Proof/Laws/PerInstr.lean ====
section
/-! SUPPORT. What holds of every instruction as syntax, one lemma per constructor: its encoding matches its own row of the
opcode table (30_encoding.md rules R92, R93) and carries every operand field (R91, R95). -/

namespace Sys2Proof.Laws.MatchesRow

/-- The encoding of an instruction is a command word that matches the row of its opcode on its port and holds its operands,
or the stage code that selects it. -/
def Statement (i : Instr) : Prop :=
  match encode i with
  | .command p w => ∃ o : Opcode, o.port = p ∧ opcodeOf w = some o ∧ w &&& o.mask = o.matchBits ∧ o.instr w = i
  | .stage c => decodeStage c = i


theorem push (n : BitVec 16) : Statement (.push n) := by
  refine ⟨.push, rfl, ?_, ?_, ?_⟩
  · have : (0x0100#16 ++ n).extractLsb' 24 8 = 0x01#8 := by
      apply BitVec.eq_of_getLsbD_eq
      intro i hi
      have : ¬24 + i < 16 := by omega
      simp only [BitVec.getLsbD_extractLsb', hi, decide_true, Bool.true_and, BitVec.getLsbD_append, this, if_false]
      interval_cases i <;> rfl
    rw [opcodeOf, this]
    rfl
  · apply BitVec.eq_of_getLsbD_eq
    intro i hi
    simp only [BitVec.getLsbD_and, BitVec.getLsbD_append]
    by_cases h : i < 16
    · have : (Opcode.push.mask).getLsbD i = false := by interval_cases i <;> rfl
      rw [this, Bool.and_false]
      interval_cases i <;> rfl
    · rw [if_neg h]
      interval_cases i <;> rfl
  · have : (0x0100#16 ++ n).extractLsb' 0 16 = n := by
      apply BitVec.eq_of_getLsbD_eq
      intro i hi
      simp only [BitVec.getLsbD_extractLsb', hi, decide_true, Bool.true_and, BitVec.getLsbD_append, Nat.zero_add, if_true]
    simp only [Opcode.instr, this]

theorem step : Statement .step := ⟨.step, rfl, rfl, rfl, rfl⟩

theorem avail : Statement .avail := ⟨.avail, rfl, rfl, rfl, rfl⟩

theorem rdcsr (a : BitVec 8) : Statement (.rdcsr a) := by
  refine ⟨.rdcsr, rfl, ?_, ?_, ?_⟩
  · have : (0x040000#24 ++ a).extractLsb' 24 8 = 0x04#8 := by
      apply BitVec.eq_of_getLsbD_eq
      intro i hi
      have : ¬24 + i < 8 := by omega
      simp only [BitVec.getLsbD_extractLsb', hi, decide_true, Bool.true_and, BitVec.getLsbD_append, this, if_false]
      interval_cases i <;> rfl
    rw [opcodeOf, this]
    rfl
  · apply BitVec.eq_of_getLsbD_eq
    intro i hi
    simp only [BitVec.getLsbD_and, BitVec.getLsbD_append]
    by_cases h : i < 8
    · have : (Opcode.rdcsr.mask).getLsbD i = false := by interval_cases i <;> rfl
      rw [this, Bool.and_false]
      interval_cases i <;> rfl
    · rw [if_neg h]
      interval_cases i <;> rfl
  · have : (0x040000#24 ++ a).extractLsb' 0 8 = a := by
      apply BitVec.eq_of_getLsbD_eq
      intro i hi
      simp only [BitVec.getLsbD_extractLsb', hi, decide_true, Bool.true_and, BitVec.getLsbD_append, Nat.zero_add, if_true]
    simp only [Opcode.instr, this]

theorem mtake : Statement .mtake := ⟨.mtake, rfl, rfl, rfl, rfl⟩

theorem mread (r c : BitVec 12) : Statement (.mread r c) := by
  refine ⟨.mread, rfl, ?_, ?_, ?_⟩
  · have : (0x06#8 ++ r ++ c).extractLsb' 24 8 = 0x06#8 := by
      apply BitVec.eq_of_getLsbD_eq
      intro i hi
      have h1 : ¬24 + i < 12 := by omega
      have h2 : ¬24 + i - 12 < 12 := by omega
      simp only [BitVec.getLsbD_extractLsb', hi, decide_true, Bool.true_and, BitVec.getLsbD_append, h1, h2, if_false]
      interval_cases i <;> rfl
    rw [opcodeOf, this]
    rfl
  · apply BitVec.eq_of_getLsbD_eq
    intro i hi
    simp only [BitVec.getLsbD_and, BitVec.getLsbD_append]
    by_cases h : i < 24
    · have : (Opcode.mread.mask).getLsbD i = false := by interval_cases i <;> rfl
      rw [this, Bool.and_false]
      interval_cases i <;> rfl
    · rw [if_neg (show ¬i < 12 by omega), if_neg (show ¬i - 12 < 12 by omega)]
      interval_cases i <;> rfl
  · have e1 : (0x06#8 ++ r ++ c).extractLsb' 12 12 = r := by
      apply BitVec.eq_of_getLsbD_eq
      intro i hi
      have h1 : ¬12 + i < 12 := by omega
      simp only [BitVec.getLsbD_extractLsb', hi, decide_true, Bool.true_and, BitVec.getLsbD_append, h1, if_false,
        if_true, Nat.add_sub_cancel_left]
    have e2 : (0x06#8 ++ r ++ c).extractLsb' 0 12 = c := by
      apply BitVec.eq_of_getLsbD_eq
      intro i hi
      simp only [BitVec.getLsbD_extractLsb', hi, decide_true, Bool.true_and, BitVec.getLsbD_append, Nat.zero_add, if_true]
    simp only [Opcode.instr, e1, e2]

theorem release : Statement .release := ⟨.release, rfl, rfl, rfl, rfl⟩

theorem stIdle : Statement .stIdle := rfl

theorem stPreemph : Statement .stPreemph := rfl

theorem stWindow : Statement .stWindow := rfl

theorem stFft : Statement .stFft := rfl

theorem stPower : Statement .stPower := rfl

theorem stMel : Statement .stMel := rfl

theorem stDct : Statement .stDct := rfl

theorem stStore : Statement .stStore := rfl

end Sys2Proof.Laws.MatchesRow
end

