-- ==== Sys2Proof/Laws/Ring.lean ====
section
/-! SUPPORT. The ring's shared operations: the unread count over the integers (00_scope.md rule R15), the accounting loop in
closed form (40_ring_buffer.md rule R125), and what a port inside a command runs next. -/

namespace Sys2Proof.Machine

theorem State.unread_lt (s : State) : s.unread < s.cfg.val.C := unreadCount_lt s.cfg.C_pos _ _

theorem State.unreadMod_eq (s : State) : s.unreadMod = s.unread := by
  have h : s.readPos % s.cfg.val.C < s.cfg.val.C := Nat.mod_lt _ s.cfg.C_pos
  unfold State.unreadMod State.unread unreadCount
  push_cast [Nat.cast_sub (show s.readPos % s.cfg.val.C ≤ s.writePos + s.cfg.val.C by omega)]
  rw [show (s.writePos : Int) + s.cfg.val.C - (s.readPos % s.cfg.val.C : Int) =
      (s.writePos : Int) - (s.readPos % s.cfg.val.C : Int) + s.cfg.val.C by ring, Int.add_emod_right,
    Int.sub_emod_emod]

theorem State.free_eq (s : State) : s.free = s.cfg.val.C - 1 - s.unread := rfl

/-- The loop of R125 in closed form: the remainder, and one token per whole stride. -/
theorem strideLoop_eq {S : Nat} (hS : 0 < S) (fuel x fr : Nat) (hx : x ≤ fuel) (hf : fr ≤ 65535) :
    strideLoop S fuel (x, fr) = (x % S, min (fr + x / S) 65535) := by
  induction fuel generalizing x fr with
  | zero =>
    obtain rfl : x = 0 := by omega
    simp [strideLoop, hf]
  | succ n ih =>
    rw [strideLoop]
    split
    · next h =>
      rw [ih _ _ (by omega) (by omega), ← Nat.mod_eq_sub_mod h, Nat.div_eq x S, if_pos ⟨hS, h⟩]
      generalize (x - S) / S = q
      congr 1
      omega
    · next h => rw [Nat.mod_eq_of_lt (by omega), Nat.div_eq_of_lt (by omega), Nat.add_zero, Nat.min_eq_left hf]

theorem strideTokens_snd_lt {S : Nat} (hS : 0 < S) (stride n : Nat) : (strideTokens S stride n).2 < S :=
  Nat.mod_lt _ hS

theorem strideTokens_total (S stride n : Nat) :
    (strideTokens S stride n).1 * S + (strideTokens S stride n).2 = stride + n := by
  rw [Nat.mul_comm]
  exact Nat.div_add_mod _ _

/-- A stride counter below `S` fits its 17 bits. -/
theorem toNat_strideCnt (c : WfConfig) (stride n : Nat) :
    (BitVec.ofNat 17 (strideTokens c.val.S stride n).2).toNat = (strideTokens c.val.S stride n).2 := by
  have := strideTokens_snd_lt c.S_pos stride n
  have := c.S_lt_W
  have := c.W_lt_C
  have := c.C_le
  rw [BitVec.toNat_ofNat, Nat.mod_eq_of_lt (by omega)]

/-- A saturated token count fits its 16 bits. -/
theorem toNat_frCount (x : Nat) : (BitVec.ofNat 16 (min x 65535)).toNat = min x 65535 := by
  have := Nat.min_le_right x 65535
  rw [BitVec.toNat_ofNat, Nat.mod_eq_of_lt (by omega)]

theorem toNat_takeToken {c : BitVec 16} (h : c ≠ 0#16) : (c - 1#16).toNat = c.toNat - 1 := by
  have : c.toNat ≠ 0 := fun e => h (BitVec.eq_of_toNat_eq e)
  bv_omega

/-- A port has no event left exactly when nothing is in flight on it. -/
theorem State.eventsLeft_eq_zero (s : State) (p : Port) : s.eventsLeft p = 0 ↔ s.inFlight p = none := by
  unfold State.eventsLeft State.inFlight
  cases p <;> simp only
  · cases s.pPhase <;> simp
  · cases s.ePhase <;> simp

/-- An unread window of `W` samples or more covers the frame (R126). -/
theorem State.Inv.window_written {s : State} (h : s.Inv) (hw : s.cfg.val.W ≤ s.unread) :
    ∀ k < s.cfg.val.W, (s.ring.read (ringAddr s.cfg.val.C s.readPos k)).isSome = true :=
  fun k hk => h.unread_written k (Nat.lt_of_lt_of_le hk hw)

end Sys2Proof.Machine
end

