-- ==== Sys2Proof/Laws/Stages.lean ====
section
/-! SUPPORT. The stages' shared loops, one spec lemma each: the in-place filter (42_preemph_window.md rules R173, R174), bit
reversal (43_fft.md rule R188), and a list of butterflies on disjoint pairs (R190, R191). -/

namespace Sys2Proof.Machine

/-! Pre-emphasis. -/

/-- The unsaturated filter output at `i + 1` for an input frame (R171). -/
def preemphValue (alpha : Int) (x : List Sample) (i : Nat) : Int :=
  (x.getD (i + 1) 0#16).toInt - asr (alpha * (x.getD i 0#16).toInt) 15

/-- The in-place loop from `top` down computes each output from the inputs it has not reached yet (R174). -/
theorem preemphLoop_spec (alpha : Int) (top : Nat) (x : List Sample) (k : Nat) (h : top < x.length) :
    (preemphLoop alpha top x k).1.length = x.length ∧
    (∀ i, (preemphLoop alpha top x k).1[i]? =
      if 0 < i ∧ i ≤ top then some (toSample (clamp16 (preemphValue alpha x (i - 1)))) else x[i]?) ∧
    (preemphLoop alpha top x k).2 =
      k + ((List.range top).map fun i => clamps16 (preemphValue alpha x i)).sum := by
  induction top generalizing x k with
  | zero => simp [preemphLoop]; intro i h1 h2; omega
  | succ n ih =>
    rw [preemphLoop]
    have hval : ∀ i < n, ∀ v, preemphValue alpha (x.set (n + 1) v) i = preemphValue alpha x i := by
      intro i hi v
      simp only [preemphValue, List.getD_eq_getElem?_getD]
      rw [List.getElem?_set_ne (by omega), List.getElem?_set_ne (by omega)]
    obtain ⟨h1, h2, h3⟩ := ih (x.set (n + 1) (toSample (clamp16 (preemphValue alpha x n))))
      (k + clamps16 (preemphValue alpha x n)) (by rw [List.length_set]; omega)
    refine ⟨by rw [← List.length_set (as := x)]; exact h1, fun i => ?_, ?_⟩
    · refine (h2 i).trans ?_
      by_cases hi : 0 < i ∧ i ≤ n
      · rw [if_pos hi, if_pos ⟨hi.1, by omega⟩, hval _ (by omega)]
      · rw [if_neg hi]
        by_cases hn : i = n + 1
        · subst hn
          rw [if_pos ⟨by omega, Nat.le_refl _⟩, List.getElem?_set_self (by omega), Nat.add_sub_cancel]
        · rw [if_neg (by omega), List.getElem?_set_ne (by omega)]
    · refine h3.trans ?_
      rw [List.range_succ, List.map_append, List.sum_append, List.map_congr_left (fun i hi => by
        rw [hval i (List.mem_range.mp hi)])]
      simp
      omega

/-! Bit reversal. -/

theorem bitrev_lt (L i : Nat) : bitrev L i < 2 ^ L := by
  induction L generalizing i with
  | zero => simp [bitrev]
  | succ L ih =>
    have := ih (i / 2)
    have : i % 2 < 2 := Nat.mod_lt _ (by decide)
    rw [bitrev, Nat.pow_succ]
    rcases (by omega : i % 2 = 0 ∨ i % 2 = 1) with h | h <;> rw [h] <;> omega

/-- Bit `b` goes to place `L - 1 - b` (R188). -/
theorem testBit_bitrev {L b : Nat} (i : Nat) (h : b < L) : (bitrev L i).testBit (L - 1 - b) = i.testBit b := by
  induction L generalizing i b with
  | zero => omega
  | succ L ih =>
    have hlt := bitrev_lt L (i / 2)
    rw [bitrev, Nat.mul_comm]
    cases b with
    | zero =>
      rw [show L + 1 - 1 - 0 = L by omega, Nat.testBit_two_pow_mul_add _ hlt]
      simp [Nat.testBit_zero]
    | succ b =>
      rw [Nat.testBit_two_pow_mul_add _ hlt, if_pos (by omega), show L + 1 - 1 - (b + 1) = L - 1 - b by omega,
        ih (i / 2) (by omega), Nat.testBit_succ]

theorem bitrev_bitrev {L i : Nat} (h : i < 2 ^ L) : bitrev L (bitrev L i) = i := by
  apply Nat.eq_of_testBit_eq
  intro b
  by_cases hb : b < L
  · have h1 := testBit_bitrev (bitrev L i) (show L - 1 - b < L by omega)
    rw [show L - 1 - (L - 1 - b) = b by omega, testBit_bitrev i hb] at h1
    exact h1
  · have hp : 2 ^ L ≤ 2 ^ b := Nat.pow_le_pow_right (by decide) (by omega)
    rw [Nat.testBit_lt_two_pow (Nat.lt_of_lt_of_le (bitrev_lt _ _) hp),
      Nat.testBit_lt_two_pow (Nat.lt_of_lt_of_le h hp)]

/-! The transform. -/

theorem fftLoad_length (c : Config) (x : Nat → Int) :
    (fftLoad c x).1.length = c.NFFT ∧ (fftLoad c x).2.length = c.NFFT := by simp [fftLoad]

/-- What one butterfly leaves at index `i` (R191). -/
theorem butterfly_getElem? (c : Config) (j a b : Nat) (z : Spectrum) (ha : a < z.1.length)
    (hb : b < z.1.length) (hl : z.2.length = z.1.length) (i : Nat) :
    (butterfly c j a b z).1[i]? =
      (if i = b then
        some (z.1.getD a 0 - (twiddleProduct (tableAt c.TW_RE j) (tableAt c.TW_IM j) (z.1.getD b 0) (z.2.getD b 0)).1)
      else if i = a then
        some (z.1.getD a 0 + (twiddleProduct (tableAt c.TW_RE j) (tableAt c.TW_IM j) (z.1.getD b 0) (z.2.getD b 0)).1)
      else z.1[i]?) ∧
    (butterfly c j a b z).2[i]? =
      (if i = b then
        some (z.2.getD a 0 - (twiddleProduct (tableAt c.TW_RE j) (tableAt c.TW_IM j) (z.1.getD b 0) (z.2.getD b 0)).2)
      else if i = a then
        some (z.2.getD a 0 + (twiddleProduct (tableAt c.TW_RE j) (tableAt c.TW_IM j) (z.1.getD b 0) (z.2.getD b 0)).2)
      else z.2[i]?) := by
  unfold butterfly
  constructor
  · rw [List.getElem?_set, List.length_set]
    by_cases h : b = i
    · subst h; simp [hb]
    · rw [if_neg h, List.getElem?_set, if_neg (Ne.symm h)]
      by_cases h' : a = i
      · subst h'; simp [ha]
      · rw [if_neg h', if_neg (Ne.symm h')]
  · rw [List.getElem?_set, List.length_set]
    by_cases h : b = i
    · subst h; simp [hl, hb]
    · rw [if_neg h, List.getElem?_set, if_neg (Ne.symm h)]
      by_cases h' : a = i
      · subst h'; simp [hl, ha]
      · rw [if_neg h', if_neg (Ne.symm h')]

theorem butterfly_length (c : Config) (j a b : Nat) (z : Spectrum) :
    (butterfly c j a b z).1.length = z.1.length ∧ (butterfly c j a b z).2.length = z.2.length := by
  simp [butterfly]

/-- The butterflies `(j, a, b)` of a list, in order. -/
def butterflies (c : Config) (l : List (Nat × Nat × Nat)) (z : Spectrum) : Spectrum :=
  l.foldl (fun z x => butterfly c x.1 x.2.1 x.2.2 z) z

/-- Two butterflies touch no common element (R190). -/
def Apart (x y : Nat × Nat × Nat) : Prop := x.2.1 ≠ y.2.1 ∧ x.2.1 ≠ y.2.2 ∧ x.2.2 ≠ y.2.1 ∧ x.2.2 ≠ y.2.2

theorem butterflies_length (c : Config) (l : List (Nat × Nat × Nat)) (z : Spectrum) :
    (butterflies c l z).1.length = z.1.length ∧ (butterflies c l z).2.length = z.2.length := by
  induction l generalizing z with
  | nil => exact ⟨rfl, rfl⟩
  | cons x l ih =>
    obtain ⟨h1, h2⟩ := butterfly_length c x.1 x.2.1 x.2.2 z
    exact ⟨(ih _).1.trans h1, (ih _).2.trans h2⟩

/-- An element no butterfly of the list touches keeps its value. -/
theorem butterflies_other (c : Config) (l : List (Nat × Nat × Nat)) (z : Spectrum) (i : Nat)
    (hl : z.2.length = z.1.length) (hb : ∀ x ∈ l, x.2.1 < z.1.length ∧ x.2.2 < z.1.length)
    (h : ∀ x ∈ l, i ≠ x.2.1 ∧ i ≠ x.2.2) :
    (butterflies c l z).1[i]? = z.1[i]? ∧ (butterflies c l z).2[i]? = z.2[i]? := by
  induction l generalizing z with
  | nil => exact ⟨rfl, rfl⟩
  | cons x l ih =>
    obtain ⟨e1, e2⟩ := butterfly_length c x.1 x.2.1 x.2.2 z
    obtain ⟨hx1, hx2⟩ := hb x (by simp)
    obtain ⟨h1, h2⟩ := ih (butterfly c x.1 x.2.1 x.2.2 z) (by omega)
      (fun y hy => by rw [e1]; exact hb y (List.mem_cons_of_mem _ hy)) fun y hy => h y (List.mem_cons_of_mem _ hy)
    obtain ⟨f1, f2⟩ := butterfly_getElem? c x.1 x.2.1 x.2.2 z hx1 hx2 hl i
    obtain ⟨n1, n2⟩ := h x (by simp)
    rw [if_neg n2, if_neg n1] at f1 f2
    exact ⟨h1.trans f1, h2.trans f2⟩

/-- With butterflies on disjoint pairs, each one works on the values from before the list (R190: "their order does not
matter"). -/
theorem butterflies_at (c : Config) (l : List (Nat × Nat × Nat)) (z : Spectrum) (hl : z.2.length = z.1.length)
    (hb : ∀ x ∈ l, x.2.1 < z.1.length ∧ x.2.2 < z.1.length ∧ x.2.1 ≠ x.2.2) (hd : l.Pairwise Apart)
    {j a b : Nat} (hx : (j, a, b) ∈ l) :
    (butterflies c l z).1[a]? = (butterfly c j a b z).1[a]? ∧ (butterflies c l z).2[a]? = (butterfly c j a b z).2[a]? ∧
    (butterflies c l z).1[b]? = (butterfly c j a b z).1[b]? ∧ (butterflies c l z).2[b]? = (butterfly c j a b z).2[b]? := by
  induction l generalizing z with
  | nil => simp at hx
  | cons x l ih =>
    obtain ⟨e1, e2⟩ := butterfly_length c x.1 x.2.1 x.2.2 z
    obtain ⟨hx1, hx2, hx3⟩ := hb x (by simp)
    obtain ⟨hd1, hd2⟩ := List.pairwise_cons.mp hd
    have hb' : ∀ y ∈ l, y.2.1 < (butterfly c x.1 x.2.1 x.2.2 z).1.length ∧
        y.2.2 < (butterfly c x.1 x.2.1 x.2.2 z).1.length ∧ y.2.1 ≠ y.2.2 := fun y hy => by
      rw [e1]; exact hb y (List.mem_cons_of_mem _ hy)
    rcases List.mem_cons.mp hx with rfl | hx
    · have ho := fun i h => butterflies_other c l (butterfly c j a b z) i (by simp only at e1 e2; omega)
        (fun y hy => ⟨(hb' y hy).1, (hb' y hy).2.1⟩) h
      have ha := ho a fun y hy => ⟨(hd1 y hy).1, (hd1 y hy).2.1⟩
      have hb'' := ho b fun y hy => ⟨(hd1 y hy).2.2.1, (hd1 y hy).2.2.2⟩
      exact ⟨ha.1, ha.2, hb''.1, hb''.2⟩
    · obtain ⟨d1, d2, d3, d4⟩ := hd1 _ hx
      obtain ⟨ba, bb, bab⟩ := hb _ (List.mem_cons_of_mem _ hx)
      simp only at ba bb bab d1 d2 d3 d4
      have g : ∀ i, i ≠ x.2.1 → i ≠ x.2.2 →
          (butterfly c x.1 x.2.1 x.2.2 z).1[i]? = z.1[i]? ∧ (butterfly c x.1 x.2.1 x.2.2 z).2[i]? = z.2[i]? := by
        intro i n1 n2
        obtain ⟨f1, f2⟩ := butterfly_getElem? c x.1 x.2.1 x.2.2 z hx1 hx2 hl i
        rw [if_neg n2, if_neg n1] at f1 f2
        exact ⟨f1, f2⟩
      obtain ⟨ga1, ga2⟩ := g a (Ne.symm d1) (Ne.symm d3)
      obtain ⟨gb1, gb2⟩ := g b (Ne.symm d2) (Ne.symm d4)
      have k := fun i => butterfly_getElem? c j a b (butterfly c x.1 x.2.1 x.2.2 z) (by omega) (by omega) (by omega) i
      have k' := fun i => butterfly_getElem? c j a b z ba bb hl i
      simp only [List.getD_eq_getElem?_getD, ga1, ga2, gb1, gb2] at k
      simp only [List.getD_eq_getElem?_getD] at k'
      obtain ⟨r1, r2, r3, r4⟩ := ih (butterfly c x.1 x.2.1 x.2.2 z) (by omega) hb' hd2 hx
      refine ⟨r1.trans ?_, r2.trans ?_, r3.trans ?_, r4.trans ?_⟩
      · rw [(k a).1, (k' a).1, if_neg bab, if_neg bab]; simp
      · rw [(k a).2, (k' a).2, if_neg bab, if_neg bab]; simp
      · rw [(k b).1, (k' b).1]; simp
      · rw [(k b).2, (k' b).2]; simp

/-- The butterflies of pass `s`, in the order of R190. -/
def passList (c : Config) (s : Nat) : List (Nat × Nat × Nat) :=
  (List.range (c.NFFT / 2 ^ s)).flatMap fun b =>
    (List.range (2 ^ s / 2)).map fun t => (t * (c.NFFT / 2 ^ s), b * 2 ^ s + t, b * 2 ^ s + t + 2 ^ s / 2)

theorem fftPass_eq (c : Config) (s : Nat) (z : Spectrum) : fftPass c s z = butterflies c (passList c s) z := by
  unfold fftPass butterflies passList
  rw [List.foldl_flatMap]
  simp only [List.foldl_map]

theorem fftPass_length (c : Config) (s : Nat) (z : Spectrum) :
    (fftPass c s z).1.length = z.1.length ∧ (fftPass c s z).2.length = z.2.length := by
  rw [fftPass_eq]; exact butterflies_length _ _ _

/-- Two offsets inside blocks of the same size name one element only if block and offset agree. -/
theorem block_inj {m b b' u u' : Nat} (hu : u < m) (hu' : u' < m) (h : b * m + u = b' * m + u') : b = b' ∧ u = u' := by
  have e : u = u' := by
    have := congrArg (· % m) h
    simpa [Nat.mod_eq_of_lt hu, Nat.mod_eq_of_lt hu'] using this
  subst e
  exact ⟨Nat.eq_of_mul_eq_mul_right (by omega) (Nat.add_right_cancel h), rfl⟩

theorem passList_apart (c : Config) {s : Nat} (hs : 0 < s) : (passList c s).Pairwise Apart := by
  obtain ⟨p, rfl⟩ : ∃ p, s = p + 1 := ⟨s - 1, by omega⟩
  have e : 2 ^ (p + 1) / 2 = 2 ^ p := by omega
  have apart : ∀ b t b' t', t < 2 ^ p → t' < 2 ^ p → (b ≠ b' ∨ t ≠ t') →
      Apart (t * (c.NFFT / 2 ^ (p + 1)), b * 2 ^ (p + 1) + t, b * 2 ^ (p + 1) + t + 2 ^ p)
        (t' * (c.NFFT / 2 ^ (p + 1)), b' * 2 ^ (p + 1) + t', b' * 2 ^ (p + 1) + t' + 2 ^ p) := by
    intro b t b' t' ht ht' hne
    have hp : 2 ^ (p + 1) = 2 * 2 ^ p := by omega
    have inj := fun u u' hu hu' h => block_inj (m := 2 ^ (p + 1)) (b := b) (b' := b') (u := u) (u' := u') hu hu' h
    refine ⟨fun h => ?_, fun h => ?_, fun h => ?_, fun h => ?_⟩ <;> simp only at h
    · have := inj t t' (by omega) (by omega) h; omega
    · have := inj t (t' + 2 ^ p) (by omega) (by omega) (by omega); omega
    · have := inj (t + 2 ^ p) t' (by omega) (by omega) (by omega); omega
    · have := inj (t + 2 ^ p) (t' + 2 ^ p) (by omega) (by omega) (by omega); omega
  unfold passList
  rw [e, List.pairwise_flatMap]
  refine ⟨fun b _ => ?_, ?_⟩
  · rw [List.pairwise_map]
    refine List.Pairwise.imp_of_mem ?_ (List.pairwise_lt_range (n := 2 ^ p))
    intro t t' ht ht' hlt
    exact apart b t b t' (List.mem_range.mp ht) (List.mem_range.mp ht') (.inr (by omega))
  · refine List.Pairwise.imp ?_ (List.pairwise_lt_range (n := c.NFFT / 2 ^ (p + 1)))
    intro b b' hlt x hx y hy
    obtain ⟨t, ht, rfl⟩ := List.mem_map.mp hx
    obtain ⟨t', ht', rfl⟩ := List.mem_map.mp hy
    exact apart b t b' t' (List.mem_range.mp ht) (List.mem_range.mp ht') (.inl (by omega))

/-- One pass, butterfly by butterfly, on the values from before the pass (R190). -/
theorem fftPass_at (c : Config) {p b t : Nat} (z : Spectrum) (h1 : z.1.length = c.NFFT) (h2 : z.2.length = c.NFFT)
    (hb : b < c.NFFT / 2 ^ (p + 1)) (ht : t < 2 ^ p) :
    (fftPass c (p + 1) z).1[b * 2 ^ (p + 1) + t]? =
      (butterfly c (t * (c.NFFT / 2 ^ (p + 1))) (b * 2 ^ (p + 1) + t) (b * 2 ^ (p + 1) + t + 2 ^ p) z).1[b * 2 ^ (p + 1) + t]? ∧
    (fftPass c (p + 1) z).2[b * 2 ^ (p + 1) + t]? =
      (butterfly c (t * (c.NFFT / 2 ^ (p + 1))) (b * 2 ^ (p + 1) + t) (b * 2 ^ (p + 1) + t + 2 ^ p) z).2[b * 2 ^ (p + 1) + t]? ∧
    (fftPass c (p + 1) z).1[b * 2 ^ (p + 1) + t + 2 ^ p]? =
      (butterfly c (t * (c.NFFT / 2 ^ (p + 1))) (b * 2 ^ (p + 1) + t) (b * 2 ^ (p + 1) + t + 2 ^ p) z).1[b * 2 ^ (p + 1) + t + 2 ^ p]? ∧
    (fftPass c (p + 1) z).2[b * 2 ^ (p + 1) + t + 2 ^ p]? =
      (butterfly c (t * (c.NFFT / 2 ^ (p + 1))) (b * 2 ^ (p + 1) + t) (b * 2 ^ (p + 1) + t + 2 ^ p) z).2[b * 2 ^ (p + 1) + t + 2 ^ p]? := by
  have e : 2 ^ (p + 1) / 2 = 2 ^ p := by omega
  have bound : ∀ b t, b < c.NFFT / 2 ^ (p + 1) → t < 2 ^ p → b * 2 ^ (p + 1) + t + 2 ^ p < c.NFFT := by
    intro b t hb ht
    have h : (b + 1) * 2 ^ (p + 1) ≤ c.NFFT := (Nat.le_div_iff_mul_le (by positivity)).mp hb
    rw [Nat.add_mul] at h
    omega
  rw [fftPass_eq]
  refine butterflies_at c (passList c (p + 1)) z (by omega) (fun x hx => ?_) (passList_apart c (by omega)) ?_
  · obtain ⟨b', hb', hx⟩ := List.mem_flatMap.mp hx
    obtain ⟨t', ht', rfl⟩ := List.mem_map.mp hx
    rw [List.mem_range] at hb' ht'
    rw [e] at ht' ⊢
    have := bound b' t' hb' ht'
    have : 0 < 2 ^ p := by positivity
    refine ⟨?_, ?_, ?_⟩ <;> simp only <;> omega
  · refine List.mem_flatMap.mpr ⟨b, List.mem_range.mpr hb, List.mem_map.mpr ⟨t, List.mem_range.mpr (by omega), ?_⟩⟩
    rw [e]

end Sys2Proof.Machine
end

