-- ==== Sys2Proof/Laws/Step.lean ====
section
/-! SUPPORT. What one step can do, said once: the inversion of `step`, `portEvent` and `decodeOn`. Later proofs about every
step split on `step_next_cases` and never unfold `step`. -/

namespace Sys2Proof

/-- The commands a port accepts (R104). -/
theorem decodeOn_ok_cases {p : Port} {w : Word} {i : Instr} (h : decodeOn p w = .ok i) :
    (p = .P ∧ ∃ n, i = .push n) ∨ (p = .E ∧ i = .step) ∨
      (p = .K ∧ (i = .mtake ∨ (∃ r c, i = .mread r c) ∨ i = .release)) ∨
      (p = .D ∧ (i = .avail ∨ ∃ a, i = .rdcsr a)) := by
  unfold decodeOn at h
  split at h
  · cases h
  · next o _ =>
    split at h
    · cases h
    · next hp =>
      split at h
      · cases h
      · obtain rfl := Decidable.not_not.mp hp
        cases h
        cases o <;> simp [Opcode.port, Opcode.instr]

end Sys2Proof

namespace Sys2Proof.Machine

/-- The instructions `step` can run in a state, each with the condition under which it does (R19, R31, R33). -/
inductive Runs (s : State) : Instr → Prop
  | pushNew (n : BitVec 16) (h : s.pPhase = .idle) : Runs s (.push n)
  | pushOn (h : s.pPhase ≠ .idle) : Runs s (.push s.pN)
  | step (h : s.ePhase = .idle) : Runs s .step
  | idleOn (h : s.ePhase ≠ .idle) : Runs s .stIdle
  | avail : Runs s .avail
  | rdcsr (a : BitVec 8) : Runs s (.rdcsr a)
  | mtake : Runs s .mtake
  | mread (r c : BitVec 12) : Runs s (.mread r c)
  | release : Runs s .release

theorem inFlight_eq_some {s : State} {p : Port} {i : Instr} (h : s.inFlight p = some i) : i.port = p ∧ Runs s i := by
  unfold State.inFlight at h
  cases p with
  | P =>
    simp only at h
    split at h
    · cases h
    · cases h; exact ⟨rfl, .pushOn ‹_›⟩
  | E =>
    simp only at h
    split at h
    · cases h
    · cases h; exact ⟨rfl, .idleOn ‹_›⟩
  | K => cases h
  | D => cases h

/-- An instruction decoded on a port with nothing in flight is one `step` may run there. -/
theorem runs_of_decode {s : State} {p : Port} {w : Word} {i : Instr} (hf : s.inFlight p = none)
    (h : decodeOn p w = .ok i) (q : CommandQueues) : i.port = p ∧ Runs { s with queues := q } i := by
  rcases decodeOn_ok_cases h with ⟨rfl, n, rfl⟩ | ⟨rfl, rfl⟩ | ⟨rfl, rfl | ⟨r, c, rfl⟩ | rfl⟩ | ⟨rfl, rfl | ⟨a, rfl⟩⟩
  · refine ⟨rfl, .pushNew n ?_⟩
    simpa [State.inFlight] using hf
  · refine ⟨rfl, .step ?_⟩
    simpa [State.inFlight] using hf
  · exact ⟨rfl, .mtake⟩
  · exact ⟨rfl, .mread r c⟩
  · exact ⟨rfl, .release⟩
  · exact ⟨rfl, .avail⟩
  · exact ⟨rfl, .rdcsr a⟩

/-- What a port's event can do when it answers a next state. -/
theorem portEvent_next {p : Port} {s t : State} (h : portEvent p s = .next t) :
    ∃ q, t = { s with queues := q } ∨ t = { s with queues := q }.illegal p ∨
      ∃ i, i.port = p ∧ Runs { s with queues := q } i ∧ exec i { s with queues := q } = .next t := by
  unfold portEvent at h
  split at h
  · split at h
    · cases h; exact ⟨s.queues, .inl rfl⟩
    · cases h
  · split at h
    · next i hi => exact ⟨s.queues, .inr (.inr ⟨i, (inFlight_eq_some hi).1, (inFlight_eq_some hi).2, h⟩)⟩
    · next hf =>
      split at h
      · cases h; exact ⟨s.queues, .inl rfl⟩
      · next w s' hw =>
        obtain ⟨ws, -, rfl⟩ := (State.takeWord_eq_some s).mp hw
        split at h
        · next i hi =>
          obtain ⟨h1, h2⟩ := runs_of_decode hf hi (s.queues.set ws p)
          exact ⟨_, .inr (.inr ⟨i, h1, h2, h⟩)⟩
        · cases h; exact ⟨_, .inr (.inl rfl)⟩

/-- What one step can do when it answers a next state. -/
theorem step_next_cases {s t : State} (h : step s = .next t) :
    (s.schedule = [] ∧ t = s) ∨
    (∃ rest, s.schedule = .assertRst :: rest ∧ t = { s with schedule := rest }.assertReset) ∨
    (∃ rest, s.schedule = .releaseRst :: rest ∧ t = { s with schedule := rest }.releaseReset) ∨
    (∃ p rest q, s.schedule = .port p :: rest ∧
      (t = { s with schedule := rest, queues := q } ∨ t = { s with schedule := rest, queues := q }.illegal p ∨
        ∃ i, i.port = p ∧ Runs { s with schedule := rest, queues := q } i ∧
          exec i { s with schedule := rest, queues := q } = .next t)) := by
  unfold step at h
  split at h
  · next hs => cases h; exact .inl ⟨hs, rfl⟩
  · next rest hs => cases h; exact .inr (.inl ⟨rest, hs, rfl⟩)
  · next rest hs => cases h; exact .inr (.inr (.inl ⟨rest, hs, rfl⟩))
  · next p rest hs =>
    obtain ⟨q, hq⟩ := portEvent_next h
    exact .inr (.inr (.inr ⟨p, rest, q, hs, hq⟩))

/-- What one step can do when it answers a next state, event by event: the reset input, the next event of a command in
flight, or a port between commands with its next word. -/
inductive StepTo (s : State) : State → Prop
  | idle (h : s.schedule = []) : StepTo s s
  | assertRst (rest : List Move) (h : s.schedule = .assertRst :: rest) : StepTo s { s with schedule := rest }.assertReset
  | releaseRst (rest : List Move) (h : s.schedule = .releaseRst :: rest) :
    StepTo s { s with schedule := rest }.releaseReset
  | pushCopy (rest : List Move) (t : State) (h : s.schedule = .port .P :: rest) (hp : s.pPhase = .copy)
    (hr : s.rst = false) (e : pushCopy { s with schedule := rest } = .next t) : StepTo s t
  | pushAccount (rest : List Move) (t : State) (h : s.schedule = .port .P :: rest) (hp : s.pPhase = .acct)
    (hr : s.rst = false) (e : pushAccount { s with schedule := rest } = .next t) : StepTo s t
  | idleCopy (rest : List Move) (t : State) (h : s.schedule = .port .E :: rest) (he : s.ePhase = .copy)
    (hr : s.rst = false) (e : idleCopy { s with schedule := rest } = .next t) : StepTo s t
  | nothing (p : Port) (rest : List Move) (h : s.schedule = .port p :: rest)
    (hl : s.rst = false → s.eventsLeft p = 0) (hq : s.queues.get p = []) : StepTo s { s with schedule := rest }
  | illegal (p : Port) (rest : List Move) (w : Word) (ws : List Word) (r : Reject) (h : s.schedule = .port p :: rest)
    (hl : s.eventsLeft p = 0) (hq : s.queues.get p = w :: ws) (hr : s.rst = false) (hd : decodeOn p w = .error r) :
    StepTo s ({ s with schedule := rest, queues := s.queues.set ws p }.illegal p)
  | command (p : Port) (rest : List Move) (w : Word) (ws : List Word) (i : Instr) (t : State)
    (h : s.schedule = .port p :: rest) (hl : s.eventsLeft p = 0) (hq : s.queues.get p = w :: ws) (hr : s.rst = false)
    (hd : decodeOn p w = .ok i) (e : exec i { s with schedule := rest, queues := s.queues.set ws p } = .next t) :
    StepTo s t

theorem eventsLeft_of_inFlight_none {s : State} {p : Port} (h : s.inFlight p = none) : s.eventsLeft p = 0 := by
  unfold State.inFlight at h
  unfold State.eventsLeft
  cases p <;> simp only at h ⊢
  · cases hp : s.pPhase <;> simp_all
  · cases he : s.ePhase <;> simp_all

theorem stepTo_of_step {s t : State} (h : step s = .next t) : StepTo s t := by
  unfold step at h
  split at h
  · next hs => cases h; exact .idle hs
  · next rest hs => cases h; exact .assertRst rest hs
  · next rest hs => cases h; exact .releaseRst rest hs
  · next p rest hs =>
    unfold portEvent at h
    split at h
    · next hr =>
      have hr : s.rst = true := hr
      split at h
      · next hq =>
        cases h
        exact .nothing p rest hs (by simp [hr]) ((State.takeWord_eq_none { s with schedule := rest }).mp hq)
      · cases h
    · next hr =>
      have hr : s.rst = false := by simpa using hr
      split at h
      · next i hi =>
        unfold State.inFlight at hi
        cases p with
        | P =>
          simp only at hi
          split at hi
          · cases hi
          · cases hi
            unfold exec execPush at h
            cases hp : s.pPhase with
            | idle => contradiction
            | copy => simp only [hp] at h; exact .pushCopy rest t hs hp hr h
            | acct => simp only [hp] at h; exact .pushAccount rest t hs hp hr h
        | E =>
          simp only at hi
          split at hi
          · cases hi
          · cases hi
            unfold exec execStIdle at h
            cases he : s.ePhase with
            | idle => contradiction
            | copy => simp only [he] at h; exact .idleCopy rest t hs he hr h
        | K => cases hi
        | D => cases hi
      · next hf =>
        have hl : s.eventsLeft p = 0 := eventsLeft_of_inFlight_none (s := { s with schedule := rest }) hf
        split at h
        · next hq =>
          cases h
          exact .nothing p rest hs (fun _ => hl) ((State.takeWord_eq_none { s with schedule := rest }).mp hq)
        · next w s' hw =>
          obtain ⟨ws, hq, rfl⟩ := (State.takeWord_eq_some _).mp hw
          split at h
          · next i hd => exact .command p rest w ws i t hs hl hq hr hd h
          · next r hd => cases h; exact .illegal p rest w ws r hs hl hq hr hd

/-! Under reset (R300). -/

/-- The environment's data is not part of what reset fixes. -/
theorem State.under_reset_env (s : State) (h : s.rst = true → s = s.atReset) (q : CommandQueues) (b : List Sample)
    (m : List Move) (r : List Response) (hr : s.rst = true) :
    { s with queues := q, beats := b, schedule := m, responses := r } =
      { s with queues := q, beats := b, schedule := m, responses := r }.atReset :=
  congrArg (fun x : State => { x with queues := q, beats := b, schedule := m, responses := r }) (h hr)

/-- No command is in flight while the CORE holds the reset state. -/
theorem State.eventsLeft_atReset {s : State} (h : s = s.atReset) (p : Port) : s.eventsLeft p = 0 := by
  rw [h]; cases p <;> rfl

/-- Under reset a scheduled port makes no event: it has nothing to issue, or is refused. -/
theorem step_under_reset {s : State} {p : Port} {rest : List Move} (h : s.schedule = .port p :: rest)
    (hr : s.rst = true) :
    step s = if s.queues.get p = [] then .next { s with schedule := rest } else .refused .commandUnderReset := by
  unfold step portEvent State.takeWord
  rw [h]
  cases hq : s.queues.get p <;> simp [hr, hq]

/-- Where a step can fault: only where its instruction does. -/
theorem step_fault_cases {s : State} {f : Fault} (h : step s = .fault f) :
    ∃ p rest q i, s.schedule = .port p :: rest ∧ i.port = p ∧ Runs { s with schedule := rest, queues := q } i ∧
      exec i { s with schedule := rest, queues := q } = .fault f := by
  unfold step at h
  split at h
  · cases h
  · cases h
  · cases h
  · next p rest hs =>
    unfold portEvent at h
    split at h
    · split at h <;> cases h
    · split at h
      · next i hi => exact ⟨p, rest, s.queues, i, hs, (inFlight_eq_some hi).1, (inFlight_eq_some hi).2, h⟩
      · next hf =>
        split at h
        · cases h
        · next w s' hw =>
          obtain ⟨ws, -, rfl⟩ := (State.takeWord_eq_some _).mp hw
          split at h
          · next i hi =>
            obtain ⟨h1, h2⟩ := runs_of_decode hf hi (s.queues.set ws p)
            exact ⟨p, rest, _, i, hs, h1, h2, h⟩
          · cases h

end Sys2Proof.Machine
end

