-- ==== Sys2Proof/Tests/Slice0.lean ====
section
/-! SUPPORT. Tests: every check of WellFormed refuses an ill-formed term; words written out from 30_encoding.md decode to what
they stand for; one or two small steps per instruction with the values of 95_test_vectors.md; and for each statement of
Certificates/Slice0/Obligations.lean with hypotheses, states that meet them (`witness_…`), at the boundary of each clause. -/

namespace Sys2Proof.Tests

open Sys2Proof.Machine

/-! ## WellFormed refuses (R9, R10, R12, R102, R103) -/

theorem test_wf_tiny : Config.tiny.wf = true := by decide
theorem test_wf_refuses_capacity_not_power_of_two : { Config.tiny with C := 12 }.wf = false := by decide
theorem test_wf_refuses_capacity_too_large : { Config.tiny with C := 131072 }.wf = false := by decide
theorem test_wf_refuses_stride_zero : { Config.tiny with S := 0 }.wf = false := by decide
theorem test_wf_refuses_stride_not_below_frame : { Config.tiny with S := 4 }.wf = false := by decide
theorem test_wf_refuses_frame_not_below_capacity : { Config.tiny with C := 4 }.wf = false := by decide
theorem test_wf_refuses_frame_above_transform : { Config.tiny with NFFT := 2 }.wf = false := by decide
theorem test_wf_refuses_transform_not_power_of_two : { Config.tiny with NFFT := 6 }.wf = false := by decide
theorem test_wf_refuses_transform_too_large : { Config.tiny with NFFT := 32768 }.sizesOk = false := by decide
theorem test_wf_refuses_no_filters : { Config.tiny with NF := 0 }.sizesOk = false := by decide
theorem test_wf_refuses_more_coefficients_than_filters : { Config.tiny with NCEPS := 3 }.sizesOk = false := by decide
theorem test_wf_refuses_no_rows : { Config.tiny with NUM_FRAMES := 0 }.wf = false := by decide
theorem test_wf_refuses_too_many_rows : { Config.tiny with NUM_FRAMES := 4097 }.wf = false := by decide
theorem test_wf_refuses_alpha_above_q15 : { Config.tiny with ALPHA_Q15 := 32768 }.wf = false := by decide
theorem test_wf_refuses_negative_window : { Config.tiny with HAM := [2621#16, 0xFFFF#16, 25231#16, 2621#16] }.wf = false := by
  decide
theorem test_wf_refuses_short_twiddle_re : { Config.tiny with TW_RE := [32767#16] }.wf = false := by decide
theorem test_wf_refuses_short_twiddle_im : { Config.tiny with TW_IM := [0#16] }.wf = false := by decide
theorem test_wf_refuses_missing_filter : { Config.tiny with MELW := [[0#16, 0#16, 0#16]] }.wf = false := by decide
theorem test_wf_refuses_negative_weight :
    { Config.tiny with MELW := [[0#16, 0#16, 0#16], [0#16, 0#16, 0x8000#16]] }.wf = false := by decide
theorem test_wf_refuses_missing_dct_row : { Config.tiny with DCTC := [[0#16, 0#16]] }.wf = false := by decide
theorem test_wf_refuses_short_dct_row : { Config.tiny with DCTC := [[0#16, 0#16], [0#16]] }.wf = false := by decide
theorem test_wf_refuses_log_of_zero_not_zero : { Config.tiny with LOGQ := .table [(0, 5)] }.wf = false := by decide
theorem test_wf_refuses_unmapped_csr :
    [0x06#8, 0x07#8, 0x0C#8, 0x0F#8, 0x18#8, 0xFF#8].map (fun a => Instr.wf Config.tiny (.rdcsr a)) =
      [false, false, false, false, false, false] := by decide
theorem test_wf_refuses_row_out_of_range : Instr.wf Config.tiny (.mread 2#12 0#12) = false := by decide
theorem test_wf_refuses_column_out_of_range : Instr.wf Config.tiny (.mread 0#12 2#12) = false := by decide

/-! ## Words written out from R91 to R93, as the host presents them and on their ports (V-ENC) -/

theorem test_decode_push : decodeTableWord 32 0b00000001_00000000_1111111111111111 = some (.push 0xFFFF#16) := by decide
theorem test_decode_step : decodeTableWord 32 0b00000010_000000000000000000000000 = some .step := by decide
theorem test_decode_avail : decodeTableWord 32 0b00000011_000000000000000000000000 = some .avail := by decide
theorem test_decode_rdcsr : decodeTableWord 32 0b00000100_0000000000000000_00001010 = some (.rdcsr 0x0A#8) := by decide
theorem test_decode_mtake : decodeTableWord 32 0b00000101_000000000000000000000000 = some .mtake := by decide
theorem test_decode_mread :
    decodeTableWord 32 0b00000110_100000000011_000000000101 = some (.mread 0x803#12 0x005#12) := by decide
theorem test_decode_release : decodeTableWord 32 0b00000111_000000000000000000000000 = some .release := by decide
theorem test_decode_stages :
    [0b000, 0b001, 0b010, 0b011, 0b100, 0b101, 0b110, 0b111].map (decodeTableWord 8) =
      [some .stIdle, some .stPreemph, some .stWindow, some .stFft, some .stPower, some .stMel, some .stDct,
        some .stStore] := by decide
theorem test_decode_rejects :
    [decodeOn .P 0x01010000#32, decodeOn .E 0x02000001#32, decodeOn .E 0x01000000#32, decodeOn .D 0x04000100#32,
      decodeOn .K 0x00000000#32, decodeOn .K 0xFFFFFFFF#32, decodeOn .K 0x08000000#32, decodeOn .K 0x02000000#32,
      decodeOn .D 0x07000000#32] =
    [.error .mustBeZero, .error .mustBeZero, .error .wrongPort, .error .mustBeZero, .error .reservedOpcode,
      .error .reservedOpcode, .error .reservedOpcode, .error .wrongPort, .error .wrongPort] := by decide

/-! ## States the tests start from -/

/-- Signed samples. -/
def samples (l : List Int) : List Sample := l.map (BitVec.ofInt 16)

/-- Whether an event answers a next state with a property. -/
def goesTo (o : Result) (p : State → Bool) : Bool :=
  match o with
  | .next t => p t
  | _ => false

/-- TINY in the middle of a run: 10 samples written, two frames read, row 0 of matrix 1 stored, matrix 0 ready. -/
def mid : State :=
  { State.reset with
    ring := (List.range 10).map fun i => (i, BitVec.ofNat 16 (i + 1))
    readPos := 4
    writePos := 10
    frCount := 3#16
    activeSel := true
    readyValid := true
    mrSig := true
    rowIdx := 1#13
    mat := (List.range 6).map fun i => (i, BitVec.ofNat 16 (100 + i))
    frame := samples [1, 2, 3, 4]
    fre := [1, 2, 3, 4]
    fim := [0, 0, 0, 0]
    power := [1#32, 2#32, 3#32]
    melq := samples [1, 2]
    ceps := samples [7, -8] }

/-- The same, between ST.IDLE.A and ST.IDLE.B. -/
def midRead : State := { mid with ePhase := .copy, frCount := 2#16 }

/-- The same, between PUSH.A and PUSH.B of two samples. -/
def midCopy : State := { mid with pPhase := .copy, pN := 2#16, pPayload := samples [11, 12] }

/-- The same, between PUSH.B and PUSH.C of two samples. -/
def midAcct : State := { mid with pPhase := .acct, pN := 2#16, frCount := 2#16 }

/-- The same, in STORE with the last row to store. -/
def midStore : State := { mid with stage := .store }

/-- After reset, with `rst` still asserted. -/
def midReset : State := { State.reset with rst := true, resets := 1 }

/-- The same as `midStore`, with the swap pending. -/
def midStall : State :=
  { midStore with
    rowIdx := 2#13
    swapPending := true
    mat := (List.range 8).map fun i => (i, BitVec.ofNat 16 (100 + i)) }

/-- A state whose next move is a port's, with words queued for that port. -/
def moved (s : State) (p : Port) (ws : List Word) : State :=
  { s with schedule := [.port p], queues := s.queues.set ws p }

/-! ## One or two steps per instruction (95_test_vectors.md) -/

/-- V-RB-7, V-RB-8: at `(2, 5, 1, 1, 0)` 13 samples are refused and 12 are admitted. -/
theorem test_push_check :
    goesTo (exec (.push 13#16) { State.reset with readPos := 2, writePos := 5, beats := List.replicate 13 0#16 })
        (fun t => t.overrunCnt == 1#32 && t.pPhase == .idle && t.responses == [⟨.P, .overrun, 0#32⟩]) = true ∧
      goesTo (exec (.push 12#16) { State.reset with readPos := 2, writePos := 5, beats := List.replicate 12 0#16 })
        (fun t => t.pPhase == .copy && t.overrunCnt == 0#32) = true := by decide

/-- V-RB-8, V-RB-12: the copy wraps; a write that ends at the array's end leaves `write_pos = 0`. -/
theorem test_push_copy_wraps :
    goesTo (exec (.push 3#16) { State.reset with
        pPhase := .copy, pN := 3#16, pPayload := samples [1, 2, 3], writePos := 14, readPos := 14 })
      (fun t => t.ring == [(0, 3#16), (14, 1#16), (15, 2#16)] && t.writePos == 1) = true ∧
    goesTo (exec (.push 2#16) { State.reset with
        pPhase := .copy, pN := 2#16, pPayload := samples [1, 2], writePos := 14, readPos := 14 })
      (fun t => t.writePos == 0) = true := by decide

/-- V-SEQ-1, V-SEQ-4: WAIT without a token; a retry without a token counts again. -/
theorem test_step_in_idle :
    goesTo (exec .step State.reset) (fun t => t.responses == [⟨.E, .wait, 0#32⟩] && t.underrunCnt == 0#32) = true ∧
      goesTo (exec .step { State.reset with uflag := true, writePos := 3, underrunCnt := 1#32 })
        (fun t => t.responses == [⟨.E, .underrun, 0#32⟩] && t.underrunCnt == 2#32 && t.uflag) = true := by decide

/-- V-RB-9: 15 unread samples with the cursors wrapped. -/
theorem test_avail : goesTo (exec .avail { State.reset with readPos := 2, writePos := 1 })
    (fun t => t.responses == [⟨.D, .ok, 15#32⟩]) = true := by decide

/-- R262: STATUS in the stalled state of R243, and an unmapped address. -/
theorem test_rdcsr :
    goesTo (exec (.rdcsr 0x00#8) { midStall with mrSig := false })
        (fun t => t.responses == [⟨.D, .ok, 0x000000E7#32⟩]) = true ∧
      goesTo (exec (.rdcsr 0x06#8) mid) (fun t => t.responses == [⟨.D, .illegal, 0#32⟩]) = true := by decide

/-- R238, R243: the index of the ready matrix. -/
theorem test_mtake :
    goesTo (exec .mtake { mid with activeSel := false }) (fun t => t.responses == [⟨.K, .ok, 1#32⟩] && !t.mrSig) = true ∧
      goesTo (exec .mtake mid) (fun t => t.responses == [⟨.K, .ok, 0#32⟩]) = true := by decide

/-- R239: sign extension of element `(0, 1)`, the row-major place of an element. -/
theorem test_mread :
    goesTo (exec (.mread 0#12 1#12) { mid with mat := [(0, 31686#16), (1, BitVec.ofInt 16 (-667))] })
        (fun t => t.responses == [⟨.K, .ok, 0xFFFFFD65#32⟩]) = true ∧
      goesTo (exec (.mread 2#12 0#12) mid) (fun t => t.responses == [⟨.K, .illegal, 0#32⟩]) = true := by decide

/-- R240: a second RELEASE is illegal. -/
theorem test_release :
    goesTo (exec .release mid) (fun t => !t.readyValid && !t.mrSig && t.responses == [⟨.K, .ok, 0#32⟩]) = true ∧
      goesTo (exec .release State.reset) (fun t => t.responses == [⟨.K, .illegal, 0#32⟩]) = true := by decide

/-- V-SEQ-7: the frame read wraps. -/
theorem test_idle_copy_wraps :
    goesTo (exec .stIdle { State.reset with
        ePhase := .copy, readPos := 14, writePos := 2, ring := [(0, 3#16), (1, 4#16), (14, 1#16), (15, 2#16)] })
      (fun t => t.frame == samples [1, 2, 3, 4] && t.readPos == 0 && t.stage == .preEmphasis) = true := by decide

/-- V-PE-3, V-PE-4. -/
theorem test_preemph :
    goesTo (exec .stPreemph { State.reset with frame := samples [-3000, 4000, 32767, -32768] })
        (fun t => t.frame == samples [-3000, 6911, 28887, -32768] && t.clampCnt == 1#32 &&
          t.responses == [⟨.E, .clamp, 2#32⟩]) = true ∧
      goesTo (exec .stPreemph { State.reset with frame := samples [-32768, 32767, -32768, 32767] })
        (fun t => t.frame == samples [-32768, 32767, -32768, 32767] && t.clampCnt == 3#32) = true := by decide

/-- V-WIN-3. -/
theorem test_window : goesTo (exec .stWindow { State.reset with frame := samples [-32768, 32767, -32768, 32767] })
    (fun t => t.frame == samples [-2621, 25230, -25231, 2620] && t.responses == [⟨.E, .ok, 3#32⟩]) = true := by decide

/-- V-FFT-4. -/
theorem test_fft : goesTo (exec .stFft { State.reset with frame := samples [-2621, 25230, -25231, 2620] })
    (fun t => t.fre == [-4, 22610, -55700, 22610] && t.fim == [0, -22611, 0, 22611]) = true := by decide +kernel

/-- V-FFT-10 on the loop itself: `NFFT = 8` with zero padding. -/
theorem test_fft_of_length_eight :
    fftOf { Config.tiny with
        NFFT := 8, W := 5, TW_RE := samples [32767, 23170, 0, -23170], TW_IM := samples [0, -23170, -32768, -23170] }
      (fun i => [1000, -2000, 3000, -4000, 5000].getD i 0) =
    ([2998, -2585, 3000, -5414, 14998, -5413, 3000, -2584], [0, 1242, -2000, 7242, 0, -7242, 2000, -1242]) := by
  decide +kernel

/-- V-POW-5. -/
theorem test_power : goesTo (exec .stPower { State.reset with fre := [92681, 131072, 200000], fim := [92681, 0, 0] })
    (fun t => t.power == [4294883880#32, 4294967295#32, 4294967295#32] && t.clampCnt == 2#32) = true := by decide

/-- R208, worked example. -/
theorem test_mel : goesTo (exec .stMel { State.reset with power := [1418481#32, 3784063#32, 6421156#32] })
    (fun t => t.melq == samples [15372, 16315] && t.responses == [⟨.E, .ok, 6#32⟩]) = true := by decide +kernel

/-- R212 with other gains than 1024: a gain of 0 gives 0, and no gain moves `acc = 32768` off 0. -/
theorem test_log_gains : logqRef 0 (2 ^ 40) = 0 ∧ logqRef (2 ^ 193) 32768 = 0 ∧ logqRef 1 (2 ^ 63) = 33 := by
  decide +kernel

/-- R223 and R225: without and with a clamp. -/
theorem test_dct :
    goesTo (exec .stDct { State.reset with melq := samples [15372, 16315] })
        (fun t => t.ceps == samples [31686, -667] && t.responses == [⟨.E, .ok, 7#32⟩]) = true ∧
      goesTo (exec .stDct { State.reset with melq := samples [19686, 19370] })
        (fun t => t.ceps == samples [32767, 223] && t.responses == [⟨.E, .clamp, 7#32⟩]) = true := by decide

/-- R233, R235: the last row is stored and the swap gated; after RELEASE the retry swaps. -/
theorem test_store_gate_and_retry :
    goesTo (exec .stStore midStore) (fun t => t.mat.read 6 == some 7#16 && t.rowIdx == 2#13 && t.swapPending &&
        t.stallCnt == 1#32 && t.responses == [⟨.E, .stall, 7#32⟩] && t.activeSel) = true ∧
      goesTo (exec .stStore { midStall with readyValid := false, mrSig := false }) (fun t => !t.activeSel &&
        t.readyValid && t.mrSig && t.rowIdx == 0#13 && !t.swapPending && t.stage == .idle) = true := by decide

/-- The host's two questions on a word: the decoder reads it, and the first step after reset runs it. -/
theorem test_withFetchWord_runs :
    goesTo (step (State.reset.withFetchWord 32 0x01000003)) (fun t => t.pPhase == .copy && t.pN == 3#16) = true ∧
      goesTo (step (State.reset.withFetchWord 8 3)) (fun t => t.stage == .power) = true := by decide

/-! ## Memory keeps its canonical form -/

theorem test_memory_write_inserts_in_order :
    Memory.write [(1, 10#16), (5, 50#16)] 3 30#16 = [(1, 10#16), (3, 30#16), (5, 50#16)] := by decide
theorem test_memory_write_replaces : Memory.write [(1, 10#16), (5, 50#16)] 5 51#16 = [(1, 10#16), (5, 51#16)] := by
  decide

/-! ## Witnesses: states that meet the hypotheses of the statements -/

theorem mid_inv : mid.Inv := by constructor <;> decide
theorem midRead_inv : midRead.Inv := by constructor <;> decide
theorem midCopy_inv : midCopy.Inv := by constructor <;> decide
theorem midAcct_inv : midAcct.Inv := by constructor <;> decide
theorem midStore_inv : midStore.Inv := by constructor <;> decide
theorem midReset_inv : midReset.Inv := by constructor <;> decide
theorem midStall_inv : midStall.Inv := by constructor <;> decide

/-- A queued word and a move change no field the invariant reads. -/
theorem moved_inv {s : State} (h : s.Inv) (p : Port) (ws : List Word) : (moved s p ws).Inv := by
  have hr := s.under_reset_env h.under_reset (s.queues.set ws p) s.beats [.port p] s.responses
  cases h; constructor <;> first | exact hr | assumption

theorem witness_IllegalCommandChangesNothing :
    (∃ e, decodeOn .E 0x02000001#32 = .error e) ∧
    (decodeOn .D 0x04000006#32 = .ok (.rdcsr 0x06#8) ∧ decodeOn .D 0x0400000C#32 = .ok (.rdcsr 0x0C#8) ∧
      decodeOn .D 0x04000018#32 = .ok (.rdcsr 0x18#8)) ∧
    (decodeOn .K 0x06002000#32 = .ok (.mread 2#12 0#12) ∧ mid.cfg.val.NUM_FRAMES ≤ (2#12).toNat) ∧
    (decodeOn .K 0x06000002#32 = .ok (.mread 0#12 2#12) ∧ mid.cfg.val.NCEPS ≤ (2#12).toNat) ∧
    (decodeOn .K 0x07000000#32 = .ok .release ∧ State.reset.readyValid = false) ∧
    ((moved mid .K [0x06002000#32]).schedule = [.port .K] ∧ (moved mid .K [0x06002000#32]).eventsLeft .K = 0 ∧
      (moved mid .K [0x06002000#32]).queues.get .K = [0x06002000#32] ∧
      (moved mid .K [0x06002000#32]).rst = false) := by
  refine ⟨⟨.mustBeZero, by decide⟩, by decide, by decide, by decide, by decide, by decide⟩

theorem witness_StepRunsTheDecodedInstruction :
    (moved mid .P [0x01000001#32]).schedule = [.port .P] ∧ (moved mid .P [0x01000001#32]).eventsLeft .P = 0 ∧
      (moved mid .P [0x01000001#32]).queues.get .P = [0x01000001#32] ∧ (moved mid .P [0x01000001#32]).rst = false ∧
      decodeOn .P 0x01000001#32 = .ok (.push 1#16) := by decide

theorem witness_StepContinuesTheCommandInFlight :
    ((moved midCopy .P []).schedule = [.port .P] ∧ (moved midCopy .P []).pPhase ≠ .idle ∧
      (moved midCopy .P []).rst = false) ∧
    ((moved midRead .E []).schedule = [.port .E] ∧ (moved midRead .E []).ePhase = .copy ∧
      (moved midRead .E []).rst = false) ∧
    ((moved mid .K []).schedule = [.port .K] ∧ (moved mid .K []).eventsLeft .K = 0 ∧
      (moved mid .K []).queues.get .K = []) ∧ mid.schedule = [] := by decide

theorem witness_StepRunsTheSelectedStage : ∃ t, exec .step mid = .next t ∧ mid.stage = .idle ∧ t.ePhase = .copy :=
  ⟨_, rfl, rfl, rfl⟩

/-- IDLE left, a row that leaves room, the swap due and gated, the swap due and performed, a pending one performed; and an
instruction of another port. -/
theorem witness_StageFollowsTheTransitionTable :
    (∃ t, exec .step midRead = .next t ∧ midRead.stage = .idle ∧ midRead.ePhase = .copy ∧ t.stage = .preEmphasis) ∧
    (∃ t, exec .step { midStore with rowIdx := 0#13 } = .next t ∧
      { midStore with rowIdx := 0#13 }.rowIdx.toNat + 1 < midStore.cfg.val.NUM_FRAMES ∧ t.stage = .idle) ∧
    (∃ t, exec .step midStore = .next t ∧ midStore.stage = .store ∧
      midStore.cfg.val.NUM_FRAMES ≤ midStore.rowIdx.toNat + 1 ∧ t.stage = .store) ∧
    (∃ t, exec .step { midStore with readyValid := false } = .next t ∧ t.stage = .idle) ∧
    (∃ t, exec .step { midStall with readyValid := false } = .next t ∧ midStall.swapPending = true ∧ t.stage = .idle) ∧
    ∃ t, Instr.port .avail ≠ .E ∧ exec .avail mid = .next t :=
  ⟨⟨_, rfl, rfl, rfl, rfl⟩, ⟨_, rfl, by decide, rfl⟩, ⟨_, rfl, rfl, by decide, rfl⟩, ⟨_, rfl, rfl⟩, ⟨_, rfl, rfl, rfl⟩, _,
    by decide, rfl⟩

theorem witness_StepCompletes :
    (midRead.stage = .idle ∧ midRead.ePhase = .copy ∧
      ∀ k < midRead.cfg.val.W, (midRead.ring.read ((midRead.readPos + k) % midRead.cfg.val.C)).isSome = true) ∧
    (midStore.stage = .store ∧ midStore.swapPending = false ∧ midStore.rowIdx.toNat < midStore.cfg.val.NUM_FRAMES) := by
  decide

/-- The three clauses at their boundary: 9 samples fit, 10 do not, and 9 beats are too few for `n = 10`. -/
theorem witness_PushAdmitsOrDropsTheBlock :
    mid.pPhase = .idle ∧ (mid.cfg.val.C : Int) - 1 - mid.unreadMod = 9 ∧
      (9#16).toNat ≤ { mid with beats := List.replicate 9 0#16 }.beats.length ∧
      (10#16).toNat ≤ { mid with beats := List.replicate 10 0#16 }.beats.length ∧
      { mid with beats := List.replicate 9 0#16 }.beats.length < (10#16).toNat := by decide

theorem witness_PushStoresThePayload :
    midCopy.pPhase = .copy ∧ midCopy.ring.wf ∧ midCopy.pPayload.length = midCopy.pN.toNat ∧
      midCopy.pN.toNat ≤ midCopy.cfg.val.C := by decide

theorem witness_PushAccountsByStrides :
    midAcct.pPhase = .acct ∧ midAcct.strideCnt.toNat < midAcct.cfg.val.S ∧ midAcct.pN.toNat ≤ midAcct.cfg.val.S ∧
      midAcct.strideCnt.toNat = 10 % midAcct.cfg.val.S := by decide

/-- A write that ends at the array's end, an empty one, and one that can never fit. -/
theorem witness_PushRunsItsThreeEvents :
    mid.pPhase = .idle ∧ mid.ring.wf ∧ mid.strideCnt.toNat < mid.cfg.val.S ∧ mid.writePos < mid.cfg.val.C ∧
      (((6#16).toNat : Int) ≤ mid.cfg.val.C - 1 - mid.unreadMod ∧ mid.writePos + (6#16).toNat = mid.cfg.val.C) ∧
      ((0#16).toNat : Int) ≤ mid.cfg.val.C - 1 - mid.unreadMod ∧
      (6#16).toNat ≤ { mid with beats := List.replicate 16 0#16 }.beats.length ∧
      (16#16).toNat ≤ { mid with beats := List.replicate 16 0#16 }.beats.length ∧ mid.cfg.val.C ≤ (16#16).toNat := by
  decide

/-- A step that stores into the ring. -/
theorem witness_UnreadSamplesAreNeverOverwritten :
    ∃ t, (moved midCopy .P []).Inv ∧ step (moved midCopy .P []) = .next t ∧ ¬(moved midCopy .P []).resetsNext ∧
      0 < (moved midCopy .P []).unread :=
  ⟨_, moved_inv midCopy_inv _ _, rfl, by unfold State.resetsNext; decide, by decide⟩

/-- The history of `mid`: ten samples, two reads; the copying, the reading, the resetting and the quiet step. -/
theorem witness_SamplesAreReadInTheOrderWritten :
    History.Tracks ⟨(List.range 10).map fun i => BitVec.ofNat 16 (i + 1), 2⟩ mid ∧
    (moved midCopy .P []).copiesNext ∧ (∃ t, step (moved midCopy .P []) = .next t) ∧
    (moved midRead .E []).readsNext ∧ (∃ t, step (moved midRead .E []) = .next t) ∧
    { mid with schedule := [.assertRst] }.resetsNext ∧ (∃ t, step { mid with schedule := [.assertRst] } = .next t) ∧
    ¬mid.copiesNext ∧ ¬mid.readsNext ∧ ¬mid.resetsNext ∧ ∃ t, step mid = .next t := by
  refine ⟨⟨by decide, by decide⟩, ?_, ⟨_, rfl⟩, ?_, ⟨_, rfl⟩, ?_, ⟨_, rfl⟩, ?_, ?_, ?_, _, rfl⟩ <;>
    simp only [State.copiesNext, State.readsNext, State.resetsNext] <;> decide

/-- WAIT; a token with too few samples; a token with exactly `W`; a retry without a token. -/
theorem witness_IdleTakesATokenAndChecksTheRing :
    (State.reset.stage = .idle ∧ State.reset.ePhase = .idle ∧ State.reset.uflag = false ∧ State.reset.frCount = 0#16) ∧
    (mid.stage = .idle ∧ mid.ePhase = .idle ∧ mid.frCount ≠ 0#16 ∧ (mid.cfg.val.W : Int) ≤ mid.unreadMod) ∧
    ({ mid with writePos := 7 }.unreadMod = 3 ∧ { mid with writePos := 8 }.unreadMod = 4) ∧
    ({ mid with uflag := true, frCount := 0#16 }.uflag = true) := by decide

theorem witness_IdleCopiesTheFrame :
    midRead.stage = .idle ∧ midRead.ePhase = .copy ∧ ∀ i < midRead.cfg.val.W,
      (midRead.ring.read ((midRead.readPos + i) % midRead.cfg.val.C)).isSome = true := by decide

/-- The last element of the window unwritten; the last element of the matrix unwritten; the first row that does not exist. -/
theorem witness_MissingElementsFaultByName :
    ({ midRead with readPos := 7 }.ePhase = .copy ∧ 3 < midRead.cfg.val.W ∧
      midRead.ring.read ((7 + 3) % midRead.cfg.val.C) = none ∧
      ∀ i < 3, (midRead.ring.read ((7 + i) % midRead.cfg.val.C)).isSome = true) ∧
    ((1#12).toNat < mid.cfg.val.NUM_FRAMES ∧ (1#12).toNat < mid.cfg.val.NCEPS ∧ mid.readyValid = true ∧
      Memory.read [(0, 1#16), (1, 2#16), (2, 3#16)] (matAddr mid.cfg.val (!mid.activeSel) 1 1) = none) ∧
    ({ midStore with rowIdx := 2#13 }.swapPending = false ∧
      midStore.cfg.val.NUM_FRAMES ≤ { midStore with rowIdx := 2#13 }.rowIdx.toNat) := by decide

theorem witness_FftOfZeroIsZero : ∀ i < State.reset.cfg.val.W, { State.reset with frame := samples [0, 0, 0, 0] }.frameAt i = 0#16 := by
  decide

theorem witness_FftStaysInsideThirtyOneBits :
    WfConfig.tiny.val.LOG2N ≤ WfConfig.tiny.val.LOG2N ∧ ∀ t < WfConfig.tiny.val.NFFT / 2,
      tableAt WfConfig.tiny.val.TW_RE t * tableAt WfConfig.tiny.val.TW_RE t +
        tableAt WfConfig.tiny.val.TW_IM t * tableAt WfConfig.tiny.val.TW_IM t ≤ 32769 * 32769 := by decide

theorem witness_MelWithReferenceLogNeverClamps : State.reset.cfg.val.LOGQ = .reference 1024 := rfl

theorem witness_SilenceGivesAZeroRow :
    { State.reset with stage := .preEmphasis, frame := samples [0, 0, 0, 0] }.stage = .preEmphasis ∧
      ∀ i < State.reset.cfg.val.W,
        { State.reset with stage := .preEmphasis, frame := samples [0, 0, 0, 0] }.frameAt i = 0#16 := by decide

/-- Two engines with the same frame and different everything else. -/
theorem witness_RowIsAFunctionOfTheFrame :
    { mid with stage := .preEmphasis }.cfg = { State.reset with stage := .preEmphasis }.cfg ∧
      ∀ i < mid.cfg.val.W, { mid with stage := .preEmphasis }.frameAt i =
        { State.reset with stage := .preEmphasis, frame := samples [1, 2, 3, 4] }.frameAt i := ⟨rfl, by decide⟩

/-- A row that leaves room, a last row with the other matrix idle, a last row with it ready, both retries. -/
theorem witness_StoreAppendsTheRowAndSwapsWhenFull :
    (midStore.stage = .store ∧ midStore.mat.wf ∧ midStore.swapPending = false) ∧
    ({ midStore with rowIdx := 0#13 }.rowIdx.toNat + 1 < midStore.cfg.val.NUM_FRAMES) ∧
    (midStore.rowIdx.toNat + 1 = midStore.cfg.val.NUM_FRAMES ∧ midStore.readyValid = true) ∧
    ({ midStore with readyValid := false, mrSig := false }.readyValid = false) ∧
    (midStall.stage = .store ∧ midStall.swapPending = true ∧ midStall.readyValid = true) := by decide

/-- A step that swaps, and one that does not. -/
theorem witness_SwapIsOneStep :
    (∃ t, step (moved { midStore with readyValid := false, mrSig := false } .E [0x02000000#32]) = .next t ∧
      t.activeSel ≠ midStore.activeSel) ∧
    (∃ t, step (moved midStore .E [0x02000000#32]) = .next t ∧ t.activeSel = midStore.activeSel) ∧
    ¬(moved midStore .E [0x02000000#32]).resetsNext := by
  refine ⟨⟨_, rfl, by decide⟩, ⟨_, rfl, by decide⟩, by unfold State.resetsNext; decide⟩

/-- A step that stores a row while the other matrix is ready. -/
theorem witness_ReadyMatrixIsNeverWritten :
    ∃ t, (moved midStore .E [0x02000000#32]).Inv ∧ step (moved midStore .E [0x02000000#32]) = .next t ∧
      ¬(moved midStore .E [0x02000000#32]).resetsNext ∧ (moved midStore .E [0x02000000#32]).readyValid = true :=
  ⟨_, moved_inv midStore_inv _ _, rfl, by unfold State.resetsNext; decide, rfl⟩

/-- The four clauses: a row stored without a swap, with one, a pending swap performed, and a quiet step. -/
theorem witness_ReadyMatrixHoldsTheRowsInOrder :
    midStore.Inv ∧ [samples [104, 105]].length = midStore.rowIdx.toNat ∧
    midStore.holdsRows midStore.activeSel [samples [104, 105]] ∧
    (∃ t, step (moved midStore .E [0x02000000#32]) = .next t ∧ (moved midStore .E [0x02000000#32]).storesNext ∧
      t.activeSel = midStore.activeSel) ∧
    (∃ t, step (moved { midStore with readyValid := false, mrSig := false } .E [0x02000000#32]) = .next t ∧
      t.activeSel ≠ midStore.activeSel) ∧
    (∃ t, step (moved { midStall with readyValid := false, mrSig := false } .E [0x02000000#32]) = .next t ∧
      ¬(moved { midStall with readyValid := false, mrSig := false } .E [0x02000000#32]).storesNext ∧
      t.activeSel ≠ midStall.activeSel) ∧
    (∃ t, step midStore = .next t ∧ ¬midStore.storesNext ∧ t.activeSel = midStore.activeSel) := by
  refine ⟨midStore_inv, rfl, by unfold State.holdsRows; decide, ⟨_, rfl, ?_, by decide⟩, ⟨_, rfl, by decide⟩,
    ⟨_, rfl, ?_, by decide⟩, ⟨_, rfl, ?_, by decide⟩⟩ <;> unfold State.storesNext <;> decide

theorem witness_MtakeTakesTheSignalOnce : mid.mrSig = true ∧ State.reset.mrSig = false := by decide

/-- The last element of the ready matrix, and the three ways to be illegal at their boundary. -/
theorem witness_MreadAnswersEveryReadyElement :
    (mid.Inv ∧ mid.readyValid = true ∧ (1#12).toNat < mid.cfg.val.NUM_FRAMES ∧ (1#12).toNat < mid.cfg.val.NCEPS) ∧
    mid.cfg.val.NUM_FRAMES ≤ (2#12).toNat ∧ mid.cfg.val.NCEPS ≤ (2#12).toNat ∧ State.reset.readyValid = false :=
  ⟨⟨mid_inv, by decide⟩, by decide⟩

theorem witness_ReleaseFreesTheReadyMatrix : mid.readyValid = true ∧ State.reset.readyValid = false := by decide

/-- Every clause's address, the ends of each range, and addresses of the gaps. -/
theorem witness_RdcsrReadsTheMap :
    [0x00#8, 0x01#8, 0x02#8, 0x03#8, 0x04#8, 0x05#8, 0x08#8, 0x09#8, 0x0A#8, 0x0B#8, 0x10#8, 0x11#8, 0x12#8, 0x13#8,
      0x14#8, 0x15#8, 0x16#8, 0x17#8].map (fun a => (mid.csr a).isSome) = List.replicate 18 true ∧
    [0x06#8, 0x07#8, 0x0C#8, 0x0F#8, 0x18#8, 0xFF#8].map (fun a => (mid.csr a).isSome) = List.replicate 6 false ∧
    mid.readPos < mid.cfg.val.C ∧ mid.writePos < mid.cfg.val.C := by decide

theorem witness_SignalOutputsFollowTheState :
    mid.rst = false ∧ { mid with rst := true }.rst = true ∧
      mid.statusWord = { mid with readPos := 6, writePos := 12 }.statusWord := by decide

theorem witness_ResetInputRestoresTheResetState :
    { midCopy with schedule := [.assertRst] }.schedule = [.assertRst] ∧
    { mid with schedule := [.releaseRst], rst := true }.schedule = [.releaseRst] ∧
    ((moved midReset .D [0x03000000#32]).rst = true ∧ (moved midReset .D [0x03000000#32]).schedule = [.port .D] ∧
      (moved midReset .D [0x03000000#32]).queues.get .D = [0x03000000#32]) ∧
    ((moved midReset .D []).rst = true ∧ (moved midReset .D []).queues.get .D = []) ∧
    { midReset with schedule := [.releaseRst] }.Inv ∧ { midReset with schedule := [.releaseRst] }.rst = true := by
  refine ⟨by decide, by decide, by decide, by decide, ?_, rfl⟩
  constructor <;> decide

/-- A next state, and both ways the environment is refused. -/
theorem witness_EveryStepAnswersInsideWellFormedUse :
    (moved mid .P [0x01000001#32]).Inv ∧ step (moved mid .P [0x01000001#32]) = .refused .payloadIncomplete ∧
    (moved midReset .D [0x03000000#32]).Inv ∧
    step (moved midReset .D [0x03000000#32]) = .refused .commandUnderReset ∧
    ∃ t, step (moved mid .D [0x03000000#32]) = .next t :=
  ⟨moved_inv mid_inv _ _, rfl, moved_inv midReset_inv _ _, rfl, _, rfl⟩

theorem witness_TokenCountIsBounded : midAcct.Inv ∧ midAcct.pPhase = .acct := ⟨midAcct_inv, rfl⟩

theorem witness_WrittenFrameNeverLacksItsToken :
    mid.Inv ∧ mid.stage = .idle ∧ mid.ePhase = .idle ∧ mid.pPhase ≠ .acct ∧ mid.cfg.val.W ≤ mid.unread :=
  ⟨mid_inv, by decide⟩

/-- One instruction of each port; a row stored, and a STEP with the swap pending. -/
theorem witness_EachPortWritesOnlyItsOwnState :
    (∃ t, exec .step midStore = .next t) ∧ (∃ t, exec .step midStall = .next t ∧ midStall.swapPending = true) ∧
    (∃ t, exec (.push 2#16) midCopy = .next t) ∧ (∃ t, exec .stIdle midRead = .next t) ∧
      (∃ t, exec .release mid = .next t) ∧ ∃ t, exec .avail mid = .next t :=
  ⟨⟨_, rfl⟩, ⟨_, rfl, rfl⟩, ⟨_, rfl⟩, ⟨_, rfl⟩, ⟨_, rfl⟩, _, rfl⟩

/-- A last event, a middle event, and a port with nothing to do. -/
theorem witness_EveryCommandEndsWithinThreeEvents :
    (∃ t, (moved midAcct .P []).Inv ∧ step (moved midAcct .P []) = .next t ∧ t.eventsLeft .P = 0) ∧
    (∃ t, (moved midCopy .P []).Inv ∧ step (moved midCopy .P []) = .next t ∧ t.eventsLeft .P = 1) ∧
    ∃ t, (moved mid .K []).Inv ∧ step (moved mid .K []) = .next t ∧ (moved mid .K []).queues.get .K = [] :=
  ⟨⟨_, moved_inv midAcct_inv _ _, rfl, rfl⟩, ⟨_, moved_inv midCopy_inv _ _, rfl, rfl⟩, _, moved_inv mid_inv _ _, rfl,
    rfl⟩

theorem witness_StatusesAreTheCommandsOwn :
    ∃ t r, exec .release mid = .next t ∧ t.responses = r :: mid.responses := ⟨_, _, rfl, rfl⟩

/-- Both ways the swap is not gated. -/
theorem witness_OneFrameIsNineEvents :
    (mid.Inv ∧ mid.stage = .idle ∧ mid.ePhase = .idle ∧ mid.frCount ≠ 0#16 ∧ mid.cfg.val.W ≤ mid.unread) ∧
    { mid with readyValid := false, mrSig := false }.readyValid = false ∧
    { mid with rowIdx := 0#13 }.rowIdx.toNat + 1 < mid.cfg.val.NUM_FRAMES := ⟨⟨mid_inv, by decide⟩, by decide⟩

theorem witness_DecodeAndEncodeAreInverse : decode (.command .K 0x06001000#32) = .ok (.mread 1#12 0#12) := by decide

/-- The highest bit, the highest index, the last sample of the frame. -/
theorem witness_FftLoadsInBitReversedOrder : 2 < 3 ∧ 7 < 2 ^ 3 ∧ 3 < WfConfig.tiny.val.NFFT ∧ 3 < WfConfig.tiny.val.W := by
  decide

theorem witness_ReferenceLogHasItsProperties : 32800 ≤ 32800 ∧ 32800 ≤ 32801 ∧ 2 ^ 61 - 1 < 2 ^ 61 := by decide

theorem witness_ReferenceLogBracketsTheLogarithm : 0 < 1024 ∧ 32801 < 2 ^ 64 ∧ logqRef 1024 32801 ≠ 0 := by decide +kernel

theorem witness_InvariantIsKeptByEveryStep : ∃ t, (moved midCopy .P []).Inv ∧ step (moved midCopy .P []) = .next t :=
  ⟨_, moved_inv midCopy_inv _ _, rfl⟩

/-- A step that counts a stall. -/
theorem witness_CountersNeverWrap :
    ∃ t, step (moved midStore .E [0x02000000#32]) = .next t ∧ ¬(moved midStore .E [0x02000000#32]).resetsNext ∧
      t.stallCnt.toNat = midStore.stallCnt.toNat + 1 :=
  ⟨_, rfl, by unfold State.resetsNext; decide, by decide⟩

end Sys2Proof.Tests
end

section
/-! SUPPORT. Proofs of the family 00_scope.md: what a scheduled port's event is (rules R19, R31, R33, R325), and how far it
brings the port's command (R74, R273). -/

namespace Sys2Proof.Machine

/-! ## A scheduled port's event -/

variable {s t : State} {p : Port} {rest : List Move}

theorem step_port (h : s.schedule = .port p :: rest) : step s = portEvent p { s with schedule := rest } := by
  unfold step
  rw [h]

/-- A command in flight makes its next event; the port's queue is not read (R19). -/
theorem portEvent_inFlight {i : Instr} (hr : s.rst = false) (hf : s.inFlight p = some i) : portEvent p s = exec i s := by
  simp [portEvent, hr, hf]

/-- A port between commands runs what its next word decodes to (R325). -/
theorem portEvent_command {w : Word} {ws : List Word} {i : Instr} (hr : s.rst = false) (hf : s.inFlight p = none)
    (hq : s.queues.get p = w :: ws) (hd : decodeOn p w = .ok i) :
    portEvent p s = exec i { s with queues := s.queues.set ws p } := by
  have hw : s.takeWord p = some (w, { s with queues := s.queues.set ws p }) :=
    (State.takeWord_eq_some s).mpr ⟨ws, hq, rfl⟩
  simp [portEvent, hr, hf, hw, hd]

/-- A port with no command and no word makes no event, under reset or not (log entry 23). -/
theorem portEvent_nothing (hf : s.inFlight p = none) (hq : s.queues.get p = []) : portEvent p s = .next s := by
  have hw : s.takeWord p = none := (State.takeWord_eq_none s).mpr hq
  simp [portEvent, hf, hw]

/-- Settles O7: the port's event is the decoded command's, and neither the move nor the queue is state `inFlight` reads. -/
theorem stepRunsTheDecodedInstruction : Obligations.StepRunsTheDecodedInstruction := by
  intro s p rest w ws i hs hl hq hr hd
  have hf : { s with schedule := rest }.inFlight p = none := (State.eventsLeft_eq_zero s p).mp hl
  rw [step_port hs]
  exact portEvent_command hr hf hq hd

/-- Settles O8: one clause for each way a port's event is not a new command's, and one for the empty schedule. -/
theorem stepContinuesTheCommandInFlight : Obligations.StepContinuesTheCommandInFlight := by
  intro s rest
  refine ⟨fun hs hp hr => ?push, fun hs he hr => ?idle, fun p hs hl hq => ?nothing, fun hs => ?empty⟩
  case push =>
    have hf : { s with schedule := rest }.inFlight .P = some (.push s.pN) := if_neg hp
    rw [step_port hs]
    exact portEvent_inFlight hr hf
  case idle =>
    have hf : { s with schedule := rest }.inFlight .E = some .stIdle := if_neg (by simp [he])
    rw [step_port hs]
    exact portEvent_inFlight hr hf
  case nothing =>
    have hf : { s with schedule := rest }.inFlight p = none := (State.eventsLeft_eq_zero s p).mp hl
    rw [step_port hs]
    exact portEvent_nothing hf hq
  case empty =>
    unfold step
    rw [hs]

/-! ## How far an event brings a port's command -/

/-- `t` is `s` after an event that answers once on port `p` and leaves both ports' phases where they were. -/
structure State.Answers (s t : State) (p : Port) : Prop where
  pPhase : t.pPhase = s.pPhase
  ePhase : t.ePhase = s.ePhase
  responses : ∃ st d, t.responses = ⟨p, st, d⟩ :: s.responses

/-- `t` is `s` after an event of port `p`'s command: it ends the command with one response, or answers nothing and leaves
fewer of its at most three events; no other port's command moves (R74). -/
structure State.Progress (s t : State) (p : Port) : Prop where
  others : ∀ p', p' ≠ p → t.eventsLeft p' = s.eventsLeft p'
  event : (t.eventsLeft p = 0 ∧ ∃ st d, t.responses = ⟨p, st, d⟩ :: s.responses) ∨
    (t.responses = s.responses ∧ 0 < t.eventsLeft p ∧ t.eventsLeft p ≤ 2 ∧
      (s.eventsLeft p ≠ 0 → t.eventsLeft p < s.eventsLeft p))

/-- Of port P's events `eventsLeft` reads `pPhase` only, so a change of it moves no other port's command (R31). -/
theorem State.eventsLeft_of_ne_P (he : t.ePhase = s.ePhase) : ∀ p, p ≠ .P → t.eventsLeft p = s.eventsLeft p
  | .P, h => absurd rfl h
  | .E, _ => by unfold State.eventsLeft; rw [he]
  | .K, _ => rfl
  | .D, _ => rfl

/-- Of port E's events `eventsLeft` reads `ePhase` only, so a change of it moves no other port's command (R33). -/
theorem State.eventsLeft_of_ne_E (hp : t.pPhase = s.pPhase) : ∀ p, p ≠ .E → t.eventsLeft p = s.eventsLeft p
  | .P, _ => by unfold State.eventsLeft; rw [hp]
  | .E, h => absurd rfl h
  | .K, _ => rfl
  | .D, _ => rfl

theorem pPhase_idle_of_eventsLeft (hl : s.eventsLeft .P = 0) : s.pPhase = .idle := by
  simpa [State.inFlight] using (State.eventsLeft_eq_zero s .P).mp hl

theorem ePhase_idle_of_eventsLeft (hl : s.eventsLeft .E = 0) : s.ePhase = .idle := by
  simpa [State.inFlight] using (State.eventsLeft_eq_zero s .E).mp hl

theorem State.Answers.eventsLeft (h : s.Answers t p) : ∀ p', t.eventsLeft p' = s.eventsLeft p'
  | .P => State.eventsLeft_of_ne_E h.pPhase _ (by decide)
  | .E => State.eventsLeft_of_ne_P h.ePhase _ (by decide)
  | .K => rfl
  | .D => rfl

theorem State.Answers.progress (h : s.Answers t p) (hl : s.eventsLeft p = 0) : s.Progress t p where
  others p' _ := h.eventsLeft p'
  event := .inl ⟨(h.eventsLeft p).trans hl, h.responses⟩

/-! The three events of PUSH (R31, R128). -/

theorem pushCheck_progress {n : BitVec 16} (hl : s.eventsLeft .P = 0) (h : pushCheck n s = .next t) :
    s.Progress t .P := by
  unfold pushCheck at h
  split at h
  case isTrue => cases h
  case isFalse =>
    split at h <;> cases h
    case isTrue => exact State.Answers.progress ⟨rfl, rfl, _, _, rfl⟩ hl
    case isFalse =>
      exact ⟨State.eventsLeft_of_ne_P rfl, .inr ⟨rfl, Nat.zero_lt_two, Nat.le_refl 2, fun h => absurd hl h⟩⟩

theorem pushCopy_progress (hp : s.pPhase = .copy) (h : pushCopy s = .next t) : s.Progress t .P := by
  have hl : s.eventsLeft .P = 2 := by rw [State.eventsLeft, hp]
  cases h
  exact ⟨State.eventsLeft_of_ne_P rfl, .inr ⟨rfl, Nat.zero_lt_one, Nat.le_succ 1, fun _ => hl ▸ Nat.lt_succ_self 1⟩⟩

theorem pushAccount_progress (h : pushAccount s = .next t) : s.Progress t .P := by
  cases h
  exact ⟨State.eventsLeft_of_ne_P rfl, .inl ⟨rfl, _, _, rfl⟩⟩

/-! The two events of ST.IDLE (R33, R155). -/

theorem readCheck_progress (hl : s.eventsLeft .E = 0) : s.Progress (readCheck s) .E := by
  rcases Nat.lt_or_ge s.unread s.cfg.val.W with hw | hw
  · rw [readCheck_underrun hw]
    exact State.Answers.progress ⟨rfl, rfl, _, _, rfl⟩ hl
  · rw [readCheck_admit hw]
    exact ⟨State.eventsLeft_of_ne_E rfl, .inr ⟨rfl, Nat.zero_lt_one, Nat.le_succ 1, fun h => absurd hl h⟩⟩

theorem idleCheck_progress (hl : s.eventsLeft .E = 0) : s.Progress (idleCheck s) .E := by
  cases hu : s.uflag with
  | true => rw [idleCheck_retry hu]; exact readCheck_progress hl
  | false =>
    by_cases h0 : s.frCount = 0#16
    · rw [idleCheck_wait hu h0]
      exact State.Answers.progress ⟨rfl, rfl, _, _, rfl⟩ hl
    · rw [idleCheck_take hu h0]
      obtain ⟨others, event⟩ := readCheck_progress (s := { s with frCount := s.frCount - 1#16 }) hl
      exact ⟨others, event⟩

theorem idleCopy_progress (h : idleCopy s = .next t) : s.Progress t .E := by
  unfold idleCopy at h
  split at h <;> cases h
  exact ⟨State.eventsLeft_of_ne_E rfl, .inl ⟨rfl, _, _, rfl⟩⟩

/-! The one event of every other stage operation and command (R19, R152). -/

theorem afterRow_answers (s : State) : s.Answers (afterRow s) .E := by
  unfold afterRow
  split_ifs <;> exact ⟨rfl, rfl, _, _, rfl⟩

theorem retrySwap_answers (s : State) : s.Answers (retrySwap s) .E := by
  unfold retrySwap
  split_ifs <;> exact ⟨rfl, rfl, _, _, rfl⟩

theorem execStStore_answers (h : execStStore s = .next t) : s.Answers t .E := by
  unfold execStStore at h
  split_ifs at h <;> cases h
  · exact retrySwap_answers s
  · obtain ⟨pPhase, ePhase, responses⟩ := afterRow_answers { s.storeRow with rowIdx := s.rowIdx + 1#13 }
    exact ⟨pPhase, ePhase, responses⟩

theorem execStep_progress (hl : s.eventsLeft .E = 0) (h : execStep s = .next t) : s.Progress t .E := by
  unfold execStep at h
  split at h
  case h_1 =>
    rw [execStIdle, ePhase_idle_of_eventsLeft hl] at h
    cases h
    exact idleCheck_progress hl
  case h_8 => exact (execStStore_answers h).progress hl
  all_goals
    cases h
    exact State.Answers.progress ⟨rfl, rfl, _, _, rfl⟩ hl

theorem execRdcsr_answers {a : BitVec 8} (h : execRdcsr a s = .next t) : s.Answers t .D := by
  unfold execRdcsr at h
  split at h <;> cases h <;> exact ⟨rfl, rfl, _, _, rfl⟩

theorem execMtake_answers (h : execMtake s = .next t) : s.Answers t .K := by
  unfold execMtake at h
  split at h <;> cases h <;> exact ⟨rfl, rfl, _, _, rfl⟩

theorem execMread_answers {r c : BitVec 12} (h : execMread r c s = .next t) : s.Answers t .K := by
  unfold execMread at h
  split at h
  · cases h
    exact ⟨rfl, rfl, _, _, rfl⟩
  · split at h <;> cases h
    exact ⟨rfl, rfl, _, _, rfl⟩

theorem execRelease_answers (h : execRelease s = .next t) : s.Answers t .K := by
  unfold execRelease at h
  split at h <;> cases h <;> exact ⟨rfl, rfl, _, _, rfl⟩

/-- The first event of any command a port accepts. -/
theorem exec_decoded_progress {w : Word} {i : Instr} (hl : s.eventsLeft p = 0) (hd : decodeOn p w = .ok i)
    (h : exec i s = .next t) : s.Progress t p := by
  rcases decodeOn_ok_cases hd with ⟨rfl, n, rfl⟩ | ⟨rfl, rfl⟩ | ⟨rfl, rfl | ⟨r, c, rfl⟩ | rfl⟩ | ⟨rfl, rfl | ⟨a, rfl⟩⟩
  case inl =>
    rw [exec, execPush, pPhase_idle_of_eventsLeft hl] at h
    exact pushCheck_progress hl h
  case inr.inl => exact execStep_progress hl h
  · exact (execMtake_answers h).progress hl
  · exact (execMread_answers h).progress hl
  · exact (execRelease_answers h).progress hl
  · cases h
    exact State.Answers.progress ⟨rfl, rfl, _, _, rfl⟩ hl
  · exact (execRdcsr_answers h).progress hl

/-- A port's event brings its command on, or the port had none. -/
theorem StepTo.progress (hs : s.schedule = .port p :: rest) (h : StepTo s t) :
    s.Progress t p ∨
      ((s.rst = false → s.eventsLeft p = 0) ∧ s.queues.get p = [] ∧ t = { s with schedule := rest }) := by
  cases h with
  | idle h | assertRst _ h | releaseRst _ h => rw [h] at hs; cases hs
  | pushCopy _ _ h hp _ e =>
    cases h.symm.trans hs
    obtain ⟨others, event⟩ := pushCopy_progress (s := { s with schedule := rest }) hp e
    exact .inl ⟨others, event⟩
  | pushAccount _ _ h _ _ e =>
    cases h.symm.trans hs
    obtain ⟨others, event⟩ := pushAccount_progress e
    exact .inl ⟨others, event⟩
  | idleCopy _ _ h _ _ e =>
    cases h.symm.trans hs
    obtain ⟨others, event⟩ := idleCopy_progress e
    exact .inl ⟨others, event⟩
  | nothing _ _ h hl hq =>
    cases h.symm.trans hs
    exact .inr ⟨hl, hq, rfl⟩
  | illegal _ _ _ _ _ h hl =>
    cases h.symm.trans hs
    exact .inl (State.Answers.progress ⟨rfl, rfl, _, _, rfl⟩ hl)
  | command _ _ _ ws _ _ h hl _ _ hd e =>
    cases h.symm.trans hs
    obtain ⟨others, event⟩ :=
      exec_decoded_progress (s := { s with schedule := rest, queues := s.queues.set ws p }) hl hd e
    exact .inl ⟨others, event⟩

/-- Settles O55: the event brings the command on (`StepTo.progress`); the invariant says that under reset, where a port makes
no event, it has no command in flight either. -/
theorem everyCommandEndsWithinThreeEvents : Obligations.EveryCommandEndsWithinThreeEvents := by
  intro s t p rest hinv hs h
  rcases (stepTo_of_step h).progress hs with ⟨others, event⟩ | ⟨hl, hq, rfl⟩
  · exact ⟨others, event.imp_right .inl⟩
  · have hl : s.eventsLeft p = 0 := by
      cases hr : s.rst with
      | false => exact hl hr
      | true => exact State.eventsLeft_atReset (hinv.under_reset hr) p
    exact ⟨fun _ _ => rfl, .inr (.inr ⟨hl, hq, rfl⟩)⟩

end Sys2Proof.Machine
end

section
/-! SUPPORT. TINY's tables against the reference formulas (00_scope.md rules R13, R16): rounding by distance, then one value
per table entry. -/

namespace Sys2Proof.Reference

/-- Rounding by distance: no half is ever reached, so its direction does not matter. -/
theorem rnd_eq_of_abs_lt {x : ℝ} {n : ℤ} (h : |x - n| < 1 / 2) : rnd x = n := by
  obtain ⟨h1, h2⟩ := abs_lt.mp h
  unfold rnd
  split
  · rw [Int.floor_eq_iff]
    constructor <;> linarith
  · rw [Int.ceil_eq_iff]
    constructor <;> linarith

/-- `q15` of a real within half a unit of `n / 32768` is `n`, saturated (R15, R16). -/
theorem q15_eq_within16 {x : ℝ} (n : ℤ) (h : |x * 32768 - n| < 1 / 2) : q15 x = Machine.within16 n := by
  rw [q15, rnd_eq_of_abs_lt h, Machine.within16]

theorem q15_zero : q15 0 = 0 := q15_eq_within16 0 (by norm_num)

/-- `1` is above the range: it saturates (R16). -/
theorem q15_one : q15 1 = 32767 := q15_eq_within16 32768 (by norm_num)

theorem q15_neg_one : q15 (-1) = -32768 := q15_eq_within16 (-32768) (by norm_num)

/-- Twice `cos (π / 4)`, to the digits that place `q15 (cos (π / 4))`. -/
theorem sqrt_two_bounds : (1.4142 : ℝ) < √2 ∧ √2 < 1.414215 :=
  ⟨Real.lt_sqrt_of_sq_lt (by norm_num), (Real.sqrt_lt' (by norm_num)).mpr (by norm_num)⟩

theorem q15_cos_pi_div_four : q15 (√2 / 2) = 23170 := by
  refine q15_eq_within16 23170 (abs_lt.mpr ?_)
  obtain ⟨h1, h2⟩ := sqrt_two_bounds
  push_cast
  constructor <;> linarith

theorem q15_neg_cos_pi_div_four : q15 (-(√2 / 2)) = -23170 := by
  refine q15_eq_within16 (-23170) (abs_lt.mpr ?_)
  obtain ⟨h1, h2⟩ := sqrt_two_bounds
  push_cast
  constructor <;> linarith

theorem cos_two_pi_div_three : Real.cos (2 * Real.pi / 3) = -(1 / 2) := by
  rw [show 2 * Real.pi / 3 = Real.pi - Real.pi / 3 by ring, Real.cos_pi_sub, Real.cos_pi_div_three]

/-- The window is symmetric (R178). -/
theorem ham_symm {W i : ℕ} (h : i ≤ W - 1) (hW : 1 < W) : ham W (W - 1 - i) = ham W i := by
  have hW' : ((W : ℝ) - 1) ≠ 0 := by
    have : (1 : ℝ) < W := by exact_mod_cast hW
    linarith
  have e : 2 * Real.pi * ((W - 1 - i : ℕ) : ℝ) / (W - 1) = 2 * Real.pi - 2 * Real.pi * i / (W - 1) := by
    rw [Nat.cast_sub h, Nat.cast_sub hW.le, Nat.cast_one]
    field_simp
  rw [ham, ham, e, Real.cos_two_pi_sub]

theorem ham_four_zero : ham 4 0 = 2621 := by
  have e : (0.54 - 0.46 * Real.cos (2 * Real.pi * (0 : ℕ) / ((4 : ℕ) - 1)) : ℝ) = 0.08 := by norm_num
  rw [ham, e]
  exact q15_eq_within16 2621 (by norm_num [abs_lt])

theorem ham_four_one : ham 4 1 = 25231 := by
  have e : (0.54 - 0.46 * Real.cos (2 * Real.pi * (1 : ℕ) / ((4 : ℕ) - 1)) : ℝ) = 0.77 := by
    rw [show 2 * Real.pi * (1 : ℕ) / ((4 : ℕ) - 1) = 2 * Real.pi / 3 by norm_num, cos_two_pi_div_three]
    norm_num
  rw [ham, e]
  exact q15_eq_within16 25231 (by norm_num [abs_lt])

theorem twRe_zero (NFFT : ℕ) : twRe NFFT 0 = 32767 := by
  rw [twRe, Nat.cast_zero, mul_zero, zero_div, Real.cos_zero, q15_one]

theorem twIm_zero (NFFT : ℕ) : twIm NFFT 0 = 0 := by
  rw [twIm, Nat.cast_zero, mul_zero, zero_div, Real.sin_zero, neg_zero, q15_zero]

/-- A quarter turn (R187). -/
theorem quarter_turn : 2 * Real.pi * (1 : ℕ) / (4 : ℕ) = Real.pi / 2 := by
  push_cast
  ring

theorem twRe_four_one : twRe 4 1 = 0 := by
  rw [twRe, quarter_turn, Real.cos_pi_div_two, q15_zero]

theorem twIm_four_one : twIm 4 1 = -32768 := by
  rw [twIm, quarter_turn, Real.sin_pi_div_two, q15_neg_one]

/-- The coefficient 0 row is constant (R222). -/
theorem dctc_zero (NF n : ℕ) : dctc NF 0 n = 32767 := by
  rw [dctc, Nat.cast_zero, mul_zero, zero_mul, zero_div, Real.cos_zero, q15_one]

theorem dctc_two_one_zero : dctc 2 1 0 = 23170 := by
  have e : Real.pi * (1 : ℕ) * (2 * (0 : ℕ) + 1) / (2 * (2 : ℕ)) = Real.pi / 4 := by
    push_cast
    ring
  rw [dctc, e, Real.cos_pi_div_four, q15_cos_pi_div_four]

theorem dctc_two_one_one : dctc 2 1 1 = -23170 := by
  have e : Real.pi * (1 : ℕ) * (2 * (1 : ℕ) + 1) / (2 * (2 : ℕ)) = Real.pi - Real.pi / 4 := by
    push_cast
    ring
  rw [dctc, e, Real.cos_pi_sub, Real.cos_pi_div_four, q15_neg_cos_pi_div_four]

theorem q15_alpha : q15 0.97 = 31785 := q15_eq_within16 31785 (by norm_num [abs_lt])

/-- Settles O60: each table entry is the value of its formula; the window's second half follows by symmetry. -/
theorem tinyTablesAreTheReferenceFormulas : Obligations.TinyTablesAreTheReferenceFormulas := by
  refine ⟨fun i hi => ?ham, fun t ht => ?twiddle, fun k hk n hn => ?dct, q15_alpha.symm⟩
  case ham =>
    interval_cases i
    · exact ham_four_zero.symm
    · exact ham_four_one.symm
    · exact ((ham_symm (by decide) (by decide)).trans ham_four_one).symm
    · exact ((ham_symm (by decide) (by decide)).trans ham_four_zero).symm
  case twiddle =>
    interval_cases t
    · exact ⟨(twRe_zero 4).symm, (twIm_zero 4).symm⟩
    · exact ⟨twRe_four_one.symm, twIm_four_one.symm⟩
  case dct =>
    interval_cases k
    · rw [dctc_zero]
      interval_cases n <;> rfl
    · interval_cases n
      · exact dctc_two_one_zero.symm
      · exact dctc_two_one_one.symm

end Sys2Proof.Reference
end

section
/-! SUPPORT. The events of the CORE, said once with what each one writes (10_state.md rules R20 to R46): the inversion that
the family 10_state.md rests on. -/

namespace Sys2Proof.Machine

/-! ## The work buffers -/

/-- The six work buffers (R36 to R40). -/
structure Buffers where
  frame : List Sample
  fre : List Int
  fim : List Int
  power : List Word
  melq : List Sample
  ceps : List Sample

/-- The clauses of `State.Inv` on the work buffers: what stage `g` reads is written whole (R52, R310). -/
structure Buffers.Written (c : Config) (g : Stage) (b : Buffers) : Prop where
  frame : g.code ≠ 0#3 → b.frame.length = c.W
  spectrum : 3#3 < g.code → b.fre.length = c.NFFT ∧ b.fim.length = c.NFFT
  power : 4#3 < g.code → b.power.length = c.NBINS
  melq : 5#3 < g.code → b.melq.length = c.NF
  ceps : 6#3 < g.code → b.ceps.length = c.NCEPS

/-- The work buffers as the state holds them: what the operations wrote, nothing after reset (log entry 7). -/
def State.buffers (s : State) : Buffers := ⟨s.frame, s.fre, s.fim, s.power, s.melq, s.ceps⟩

theorem State.Inv.buffersWritten {s : State} (h : s.Inv) : s.buffers.Written s.cfg.val s.stage :=
  ⟨h.frame_written, h.spectrum_written, h.power_written, h.melq_written, h.ceps_written⟩

/-! ## The events -/

/-- What one event of a port makes of the state, as one flat update, with the guard under which it does. In the two checks of
ST.IDLE.A, `c` is the token count once the read holds its token: a retry holds it already, else it is taken (R155, R156). -/
inductive Event (s : State) : State → Prop
  /-- An event that only answers. -/
  | answer (p : Port) (st : Status) (d : Word) : Event s (s.respond p st d)
  /-- PUSH.A drops the block (R123). -/
  | overrun (n : BitVec 16) (hp : s.pPhase = .idle) :
    Event s ({ s.latchPush n with overrunCnt := satInc s.overrunCnt }.respond .P .overrun 0#32)
  /-- PUSH.A admits the write (R122). -/
  | admitWrite (n : BitVec 16) (hp : s.pPhase = .idle) (hb : n.toNat ≤ s.beats.length) (hf : n.toNat ≤ s.free) :
    Event s { s.latchPush n with pPhase := .copy }
  /-- PUSH.B (R124). -/
  | copyBlock (t : State) (hp : s.pPhase = .copy) (e : pushCopy s = .next t) : Event s t
  /-- PUSH.C (R125). -/
  | accountBlock (t : State) (hp : s.pPhase = .acct) (e : pushAccount s = .next t) : Event s t
  /-- ST.IDLE.A on too few samples (R126). -/
  | underrun (c : BitVec 16) (hs : s.stage = .idle) (hc : c.toNat + 1 = s.frCount.toNat + s.claimed) :
    Event s ({ s with frCount := c, uflag := true, underrunCnt := satInc s.underrunCnt }.respond .E .underrun s.stage.word)
  /-- ST.IDLE.A admits the read (R126). -/
  | admitRead (c : BitVec 16) (hs : s.stage = .idle) (hc : c.toNat + 1 = s.frCount.toNat + s.claimed)
    (hw : s.cfg.val.W ≤ s.unread) : Event s { s with frCount := c, ePhase := .copy }
  /-- ST.IDLE.B (R127). -/
  | readFrame (x : List Sample) (he : s.ePhase = .copy) (hx : x.length = s.cfg.val.W) :
    Event s { s with
      frame := x
      readPos := ringAddr s.cfg.val.C s.readPos s.cfg.val.S
      ePhase := .idle
      uflag := false
      stage := .preEmphasis
      responses := ⟨.E, .ok, Stage.preEmphasis.word⟩ :: s.responses }
  /-- One of the six stages between IDLE and STORE (R152), `k` elements saturated. -/
  | compute (b : Buffers) (g : Stage) (k : Nat) (hi : s.stage ≠ .idle) (hs : s.stage ≠ .store)
    (hb : s.buffers.Written s.cfg.val s.stage → b.Written s.cfg.val g) :
    Event s { s with
      frame := b.frame, fre := b.fre, fim := b.fim, power := b.power, melq := b.melq, ceps := b.ceps
      clampCnt := satAdd s.clampCnt k
      stage := g
      responses := ⟨.E, stageStatus k, g.word⟩ :: s.responses }
  /-- ST.STORE with room for further rows (R233). -/
  | storeRow (hp : s.swapPending = false) (hn : s.rowIdx.toNat + 1 < s.cfg.val.NUM_FRAMES) :
    Event s { s with
      mat := s.storeRow.mat
      rowIdx := s.rowIdx + 1#13
      stage := .idle
      responses := ⟨.E, .ok, Stage.idle.word⟩ :: s.responses }
  /-- ST.STORE of the last row, the other matrix idle (R236). -/
  | storeSwap (hp : s.swapPending = false) (hn : s.rowIdx.toNat + 1 = s.cfg.val.NUM_FRAMES) (hv : s.readyValid = false) :
    Event s { s with
      mat := s.storeRow.mat
      activeSel := !s.activeSel, readyValid := true, mrSig := true, rowIdx := 0#13
      stage := .idle
      responses := ⟨.E, .ok, Stage.idle.word⟩ :: s.responses }
  /-- ST.STORE of the last row, gated by the consumer (R235). -/
  | storeStall (hs : s.stage = .store) (hp : s.swapPending = false) (hn : s.rowIdx.toNat + 1 = s.cfg.val.NUM_FRAMES)
    (hv : s.readyValid = true) :
    Event s { s with
      mat := s.storeRow.mat
      rowIdx := s.rowIdx + 1#13
      swapPending := true
      stallCnt := satInc s.stallCnt
      responses := ⟨.E, .stall, 7#32⟩ :: s.responses }
  /-- The retry that swaps (R235). -/
  | pendingSwap (hp : s.swapPending = true) (hv : s.readyValid = false) :
    Event s { s with
      activeSel := !s.activeSel, readyValid := true, mrSig := true, rowIdx := 0#13, swapPending := false
      stage := .idle
      responses := ⟨.E, .ok, Stage.idle.word⟩ :: s.responses }
  /-- MTAKE of a raised signal (R238). -/
  | takeSignal (d : Word) : Event s ({ s with mrSig := false }.respond .K .ok d)
  /-- RELEASE of a ready matrix (R240). -/
  | releaseMatrix (hv : s.readyValid = true) :
    Event s ({ s with readyValid := false, mrSig := false }.respond .K .ok 0#32)

/-! ## Every event is one of these -/

variable {s t : State}

/-- A stage that cannot saturate, as a `compute` event. -/
theorem Event.computeExact (b : Buffers) (g : Stage) (hi : s.stage ≠ .idle) (hs : s.stage ≠ .store)
    (hb : s.buffers.Written s.cfg.val s.stage → b.Written s.cfg.val g) :
    Event s ({ s with
      frame := b.frame, fre := b.fre, fim := b.fim, power := b.power, melq := b.melq, ceps := b.ceps }.advance g) := by
  have e := Event.compute b g 0 hi hs hb
  rw [satAdd_zero] at e
  exact e

theorem pushCheck_event {n : BitVec 16} (hp : s.pPhase = .idle) (h : pushCheck n s = .next t) : Event s t := by
  unfold pushCheck at h
  split_ifs at h with hb hf <;> cases h
  · exact .overrun n hp
  · exact .admitWrite n hp (Nat.not_lt.mp hb) (Nat.not_lt.mp hf)

/-- The check of a read that holds its token, `c` tokens left (R126). -/
theorem readCheck_event (c : BitVec 16) (hs : s.stage = .idle) (hc : c.toNat + 1 = s.frCount.toNat + s.claimed) :
    Event s (readCheck { s with frCount := c }) := by
  rcases Nat.lt_or_ge s.unread s.cfg.val.W with hw | hw
  · rw [readCheck_underrun (s := { s with frCount := c }) hw]
    exact .underrun c hs hc
  · rw [readCheck_admit (s := { s with frCount := c }) hw]
    exact .admitRead c hs hc hw

theorem idleCheck_event (hs : s.stage = .idle) (he : s.ePhase = .idle) : Event s (idleCheck s) := by
  cases hu : s.uflag with
  | true =>
    rw [idleCheck_retry hu]
    exact readCheck_event s.frCount hs (by simp [State.claimed, hu])
  | false =>
    by_cases h0 : s.frCount = 0#16
    · rw [idleCheck_wait hu h0]
      exact .answer _ _ _
    · have : s.frCount.toNat ≠ 0 := fun e => h0 (BitVec.eq_of_toNat_eq e)
      have hc : s.claimed = 0 := by simp [State.claimed, hu, he]
      rw [idleCheck_take hu h0]
      exact readCheck_event _ hs (by rw [toNat_takeToken h0, hc]; omega)

theorem idleCopy_event (he : s.ePhase = .copy) (h : idleCopy s = .next t) : Event s t := by
  unfold idleCopy at h
  split at h <;> cases h
  next x hx => exact .readFrame x he (ringRead_ok.mp hx).1

/-- Once the row is stored and counted: room left, the swap, or the gate (R235). -/
theorem afterRow_event (hs : s.stage = .store) (hp : s.swapPending = false)
    (hr : s.rowIdx.toNat < s.cfg.val.NUM_FRAMES) :
    Event s (afterRow { s with mat := s.storeRow.mat, rowIdx := s.rowIdx + 1#13 }) := by
  have hn := toNat_rowIdx_succ hr
  by_cases hlt : (s.rowIdx + 1#13).toNat < s.cfg.val.NUM_FRAMES
  · rw [afterRow_go hlt]
    exact .storeRow hp (hn ▸ hlt)
  · have hfull : s.rowIdx.toNat + 1 = s.cfg.val.NUM_FRAMES := by omega
    rcases Bool.eq_false_or_eq_true s.readyValid with hv | hv
    · rw [afterRow_stall (s := { s with mat := s.storeRow.mat, rowIdx := s.rowIdx + 1#13 }) hlt hv]
      exact .storeStall hs hp hfull hv
    · rw [afterRow_swap (s := { s with mat := s.storeRow.mat, rowIdx := s.rowIdx + 1#13 }) hlt hv]
      exact .storeSwap hp hfull hv

theorem execStStore_event (hs : s.stage = .store) (h : execStStore s = .next t) : Event s t := by
  cases hp : s.swapPending with
  | true =>
    rw [execStStore_pending hp] at h
    cases h
    cases hv : s.readyValid with
    | true => rw [retrySwap_stall hv]; exact .answer _ _ _
    | false => rw [retrySwap_swap hv]; exact .pendingSwap hp hv
  | false =>
    by_cases hr : s.rowIdx.toNat < s.cfg.val.NUM_FRAMES
    · rw [execStStore_store hp hr] at h
      cases h
      exact afterRow_event hs hp hr
    · simp [execStStore, hp, hr] at h

/-- The work arrays after the load and the first `p` passes (R189, R190); after `LOG2N` passes they are `fftOf`. -/
def fftPasses (c : Config) (x : Nat → Int) (p : Nat) : Spectrum :=
  (List.range p).foldl (fun z s => fftPass c (s + 1) z) (fftLoad c x)

theorem fftOf_eq (c : Config) (x : Nat → Int) : fftOf c x = fftPasses c x c.LOG2N := rfl

theorem fftPasses_zero (c : Config) (x : Nat → Int) : fftPasses c x 0 = fftLoad c x := rfl

theorem fftPasses_succ (c : Config) (x : Nat → Int) (p : Nat) :
    fftPasses c x (p + 1) = fftPass c (p + 1) (fftPasses c x p) := by
  rw [fftPasses, List.range_succ, List.foldl_append]
  rfl

theorem fftPasses_length (c : Config) (x : Nat → Int) (p : Nat) :
    (fftPasses c x p).1.length = c.NFFT ∧ (fftPasses c x p).2.length = c.NFFT := by
  induction p with
  | zero => exact fftLoad_length c x
  | succ p ih =>
    obtain ⟨h1, h2⟩ := fftPass_length c (p + 1) (fftPasses c x p)
    rw [fftPasses_succ]
    exact ⟨h1.trans ih.1, h2.trans ih.2⟩

/-! The six stages between IDLE and STORE: each writes its output whole, and leaves the inputs it found written. -/

theorem execStPreemph_event (hs : s.stage = .preEmphasis) (h : execStPreemph s = .next t) : Event s t := by
  cases h
  have hl : (preemphLoop s.cfg.val.ALPHA_Q15 (s.cfg.val.W - 1) s.frameNow 0).1.length = s.cfg.val.W := by
    have := s.cfg.S_lt_W
    rw [(preemphLoop_spec _ _ _ 0 (by rw [frameNow_length]; omega)).1, frameNow_length]
  refine .compute ⟨_, s.fre, s.fim, s.power, s.melq, s.ceps⟩ _ _ (by simp [hs]) (by simp [hs]) fun _ => ?_
  constructor <;> simp [Stage.code, hl]

theorem execStWindow_event (hs : s.stage = .window) (h : execStWindow s = .next t) : Event s t := by
  cases h
  refine .computeExact ⟨_, s.fre, s.fim, s.power, s.melq, s.ceps⟩ _ (by simp [hs]) (by simp [hs]) fun _ => ?_
  constructor <;> simp [Stage.code]

theorem execStFft_event (hs : s.stage = .fft) (h : execStFft s = .next t) : Event s t := by
  cases h
  refine .computeExact ⟨s.frame, _, _, s.power, s.melq, s.ceps⟩ _ (by simp [hs]) (by simp [hs]) fun w => ?_
  rw [hs] at w
  have hl := fftPasses_length s.cfg.val (fun i => (s.frameAt i).toInt) s.cfg.val.LOG2N
  rw [← fftOf_eq] at hl
  constructor
  case frame => exact fun _ => w.frame (by decide)
  case spectrum => exact fun _ => hl
  all_goals simp [Stage.code]

theorem execStPower_event (hs : s.stage = .power) (h : execStPower s = .next t) : Event s t := by
  cases h
  refine .compute ⟨s.frame, s.fre, s.fim, _, s.melq, s.ceps⟩ _ _ (by simp [hs]) (by simp [hs]) fun w => ?_
  rw [hs] at w
  constructor
  case frame => exact fun _ => w.frame (by decide)
  case spectrum => exact fun _ => w.spectrum (by decide)
  all_goals simp [Stage.code]

theorem execStMel_event (hs : s.stage = .mel) (h : execStMel s = .next t) : Event s t := by
  cases h
  refine .compute ⟨s.frame, s.fre, s.fim, s.power, _, s.ceps⟩ _ _ (by simp [hs]) (by simp [hs]) fun w => ?_
  rw [hs] at w
  constructor
  case frame => exact fun _ => w.frame (by decide)
  case spectrum => exact fun _ => w.spectrum (by decide)
  case power => exact fun _ => w.power (by decide)
  all_goals simp [Stage.code]

theorem execStDct_event (hs : s.stage = .dct) (h : execStDct s = .next t) : Event s t := by
  cases h
  refine .compute ⟨s.frame, s.fre, s.fim, s.power, s.melq, _⟩ _ _ (by simp [hs]) (by simp [hs]) fun w => ?_
  rw [hs] at w
  constructor
  case frame => exact fun _ => w.frame (by decide)
  case spectrum => exact fun _ => w.spectrum (by decide)
  case power => exact fun _ => w.power (by decide)
  case melq => exact fun _ => w.melq (by decide)
  case ceps => simp

/-- `STEP` between commands (R151). -/
theorem execStep_event (he : s.ePhase = .idle) (h : execStep s = .next t) : Event s t := by
  unfold execStep at h
  split at h <;> rename_i hs
  · rw [execStIdle, he] at h
    cases h
    exact idleCheck_event hs he
  · exact execStPreemph_event hs h
  · exact execStWindow_event hs h
  · exact execStFft_event hs h
  · exact execStPower_event hs h
  · exact execStMel_event hs h
  · exact execStDct_event hs h
  · exact execStStore_event hs h

theorem execRdcsr_event {a : BitVec 8} (h : execRdcsr a s = .next t) : Event s t := by
  unfold execRdcsr at h
  split at h <;> cases h <;> exact .answer _ _ _

theorem execMtake_event (h : execMtake s = .next t) : Event s t := by
  unfold execMtake at h
  split at h <;> cases h
  · exact .takeSignal _
  · exact .answer _ _ _

theorem execMread_event {r c : BitVec 12} (h : execMread r c s = .next t) : Event s t := by
  unfold execMread at h
  split at h
  · cases h
    exact .answer _ _ _
  · split at h <;> cases h
    exact .answer _ _ _

theorem execRelease_event (h : execRelease s = .next t) : Event s t := by
  unfold execRelease at h
  split at h <;> cases h
  · exact .releaseMatrix ‹_›
  · exact .answer _ _ _

/-- The first event of a command a port accepts. -/
theorem exec_decoded_event {p : Port} {w : Word} {i : Instr} (hl : s.eventsLeft p = 0) (hd : decodeOn p w = .ok i)
    (h : exec i s = .next t) : Event s t := by
  rcases decodeOn_ok_cases hd with ⟨rfl, n, rfl⟩ | ⟨rfl, rfl⟩ | ⟨rfl, rfl | ⟨r, c, rfl⟩ | rfl⟩ | ⟨rfl, rfl | ⟨a, rfl⟩⟩
  case inl =>
    have hp := pPhase_idle_of_eventsLeft hl
    rw [exec, execPush, hp] at h
    exact pushCheck_event hp h
  case inr.inl => exact execStep_event (ePhase_idle_of_eventsLeft hl) h
  · exact execMtake_event h
  · exact execMread_event h
  · exact execRelease_event h
  · cases h
    exact .answer _ _ _
  · exact execRdcsr_event h

/-- What one step can do: the reset input moves, no port makes an event, or one port makes one, outside reset. The
environment's move, and the words its requesters still have, are set apart as `rest` and `q`. -/
theorem step_event_cases (h : step s = .next t) :
    (∃ rest, s.schedule = .assertRst :: rest ∧ t = { s with schedule := rest }.assertReset) ∨
    (∃ rest, s.schedule = .releaseRst :: rest ∧ t = { s with schedule := rest }.releaseReset) ∨
    (∃ rest, t = { s with schedule := rest }) ∨
    (s.rst = false ∧ ∃ rest q, Event { s with schedule := rest, queues := q } t) := by
  cases stepTo_of_step h with
  | idle => exact .inr (.inr (.inl ⟨s.schedule, rfl⟩))
  | assertRst rest hs => exact .inl ⟨rest, hs, rfl⟩
  | releaseRst rest hs => exact .inr (.inl ⟨rest, hs, rfl⟩)
  | nothing p rest => exact .inr (.inr (.inl ⟨rest, rfl⟩))
  | pushCopy rest _ _ hp hr e => exact .inr (.inr (.inr ⟨hr, rest, s.queues, .copyBlock _ hp e⟩))
  | pushAccount rest _ _ hp hr e => exact .inr (.inr (.inr ⟨hr, rest, s.queues, .accountBlock _ hp e⟩))
  | idleCopy rest _ _ he hr e => exact .inr (.inr (.inr ⟨hr, rest, s.queues, idleCopy_event he e⟩))
  | illegal p rest w ws _ _ _ _ hr => exact .inr (.inr (.inr ⟨hr, rest, _, .answer _ _ _⟩))
  | command p rest w ws i _ _ hl _ hr hd e =>
    exact .inr (.inr (.inr ⟨hr, rest, s.queues.set ws p, exec_decoded_event hl hd e⟩))

end Sys2Proof.Machine
end

section
/-! SUPPORT. Proofs of the family 10_state.md: the invariant of rule R54 at reset and over every event, the unread window
(rules R24, R122), and that no step faults (R52, R315). -/

namespace Sys2Proof.Machine

variable {s t : State}

/-! ## The invariant at reset (R53) -/

theorem unreadCount_zero (C : Nat) : unreadCount C 0 0 = 0 := by simp [unreadCount]

/-- IDLE reads no buffer. -/
theorem Buffers.written_idle (c : Config) (b : Buffers) : b.Written c .idle := by
  constructor <;> simp [Stage.code]

theorem Buffers.written_preEmphasis {c : Config} {b : Buffers} (h : b.frame.length = c.W) :
    b.Written c .preEmphasis := by
  constructor <;> simp [Stage.code, h]

/-- The reset state beside any environment meets the invariant. -/
theorem State.atReset_inv (s : State) : s.atReset.Inv where
  readPos_lt := s.cfg.C_pos
  writePos_lt := s.cfg.C_pos
  uflag_stage := nofun
  copy_stage := nofun
  copy_unread := nofun
  pending_stage := nofun
  pending_row := nofun
  row_lt _ := s.cfg.NUM_FRAMES_pos
  signal_ready := nofun
  stride_lt := s.cfg.S_pos
  tokens := (unreadCount_zero _).trans (by simp [State.atReset, State.resetOf, State.claimed, State.unaccounted])
  push_fits := nofun
  push_payload := nofun
  ring_wf := .nil
  mat_wf := .nil
  ring_addr := nofun
  mat_addr := nofun
  unread_written k hk := absurd (hk.trans_eq (unreadCount_zero _)) k.not_lt_zero
  ready_written := nofun
  rows_written := nofun
  frame_written := (Buffers.written_idle s.cfg.val s.atReset.buffers).frame
  spectrum_written := (Buffers.written_idle s.cfg.val s.atReset.buffers).spectrum
  power_written := (Buffers.written_idle s.cfg.val s.atReset.buffers).power
  melq_written := (Buffers.written_idle s.cfg.val s.atReset.buffers).melq
  ceps_written := (Buffers.written_idle s.cfg.val s.atReset.buffers).ceps
  under_reset _ := rfl

/-- Settles O49: the reset state is the one of `State.atReset_inv`, beside an environment with nothing pending. -/
theorem invariantHoldsAtReset : Obligations.InvariantHoldsAtReset := fun c => State.atReset_inv (State.resetOf c)

/-! ## What the invariant gives -/

/-- Outside reset the clause on reset asks nothing. -/
theorem not_under_reset {P : Prop} (hr : s.rst = false) (h : s.rst = true) : P :=
  absurd (hr.symm.trans h) Bool.false_ne_true

/-- The environment's data is no part of the invariant. -/
theorem State.Inv.withEnv (h : s.Inv) (m : List Move) (q : CommandQueues) :
    { s with schedule := m, queues := q }.Inv :=
  { h with under_reset := s.under_reset_env h.under_reset q s.beats m s.responses }

theorem State.Inv.no_uflag {P : Prop} (h : s.Inv) (hs : s.stage ≠ .idle) (hu : s.uflag = true) : P :=
  absurd (h.uflag_stage hu) hs

theorem State.Inv.no_copy {P : Prop} (h : s.Inv) (hs : s.stage ≠ .idle) (he : s.ePhase = .copy) : P :=
  absurd (h.copy_stage he) hs

theorem State.Inv.no_pending {P : Prop} (h : s.Inv) (hs : s.stage ≠ .store) (hp : s.swapPending = true) : P :=
  absurd (h.pending_stage hp) hs

theorem State.unaccounted_eq_zero {f : PPhase} (hp : s.pPhase = f) (hf : f ≠ .acct) : s.unaccounted = 0 :=
  if_neg (hp ▸ hf)

theorem State.unaccounted_eq_block (hp : s.pPhase = .acct) : s.unaccounted = s.pN.toNat := if_pos hp

theorem State.claimed_eq_one (h : s.uflag = true ∨ s.ePhase = .copy) : s.claimed = 1 := if_pos h

theorem State.claimed_eq_zero (hu : s.uflag = false) (he : s.ePhase = .idle) : s.claimed = 0 := by
  simp [State.claimed, hu, he]

/-- A block that fits leaves the ring one sample short of full at most (R121, R122). -/
theorem State.Inv.block_lt (h : s.Inv) (hp : s.pPhase = .copy) : s.unread + s.pN.toNat < s.cfg.val.C := by
  have := h.push_fits hp
  have := s.unread_lt
  rw [s.free_eq] at *
  omega

/-- Every token and the open stride count unread samples (R160). -/
theorem State.Inv.frCount_mul_le (h : s.Inv) :
    s.frCount.toNat * s.cfg.val.S + s.strideCnt.toNat + s.unaccounted ≤ s.unread := by
  have := h.tokens
  rw [Nat.add_mul] at this
  omega

/-- The tokens PUSH.C leaves still count unread samples, so that its saturation changes nothing (R160). -/
theorem State.Inv.frCount_accounted (h : s.Inv) (hp : s.pPhase = .acct) :
    min (s.frCount.toNat + (strideTokens s.cfg.val.S s.strideCnt.toNat s.pN.toNat).1) 65535 =
      s.frCount.toNat + (strideTokens s.cfg.val.S s.strideCnt.toNat s.pN.toNat).1 := by
  have hu : s.unaccounted = s.pN.toNat := if_pos hp
  have hle := h.frCount_mul_le
  have htot := strideTokens_total s.cfg.val.S s.strideCnt.toNat s.pN.toNat
  have hS := Nat.le_mul_of_pos_right (s.frCount.toNat + (strideTokens s.cfg.val.S s.strideCnt.toNat s.pN.toNat).1)
    s.cfg.S_pos
  rw [Nat.add_mul] at hS
  have := s.unread_lt
  have := s.cfg.C_le
  exact Nat.min_eq_left (by omega)

/-! ## The unread window (R24, R122, R124) -/

/-- Storing a block that fits touches no unread sample (R122). -/
theorem ringWrite_read_unread {C w r : Nat} {m : Memory} {xs : List Sample} (hm : m.wf) (hw : w < C) (hr : r < C)
    (hfit : unreadCount C w r + xs.length < C) {k : Nat} (hk : k < unreadCount C w r) :
    (ringWrite C m w xs).read (ringAddr C r k) = m.read (ringAddr C r k) := by
  refine ringWrite_read_other xs hm w _ fun j hj e => ?_
  rw [ringAddr_writePos hw hr] at e
  have := ringAddr_inj (by omega) (by omega) e
  omega

/-- After the block is stored, the old unread samples and the block's are written. -/
theorem ringWrite_written {C w r : Nat} {m : Memory} {xs : List Sample} (hm : m.wf) (hw : w < C) (hr : r < C)
    (hfit : unreadCount C w r + xs.length < C)
    (h : ∀ k < unreadCount C w r, (m.read (ringAddr C r k)).isSome = true) {k : Nat}
    (hk : k < unreadCount C w r + xs.length) : ((ringWrite C m w xs).read (ringAddr C r k)).isSome = true := by
  rcases Nat.lt_or_ge k (unreadCount C w r) with hlt | hge
  · rw [ringWrite_read_unread hm hw hr hfit hlt]
    exact h k hlt
  · obtain ⟨j, rfl⟩ := Nat.exists_eq_add_of_le hge
    rw [← ringAddr_writePos hw hr, ringWrite_read_at xs hm w j (by omega) (by omega)]
    simp [show j < xs.length by omega]

/-- The block PUSH.B stores has the latched length. -/
theorem State.Inv.block_length (h : s.Inv) (hp : s.pPhase = .copy) :
    (s.pPayload.take s.pN.toNat).length = s.pN.toNat := by
  rw [List.length_take, h.push_payload hp, Nat.min_self]

/-- RING is port P's, and only PUSH.B stores to it (R124). -/
theorem Event.ring_eq (hp : s.pPhase ≠ .copy) (e : Event s t) : t.ring = s.ring := by
  cases e with
  | copyBlock _ hc => exact absurd hc hp
  | accountBlock _ _ e => cases e; rfl
  | _ => rfl

/-- No event of any port overwrites an unread sample. -/
theorem Event.unread_kept (h : s.Inv) (e : Event s t) {k : Nat} (hk : k < s.unread) :
    t.ring.read (ringAddr s.cfg.val.C s.readPos k) = s.ring.read (ringAddr s.cfg.val.C s.readPos k) := by
  by_cases hp : s.pPhase = .copy
  case neg => rw [e.ring_eq hp]
  case pos =>
    cases e with
    | copyBlock _ _ e =>
      cases e
      exact ringWrite_read_unread h.ring_wf h.writePos_lt h.readPos_lt
        (by rw [h.block_length hp]; exact h.block_lt hp) hk
    | overrun _ hi | admitWrite _ hi | accountBlock _ hi => rw [hi] at hp; cases hp
    | _ => rfl

/-- Settles O16: RING changes at PUSH.B alone, which stores past the unread window (`Event.unread_kept`). -/
theorem unreadSamplesAreNeverOverwritten : Obligations.UnreadSamplesAreNeverOverwritten := by
  intro s t h hstep hreset k hk
  rcases step_event_cases hstep with ⟨rest, hs, -⟩ | ⟨rest, -, rfl⟩ | ⟨rest, rfl⟩ | ⟨-, rest, q, e⟩
  · exact absurd (congrArg List.head? hs) hreset
  · rfl
  · rfl
  · have := e.unread_kept (h.withEnv rest q) hk
    exact this

/-! ## Every event keeps the invariant (R54) -/

/-! PUSH (R128). -/

theorem overrun_inv (h : s.Inv) (hr : s.rst = false) (n : BitVec 16) (hp : s.pPhase = .idle) :
    ({ s.latchPush n with overrunCnt := satInc s.overrunCnt }.respond .P .overrun 0#32).Inv :=
  { h with
    tokens := h.tokens.trans (by simp [State.unaccounted, State.claimed, hp])
    push_fits := fun hc => nomatch hp.symm.trans hc
    push_payload := fun hc => nomatch hp.symm.trans hc
    under_reset := not_under_reset hr }

theorem admitWrite_inv (h : s.Inv) (hr : s.rst = false) {n : BitVec 16} (hp : s.pPhase = .idle)
    (hb : n.toNat ≤ s.beats.length) (hf : n.toNat ≤ s.free) : { s.latchPush n with pPhase := .copy }.Inv :=
  { h with
    tokens := h.tokens.trans (congrArg (_ + ·) (State.unaccounted_eq_zero hp (by decide)))
    push_fits := fun _ => hf
    push_payload := fun _ => by simp [hb]
    under_reset := not_under_reset hr }

theorem pushCopy_inv (h : s.Inv) (hr : s.rst = false) (hp : s.pPhase = .copy) (e : pushCopy s = .next t) : t.Inv := by
  cases e
  have hu := unreadCount_write h.writePos_lt h.readPos_lt (h.push_fits hp)
  have hlen := h.block_length hp
  have hfit := hlen ▸ h.block_lt hp
  have htok : s.unread + s.pN.toNat = (s.frCount.toNat + s.claimed) * s.cfg.val.S + s.strideCnt.toNat + s.pN.toNat := by
    rw [h.tokens, State.unaccounted_eq_zero hp (by decide), Nat.add_zero]
  exact { h with
    writePos_lt := ringAddr_lt s.cfg.C_pos _ _
    copy_unread := fun he => (h.copy_unread he).trans ((Nat.le_add_right _ _).trans_eq hu.symm)
    tokens := hu.trans htok
    push_fits := nofun
    push_payload := nofun
    ring_wf := ringWrite_wf _ h.ring_wf _
    ring_addr := fun p hmem => (ringWrite_mem s.cfg.C_pos _ hmem).elim (h.ring_addr p) id
    unread_written := fun k hk =>
      ringWrite_written h.ring_wf h.writePos_lt h.readPos_lt hfit h.unread_written (by rw [hlen]; exact hk.trans_eq hu)
    under_reset := not_under_reset hr }

theorem pushAccount_strideCnt (e : pushAccount s = .next t) :
    t.strideCnt.toNat = (strideTokens s.cfg.val.S s.strideCnt.toNat s.pN.toNat).2 := by
  cases e
  exact toNat_strideCnt s.cfg _ _

theorem pushAccount_frCount (h : s.Inv) (hp : s.pPhase = .acct) (e : pushAccount s = .next t) :
    t.frCount.toNat = s.frCount.toNat + (strideTokens s.cfg.val.S s.strideCnt.toNat s.pN.toNat).1 := by
  cases e
  exact (toNat_frCount _).trans (h.frCount_accounted hp)

theorem pushAccount_inv (h : s.Inv) (hr : s.rst = false) (hp : s.pPhase = .acct) (e : pushAccount s = .next t) :
    t.Inv := by
  have hst := pushAccount_strideCnt e
  have hfr := pushAccount_frCount h hp e
  have htok : s.unread = (t.frCount.toNat + s.claimed) * s.cfg.val.S + t.strideCnt.toNat := by
    have htot := strideTokens_total s.cfg.val.S s.strideCnt.toNat s.pN.toNat
    rw [hst, hfr, h.tokens, State.unaccounted_eq_block hp]
    linarith
  cases e
  exact { h with
    stride_lt := hst.trans_lt (strideTokens_snd_lt s.cfg.S_pos _ _)
    tokens := htok
    push_fits := nofun
    push_payload := nofun
    under_reset := not_under_reset hr }

/-! ST.IDLE (R155). -/

theorem underrun_inv (h : s.Inv) (hr : s.rst = false) {c : BitVec 16} (hs : s.stage = .idle)
    (hc : c.toNat + 1 = s.frCount.toNat + s.claimed) :
    ({ s with frCount := c, uflag := true, underrunCnt := satInc s.underrunCnt }.respond .E .underrun s.stage.word).Inv :=
  { h with
    uflag_stage := fun _ => hs
    tokens := h.tokens.trans (by rw [← hc]; rfl)
    under_reset := not_under_reset hr }

theorem admitRead_inv (h : s.Inv) (hr : s.rst = false) {c : BitVec 16} (hs : s.stage = .idle)
    (hc : c.toNat + 1 = s.frCount.toNat + s.claimed) (hw : s.cfg.val.W ≤ s.unread) :
    { s with frCount := c, ePhase := .copy }.Inv :=
  { h with
    copy_stage := fun _ => hs
    copy_unread := fun _ => hw
    tokens := h.tokens.trans (by rw [← hc, State.claimed_eq_one (.inr rfl)]; rfl)
    under_reset := not_under_reset hr }

theorem readFrame_inv (h : s.Inv) (hr : s.rst = false) {x : List Sample} (he : s.ePhase = .copy)
    (hx : x.length = s.cfg.val.W) :
    { s with
      frame := x
      readPos := ringAddr s.cfg.val.C s.readPos s.cfg.val.S
      ePhase := .idle
      uflag := false
      stage := .preEmphasis
      responses := ⟨.E, .ok, Stage.preEmphasis.word⟩ :: s.responses }.Inv :=
  have hS : s.cfg.val.S ≤ s.unread := s.cfg.S_lt_W.le.trans (h.copy_unread he)
  have hu := unreadCount_read h.writePos_lt h.readPos_lt hS
  have htok : s.unread - s.cfg.val.S = s.frCount.toNat * s.cfg.val.S + s.strideCnt.toNat + s.unaccounted := by
    have := h.tokens
    rw [State.claimed_eq_one (.inr he), Nat.add_mul] at this
    omega
  have hb := Buffers.written_preEmphasis (b := { s.buffers with frame := x }) hx
  { h with
    readPos_lt := ringAddr_lt s.cfg.C_pos _ _
    uflag_stage := nofun
    copy_stage := nofun
    copy_unread := nofun
    pending_stage := h.no_pending (by simp [h.copy_stage he])
    tokens := hu.trans htok
    push_fits := fun hp => (h.push_fits hp).trans (Nat.sub_le_sub_left (hu.trans_le (Nat.sub_le _ _)) _)
    unread_written := fun k hk =>
      (congrArg (fun a => (s.ring.read a).isSome) (ringAddr_add _ _ _ k)).trans
        (h.unread_written _ (Nat.add_lt_of_lt_sub' (hk.trans_eq hu)))
    frame_written := hb.frame
    spectrum_written := hb.spectrum
    power_written := hb.power
    melq_written := hb.melq
    ceps_written := hb.ceps
    under_reset := not_under_reset hr }

/-! The stages between IDLE and STORE (R152). -/

theorem compute_inv (h : s.Inv) (hr : s.rst = false) {b : Buffers} {g : Stage} (k : Nat) (hi : s.stage ≠ .idle)
    (hs : s.stage ≠ .store) (hb : b.Written s.cfg.val g) :
    { s with
      frame := b.frame, fre := b.fre, fim := b.fim, power := b.power, melq := b.melq, ceps := b.ceps
      clampCnt := satAdd s.clampCnt k
      stage := g
      responses := ⟨.E, stageStatus k, g.word⟩ :: s.responses }.Inv :=
  { h with
    uflag_stage := h.no_uflag hi
    copy_stage := h.no_copy hi
    pending_stage := h.no_pending hs
    frame_written := hb.frame
    spectrum_written := hb.spectrum
    power_written := hb.power
    melq_written := hb.melq
    ceps_written := hb.ceps
    under_reset := not_under_reset hr }

/-! ST.STORE (R233 to R236). -/

/-- The row store leaves the ready matrix written (R231). -/
theorem State.Inv.storeRow_ready_written (h : s.Inv) (hp : s.swapPending = false) (hv : s.readyValid = true) :
    ∀ r < s.cfg.val.NUM_FRAMES, ∀ c < s.cfg.val.NCEPS,
      (s.storeRow.mat.read (matAddr s.cfg.val (!s.activeSel) r c)).isSome = true := by
  intro r hr c hc
  have hread := storeRow_read s h.mat_wf (h.row_lt hp) (sel := !s.activeSel) hr hc
  rw [if_neg (by simp)] at hread
  exact hread ▸ h.ready_written hv r hr c hc

/-- The stored row joins the rows written so far (R234). -/
theorem State.Inv.storeRow_rows_written (h : s.Inv) (hp : s.swapPending = false) :
    ∀ r < s.rowIdx.toNat + 1, ∀ c < s.cfg.val.NCEPS,
      (s.storeRow.mat.read (matAddr s.cfg.val s.activeSel r c)).isSome = true := by
  intro r hr c hc
  have hrow := h.row_lt hp
  have hread := storeRow_read s h.mat_wf hrow (sel := s.activeSel) (show r < s.cfg.val.NUM_FRAMES by omega) hc
  split_ifs at hread with heq
  · exact hread ▸ rfl
  · exact hread ▸ h.rows_written r (by simp at heq; omega) c hc

theorem storeRow_inv (h : s.Inv) (hr : s.rst = false) (hp : s.swapPending = false)
    (hn : s.rowIdx.toNat + 1 < s.cfg.val.NUM_FRAMES) :
    { s with
      mat := s.storeRow.mat
      rowIdx := s.rowIdx + 1#13
      stage := .idle
      responses := ⟨.E, .ok, Stage.idle.word⟩ :: s.responses }.Inv :=
  have hb := Buffers.written_idle s.cfg.val s.buffers
  have hrow := toNat_rowIdx_succ (h.row_lt hp)
  { h with
    uflag_stage := fun _ => rfl
    copy_stage := fun _ => rfl
    pending_stage := fun hc => absurd (hp.symm.trans hc) Bool.false_ne_true
    pending_row := fun hc => absurd (hp.symm.trans hc) Bool.false_ne_true
    row_lt := fun _ => hrow.trans_lt hn
    mat_wf := rowWrite_wf _ h.mat_wf _
    mat_addr := storeRow_mem s (h.row_lt hp) h.mat_addr
    ready_written := h.storeRow_ready_written hp
    rows_written := fun r hr' => h.storeRow_rows_written hp r (hr'.trans_eq hrow)
    frame_written := hb.frame
    spectrum_written := hb.spectrum
    power_written := hb.power
    melq_written := hb.melq
    ceps_written := hb.ceps
    under_reset := not_under_reset hr }

theorem storeSwap_inv (h : s.Inv) (hr : s.rst = false) (hp : s.swapPending = false)
    (hn : s.rowIdx.toNat + 1 = s.cfg.val.NUM_FRAMES) :
    { s with
      mat := s.storeRow.mat
      activeSel := !s.activeSel, readyValid := true, mrSig := true, rowIdx := 0#13
      stage := .idle
      responses := ⟨.E, .ok, Stage.idle.word⟩ :: s.responses }.Inv :=
  have hb := Buffers.written_idle s.cfg.val s.buffers
  { h with
    uflag_stage := fun _ => rfl
    copy_stage := fun _ => rfl
    pending_stage := fun hc => absurd (hp.symm.trans hc) Bool.false_ne_true
    pending_row := fun hc => absurd (hp.symm.trans hc) Bool.false_ne_true
    row_lt := fun _ => s.cfg.NUM_FRAMES_pos
    signal_ready := fun _ => rfl
    mat_wf := rowWrite_wf _ h.mat_wf _
    mat_addr := storeRow_mem s (h.row_lt hp) h.mat_addr
    ready_written := fun _ r hr' => by
      rw [Bool.not_not]
      exact h.storeRow_rows_written hp r (hr'.trans_eq hn.symm)
    rows_written := fun r hr' => absurd hr' r.not_lt_zero
    frame_written := hb.frame
    spectrum_written := hb.spectrum
    power_written := hb.power
    melq_written := hb.melq
    ceps_written := hb.ceps
    under_reset := not_under_reset hr }

theorem storeStall_inv (h : s.Inv) (hr : s.rst = false) (hs : s.stage = .store) (hp : s.swapPending = false)
    (hn : s.rowIdx.toNat + 1 = s.cfg.val.NUM_FRAMES) :
    { s with
      mat := s.storeRow.mat
      rowIdx := s.rowIdx + 1#13
      swapPending := true
      stallCnt := satInc s.stallCnt
      responses := ⟨.E, .stall, 7#32⟩ :: s.responses }.Inv :=
  have hrow := toNat_rowIdx_succ (h.row_lt hp)
  { h with
    pending_stage := fun _ => hs
    pending_row := fun _ => hrow.trans hn
    row_lt := nofun
    mat_wf := rowWrite_wf _ h.mat_wf _
    mat_addr := storeRow_mem s (h.row_lt hp) h.mat_addr
    ready_written := h.storeRow_ready_written hp
    rows_written := fun r hr' => h.storeRow_rows_written hp r (hr'.trans_eq hrow)
    under_reset := not_under_reset hr }

theorem pendingSwap_inv (h : s.Inv) (hr : s.rst = false) (hp : s.swapPending = true) :
    { s with
      activeSel := !s.activeSel, readyValid := true, mrSig := true, rowIdx := 0#13, swapPending := false
      stage := .idle
      responses := ⟨.E, .ok, Stage.idle.word⟩ :: s.responses }.Inv :=
  have hb := Buffers.written_idle s.cfg.val s.buffers
  { h with
    uflag_stage := fun _ => rfl
    copy_stage := fun _ => rfl
    pending_stage := nofun
    pending_row := nofun
    row_lt := fun _ => s.cfg.NUM_FRAMES_pos
    signal_ready := fun _ => rfl
    ready_written := fun _ r hr' => by
      rw [Bool.not_not]
      exact h.rows_written r (hr'.trans_eq (h.pending_row hp).symm)
    rows_written := fun r hr' => absurd hr' r.not_lt_zero
    frame_written := hb.frame
    spectrum_written := hb.spectrum
    power_written := hb.power
    melq_written := hb.melq
    ceps_written := hb.ceps
    under_reset := not_under_reset hr }

/-- Every event outside reset keeps the invariant. -/
theorem Event.inv (h : s.Inv) (hr : s.rst = false) (e : Event s t) : t.Inv := by
  cases e with
  | answer => exact { h with under_reset := not_under_reset hr }
  | overrun n hp => exact overrun_inv h hr n hp
  | admitWrite n hp hb hf => exact admitWrite_inv h hr hp hb hf
  | copyBlock _ hp e => exact pushCopy_inv h hr hp e
  | accountBlock _ hp e => exact pushAccount_inv h hr hp e
  | underrun c hs hc => exact underrun_inv h hr hs hc
  | admitRead c hs hc hw => exact admitRead_inv h hr hs hc hw
  | readFrame x he hx => exact readFrame_inv h hr he hx
  | compute b g k hi hs hb => exact compute_inv h hr k hi hs (hb h.buffersWritten)
  | storeRow hp hn => exact storeRow_inv h hr hp hn
  | storeSwap hp hn => exact storeSwap_inv h hr hp hn
  | storeStall hs hp hn => exact storeStall_inv h hr hs hp hn
  | pendingSwap hp => exact pendingSwap_inv h hr hp
  | takeSignal => exact { h with signal_ready := nofun, under_reset := not_under_reset hr }
  | releaseMatrix => exact { h with signal_ready := nofun, ready_written := nofun, under_reset := not_under_reset hr }

/-- Settles O50: the reset input gives or leaves a reset state, and every event of a port keeps the invariant
(`Event.inv`). -/
theorem invariantIsKeptByEveryStep : Obligations.InvariantIsKeptByEveryStep := by
  intro s t h hstep
  rcases step_event_cases hstep with ⟨rest, -, rfl⟩ | ⟨rest, -, rfl⟩ | ⟨rest, rfl⟩ | ⟨hr, rest, q, e⟩
  · exact State.atReset_inv { s with schedule := rest }.assertReset
  · exact { h with under_reset := nofun }
  · exact h.withEnv rest s.queues
  · exact e.inv (h.withEnv rest q) hr

/-! ## Every step answers (R52, R315) -/

theorem execStStore_answers_next (h : s.Inv) : ∃ t, execStStore s = .next t := by
  cases hp : s.swapPending with
  | true => exact ⟨_, execStStore_pending hp⟩
  | false => exact ⟨_, execStStore_store hp (h.row_lt hp)⟩

theorem idleCopy_answers_next (h : s.Inv) (he : s.ePhase = .copy) : ∃ t, idleCopy s = .next t := by
  obtain ⟨x, hx⟩ := ringRead_isOk (h.window_written (h.copy_unread he))
  exact ⟨_, idleCopy_next hx⟩

theorem execStIdle_answers_next (h : s.Inv) : ∃ t, execStIdle s = .next t := by
  unfold execStIdle
  cases he : s.ePhase with
  | idle => exact ⟨_, rfl⟩
  | copy => exact idleCopy_answers_next h he

theorem execStep_answers_next (h : s.Inv) : ∃ t, execStep s = .next t := by
  unfold execStep
  split
  case h_1 => exact execStIdle_answers_next h
  case h_8 => exact execStStore_answers_next h
  all_goals exact ⟨_, rfl⟩

theorem execRdcsr_answers_next (a : BitVec 8) (s : State) : ∃ t, execRdcsr a s = .next t := by
  unfold execRdcsr
  split <;> exact ⟨_, rfl⟩

theorem execMtake_answers_next (s : State) : ∃ t, execMtake s = .next t := by
  unfold execMtake
  split <;> exact ⟨_, rfl⟩

theorem execRelease_answers_next (s : State) : ∃ t, execRelease s = .next t := by
  unfold execRelease
  split <;> exact ⟨_, rfl⟩

/-- MREAD reads an element of a complete matrix (R231). -/
theorem execMread_answers_next (h : s.Inv) (r c : BitVec 12) : ∃ t, execMread r c s = .next t := by
  unfold execMread
  split
  case isTrue => exact ⟨_, rfl⟩
  case isFalse hok =>
    simp only [not_or, Nat.not_le, Bool.not_eq_false] at hok
    obtain ⟨hrow, hcol, hv⟩ := hok
    obtain ⟨v, hv⟩ := Option.isSome_iff_exists.mp (h.ready_written hv _ hrow _ hcol)
    rw [hv]
    exact ⟨_, rfl⟩

/-- PUSH.A is refused for missing payload only (log entry 13). -/
theorem pushCheck_answers (n : BitVec 16) (s : State) :
    (∃ t, pushCheck n s = .next t) ∨ s.beats.length < n.toNat ∧ pushCheck n s = .refused .payloadIncomplete := by
  unfold pushCheck
  split_ifs with hb
  · exact .inr ⟨hb, rfl⟩
  · exact .inl ⟨_, rfl⟩
  · exact .inl ⟨_, rfl⟩

/-- The next event of a command in flight. -/
theorem exec_inFlight_answers_next {p : Port} {i : Instr} (h : s.Inv) (hf : s.inFlight p = some i) :
    ∃ t, exec i s = .next t := by
  cases p with
  | P =>
    unfold State.inFlight at hf
    cases hp : s.pPhase with
    | idle => simp [hp] at hf
    | copy =>
      obtain rfl : .push s.pN = i := by simpa [hp] using hf
      exact ⟨_, by rw [exec, execPush, hp, pushCopy]⟩
    | acct =>
      obtain rfl : .push s.pN = i := by simpa [hp] using hf
      exact ⟨_, by rw [exec, execPush, hp, pushAccount]⟩
  | E =>
    unfold State.inFlight at hf
    simp only at hf
    split at hf <;> cases hf
    exact execStIdle_answers_next h
  | K => cases hf
  | D => cases hf

/-- A PUSH decoded from a word has the word's `n` (R91). -/
theorem decodeOn_push_operand {p : Port} {w : Word} {n : BitVec 16} (h : decodeOn p w = .ok (.push n)) :
    n = w.extractLsb' 0 16 := by
  unfold decodeOn at h
  split at h
  · cases h
  · next o _ =>
    split_ifs at h
    cases o <;> simp_all [Opcode.instr]

/-- The first event of a command a port accepts answers, or the PUSH lacks payload. -/
theorem exec_decoded_answers {p : Port} {w : Word} {i : Instr} (h : s.Inv) (hl : s.eventsLeft p = 0)
    (hd : decodeOn p w = .ok i) :
    (∃ t, exec i s = .next t) ∨
      (p = .P ∧ s.beats.length < (w.extractLsb' 0 16).toNat ∧ exec i s = .refused .payloadIncomplete) := by
  rcases decodeOn_ok_cases hd with ⟨rfl, n, rfl⟩ | ⟨rfl, rfl⟩ | ⟨rfl, rfl | ⟨r, c, rfl⟩ | rfl⟩ | ⟨rfl, rfl | ⟨a, rfl⟩⟩
  case inl =>
    obtain rfl := decodeOn_push_operand hd
    rw [exec, execPush, pPhase_idle_of_eventsLeft hl]
    exact (pushCheck_answers _ s).imp_right fun hb => ⟨rfl, hb⟩
  case inr.inl => exact .inl (execStep_answers_next h)
  · exact .inl (execMtake_answers_next s)
  · exact .inl (execMread_answers_next h r c)
  · exact .inl (execRelease_answers_next s)
  · exact .inl ⟨_, rfl⟩
  · exact .inl (execRdcsr_answers_next a s)

/-- A word that fails the decoder's checks is answered ILLEGAL (R99). -/
theorem portEvent_illegal {p : Port} {w : Word} {ws : List Word} {r : Reject} (hr : s.rst = false)
    (hf : s.inFlight p = none) (hq : s.queues.get p = w :: ws) (hd : decodeOn p w = .error r) :
    portEvent p s = .next ({ s with queues := s.queues.set ws p }.illegal p) := by
  have hw : s.takeWord p = some (w, { s with queues := s.queues.set ws p }) :=
    (State.takeWord_eq_some s).mpr ⟨ws, hq, rfl⟩
  simp [portEvent, hr, hf, hw, hd]

/-- Outside reset a port's event answers, or its PUSH lacks payload. -/
theorem portEvent_answers (h : s.Inv) (hr : s.rst = false) (p : Port) :
    (∃ t, portEvent p s = .next t) ∨
      ∃ w ws, s.eventsLeft p = 0 ∧ s.queues.get p = w :: ws ∧ p = .P ∧ s.beats.length < (w.extractLsb' 0 16).toNat ∧
        portEvent p s = .refused .payloadIncomplete := by
  cases hf : s.inFlight p with
  | some i =>
    rw [portEvent_inFlight hr hf]
    exact .inl (exec_inFlight_answers_next h hf)
  | none =>
    have hl := (State.eventsLeft_eq_zero s p).mpr hf
    cases hq : s.queues.get p with
    | nil => exact .inl ⟨_, portEvent_nothing hf hq⟩
    | cons w ws =>
      cases hd : decodeOn p w with
      | error r => exact .inl ⟨_, portEvent_illegal hr hf hq hd⟩
      | ok i =>
        rw [portEvent_command hr hf hq hd]
        exact (exec_decoded_answers (h.withEnv s.schedule (s.queues.set ws p)) hl hd).imp_right
          fun hb => ⟨w, ws, hl, rfl, hb⟩

/-- Settles O51: the reset input always moves; a port under reset is idle or refused (`step_under_reset`), and outside reset
its event answers or lacks payload (`portEvent_answers`). -/
theorem everyStepAnswersInsideWellFormedUse : Obligations.EveryStepAnswersInsideWellFormedUse := by
  intro s h
  rcases hs : s.schedule with _ | ⟨p | _ | _, rest⟩
  · exact .inl ⟨s, by rw [step, hs]⟩
  · rcases Bool.eq_false_or_eq_true s.rst with hr | hr
    · rw [step_under_reset hs hr]
      cases hq : s.queues.get p with
      | nil => exact .inl ⟨_, if_pos rfl⟩
      | cons w ws =>
        have hl := State.eventsLeft_atReset (h.under_reset hr) p
        exact .inr ⟨p, rest, w, ws, rfl, hl, hq, .inl ⟨hr, if_neg nofun⟩⟩
    · rw [step_port hs]
      refine (portEvent_answers (h.withEnv rest s.queues) hr p).imp_right ?_
      rintro ⟨w, ws, hl, hq, hp, hb, he⟩
      exact ⟨p, rest, w, ws, rfl, hl, hq, .inr ⟨hr, hp, hb, he⟩⟩
  · exact .inl ⟨_, by rw [step, hs]⟩
  · exact .inl ⟨_, by rw [step, hs]⟩

end Sys2Proof.Machine
end

section
/-! SUPPORT. Proofs of the family 10_state.md: the counters (rules R26 to R30, R160), the swap (R44, R236), the faults on
elements never written (R52), and the registers and the reset input (R48, R50, R53, R300). -/

namespace Sys2Proof.Machine

variable {s t : State}

/-! ## The counters (R26 to R30) -/

theorem satInc_le (c : Word) : (satInc c).toNat ≤ c.toNat + 1 := by
  rw [satInc_toNat]
  exact Nat.min_le_left _ _

/-- No counter gets smaller, and each condition counter moves by one at most (R27 to R30). -/
structure State.CountersGrow (s t : State) : Prop where
  overrun : s.overrunCnt.toNat ≤ t.overrunCnt.toNat := by exact Nat.le_refl _
  underrun : s.underrunCnt.toNat ≤ t.underrunCnt.toNat := by exact Nat.le_refl _
  clamp : s.clampCnt.toNat ≤ t.clampCnt.toNat := by exact Nat.le_refl _
  stall : s.stallCnt.toNat ≤ t.stallCnt.toNat := by exact Nat.le_refl _
  overrun_le : t.overrunCnt.toNat ≤ s.overrunCnt.toNat + 1 := by exact Nat.le_succ _
  underrun_le : t.underrunCnt.toNat ≤ s.underrunCnt.toNat + 1 := by exact Nat.le_succ _
  stall_le : t.stallCnt.toNat ≤ s.stallCnt.toNat + 1 := by exact Nat.le_succ _

theorem Event.countersGrow (e : Event s t) : s.CountersGrow t := by
  cases e with
  | overrun => exact { overrun := le_satAdd _ 1, overrun_le := satInc_le _ }
  | underrun => exact { underrun := le_satAdd _ 1, underrun_le := satInc_le _ }
  | compute _ _ k => exact { clamp := le_satAdd _ k }
  | storeStall => exact { stall := le_satAdd _ 1, stall_le := satInc_le _ }
  | copyBlock _ _ e => cases e; exact {}
  | accountBlock _ _ e => cases e; exact {}
  | _ => exact {}

/-- Settles O57: four events count, one counter each, saturating (`Event.countersGrow`). -/
theorem countersNeverWrap : Obligations.CountersNeverWrap := by
  intro s t hstep hreset
  have hgrow : s.CountersGrow t := by
    rcases step_event_cases hstep with ⟨rest, hs, -⟩ | ⟨rest, -, rfl⟩ | ⟨rest, rfl⟩ | ⟨-, rest, q, e⟩
    · exact absurd (congrArg List.head? hs) hreset
    · exact {}
    · exact {}
    · exact { e.countersGrow with }
  obtain ⟨h1, h2, h3, h4, h5, h6, h7⟩ := hgrow
  exact ⟨h1, h2, h3, h4, h5, h6, h7⟩

/-- Settles O52: the tokens count unread samples (R160), of which there are fewer than `C`. -/
theorem tokenCountIsBounded : Obligations.TokenCountIsBounded := by
  intro s h
  have hle := h.frCount_mul_le
  have hlt := s.unread_lt
  have hC := s.cfg.C_le
  refine ⟨(Nat.le_div_iff_mul_le s.cfg.S_pos).mpr (by omega), (Nat.div_le_self _ _).trans (by omega), fun hp => ?_⟩
  have e : exec (.push s.pN) s = pushAccount s := by rw [exec, execPush, hp]
  exact ⟨_, e, pushAccount_frCount h hp rfl⟩

/-! ## The swap (R44, R73, R236) -/

/-- What a step does to the roles: the active matrix changes exactly when a matrix becomes ready, in one step with the
signal, the row index, the pending flag and the stage; and the signal is raised in no other way. -/
structure State.RolesMove (s t : State) : Prop where
  gate : t.activeSel ≠ s.activeSel ↔ s.readyValid = false ∧ t.readyValid = true
  swap : t.activeSel ≠ s.activeSel → t.mrSig = true ∧ t.rowIdx = 0#13 ∧ t.swapPending = false ∧ t.stage = .idle
  signal : t.mrSig = true → s.mrSig = true ∨ t.activeSel ≠ s.activeSel

/-- A step that makes no matrix ready and raises no signal. -/
theorem State.RolesMove.of_kept (ha : t.activeSel = s.activeSel) (hv : t.readyValid = true → s.readyValid = true)
    (hm : t.mrSig = true → s.mrSig = true) : s.RolesMove t where
  gate := ⟨fun hne => absurd ha hne, fun ⟨hs, ht⟩ => absurd (hs.symm.trans (hv ht)) Bool.false_ne_true⟩
  swap hne := absurd ha hne
  signal h := .inl (hm h)

/-- The swap. -/
theorem State.RolesMove.of_swap (ha : t.activeSel = !s.activeSel) (hs : s.readyValid = false) (ht : t.readyValid = true)
    (hm : t.mrSig = true) (hr : t.rowIdx = 0#13) (hp : t.swapPending = false) (hg : t.stage = .idle) : s.RolesMove t where
  gate := ⟨fun _ => ⟨hs, ht⟩, fun _ => by simp [ha]⟩
  swap _ := ⟨hm, hr, hp, hg⟩
  signal _ := .inr (by simp [ha])

theorem Event.rolesMove (e : Event s t) : s.RolesMove t := by
  cases e with
  | storeSwap hp hn hv => exact .of_swap rfl hv rfl rfl rfl hp rfl
  | pendingSwap hp hv => exact .of_swap rfl hv rfl rfl rfl rfl rfl
  | takeSignal => exact .of_kept rfl id nofun
  | releaseMatrix => exact .of_kept rfl nofun nofun
  | copyBlock _ _ e => cases e; exact .of_kept rfl id id
  | accountBlock _ _ e => cases e; exact .of_kept rfl id id
  | _ => exact .of_kept rfl id id

/-- Settles O37: the two swapping events of ST.STORE move the roles as one, and no other event makes a matrix ready
(`Event.rolesMove`). -/
theorem swapIsOneStep : Obligations.SwapIsOneStep := by
  intro s t hstep hreset
  have hroles : s.RolesMove t := by
    rcases step_event_cases hstep with ⟨rest, hs, -⟩ | ⟨rest, -, rfl⟩ | ⟨rest, rfl⟩ | ⟨-, rest, q, e⟩
    · exact absurd (congrArg List.head? hs) hreset
    · exact .of_kept rfl id id
    · exact .of_kept rfl id id
    · exact { e.rolesMove with }
  obtain ⟨gate, swap, signal⟩ := hroles
  exact ⟨gate, swap, signal⟩

/-! ## Elements never written (R52) -/

/-- A ring read stops at the first element of its window that was never written (R315). -/
theorem ringRead_error {C : Nat} {m : Memory} {a n k : Nat} (hk : k < n) (hnone : m.read (ringAddr C a k) = none)
    (hbefore : ∀ i < k, (m.read (ringAddr C a i)).isSome = true) : ringRead C m a n = .error (ringAddr C a k) := by
  induction n generalizing a k with
  | zero => omega
  | succ n ih =>
    rw [ringRead]
    cases k with
    | zero => rw [hnone]
    | succ k =>
      obtain ⟨x, hx⟩ := Option.isSome_iff_exists.mp (hbefore 0 k.succ_pos)
      rw [← ringAddr_succ] at hnone ⊢
      rw [hx, ih (by omega) hnone fun i hi => by rw [ringAddr_succ]; exact hbefore (i + 1) (by omega)]

/-- Settles O21: the frame copy stops where `ringRead_error` says; MREAD and ST.STORE at their own checks. -/
theorem missingElementsFaultByName : Obligations.MissingElementsFaultByName := by
  refine ⟨fun s k he hk hnone hbefore => ?ring, fun s r c hr hc hv hnone => ?mat, fun s hp hr => ?row⟩
  case ring =>
    have hread : ringRead s.cfg.val.C s.ring s.readPos s.cfg.val.W = .error (ringAddr s.cfg.val.C s.readPos k) :=
      ringRead_error hk hnone hbefore
    rw [exec, execStIdle, he, idleCopy, hread]
    rfl
  case mat => simp [exec, execMread, hv, hnone, Nat.not_le.mpr hr, Nat.not_le.mpr hc]
  case row => simp [exec, execStStore, hp, Nat.not_lt.mpr hr]

/-! ## STATUS and the two outputs (R48, R50) -/

/-- The layout of STATUS below `p_phase`, bit by bit (R50). -/
theorem statusWord_getLsbD (s : State) {i : Nat} (hi : i < 9) :
    s.statusWord.getLsbD i =
      if i < 3 then s.stage.code.getLsbD i else if i = 3 then s.uflag else if i = 4 then s.ePhase.code.getLsbD 0
      else if i = 5 then s.swapPending else if i = 6 then s.activeSel else if i = 7 then s.readyValid
      else s.mrSig := by
  unfold State.statusWord
  iterate 7 rw [BitVec.getLsbD_append]
  interval_cases i <;> simp

/-- From bit 9 on STATUS holds `p_phase`, with zeros above it. -/
theorem statusWord_getLsbD_add_nine (s : State) (i : Nat) : s.statusWord.getLsbD (9 + i) = s.pPhase.code.getLsbD i := by
  unfold State.statusWord
  iterate 7 rw [BitVec.getLsbD_append, if_neg (by omega)]
  rw [BitVec.getLsbD_append, show 9 + i - 3 - 1 - 1 - 1 - 1 - 1 - 1 = i by omega]
  split
  · rfl
  · rw [BitVec.getLsbD_zero, BitVec.getLsbD_of_ge _ _ (by omega)]

theorem statusWord_uflag (s : State) : s.statusWord.getLsbD 3 = s.uflag := statusWord_getLsbD s (by decide)

theorem statusWord_mrSig (s : State) : s.statusWord.getLsbD 8 = s.mrSig := statusWord_getLsbD s (by decide)

theorem statusWord_stage (s : State) : s.statusWord.extractLsb' 0 3 = s.stage.code := by
  refine BitVec.eq_of_getLsbD_eq fun i hi => ?_
  rw [BitVec.getLsbD_extractLsb', Nat.zero_add, statusWord_getLsbD s (by omega), if_pos hi]
  simp [hi]

theorem statusWord_pPhase (s : State) : s.statusWord.extractLsb' 9 2 = s.pPhase.code := by
  refine BitVec.eq_of_getLsbD_eq fun i hi => ?_
  rw [BitVec.getLsbD_extractLsb', statusWord_getLsbD_add_nine]
  simp [hi]

theorem statusWord_zeros (s : State) : s.statusWord.extractLsb' 11 21 = 0#21 := by
  refine BitVec.eq_of_getLsbD_eq fun i hi => ?_
  rw [BitVec.getLsbD_extractLsb', show 11 + i = 9 + (2 + i) by omega, statusWord_getLsbD_add_nine,
    BitVec.getLsbD_of_ge _ _ (by omega)]
  simp

theorem getLsbD_ePhase_code (f : EPhase) : f.code.getLsbD 0 = decide (f = .copy) := by cases f <;> rfl

theorem statusWord_resetOf (c : WfConfig) : (State.resetOf c).statusWord = 0#32 := by
  simp [State.statusWord, State.resetOf, PPhase.code, EPhase.code, Stage.code]

/-- Settles O44: each field is read off the layout. -/
theorem statusRegisterFields : Obligations.StatusRegisterFields := by
  refine ⟨fun s => ⟨statusWord_stage s, statusWord_uflag s, ?ePhase, ?_, ?_, ?_, statusWord_mrSig s, ?pPhase,
    statusWord_zeros s⟩, statusWord_resetOf⟩
  case ePhase => exact (statusWord_getLsbD s (by decide)).trans (getLsbD_ePhase_code _)
  case pPhase => rw [statusWord_pPhase]; cases s.pPhase <;> rfl
  all_goals exact statusWord_getLsbD s (by decide)

/-- Settles O45: STATUS carries `uflag` and `mr_sig`. -/
theorem signalOutputsFollowTheState : Obligations.SignalOutputsFollowTheState := by
  refine ⟨fun s => ⟨fun hr => ⟨?ready, ?signal⟩, fun hr => ⟨?_, ?_⟩⟩, fun s s' hr hr' hst hfr => ?same⟩
  case ready =>
    have h0 : s.frCount ≠ 0#16 ↔ 0 < s.frCount.toNat := by
      rw [Nat.pos_iff_ne_zero, ne_eq, ne_eq, BitVec.toNat_eq]; rfl
    simp [State.frameReadyO, hr, ← h0]
  case signal => simp [State.matrixReadyO, hr]
  case same =>
    have hu : s.uflag = s'.uflag := by rw [← statusWord_uflag, hst, statusWord_uflag]
    have hm : s.mrSig = s'.mrSig := by rw [← statusWord_mrSig, hst, statusWord_mrSig]
    simp [State.frameReadyO, State.matrixReadyO, hr, hr', hfr, hu, hm]
  all_goals simp [State.frameReadyO, State.matrixReadyO, hr]

/-! ## Reset (R53, R300) -/

/-- Settles O46: R53 is how `State.resetOf` is written; the outputs follow from `fr_count`, `uflag` and `mr_sig`. -/
theorem resetStateIsAsStated : Obligations.ResetStateIsAsStated := fun _ =>
  ⟨rfl, rfl, rfl, rfl, rfl, rfl, rfl, rfl, rfl, rfl, rfl, rfl, rfl, rfl, rfl, rfl, rfl, rfl, rfl⟩

/-- Settles O47: no memory and no buffer lists an element after reset. -/
theorem memoriesAndWorkBuffersHoldNoChosenValue : Obligations.MemoriesAndWorkBuffersHoldNoChosenValue := fun _ =>
  ⟨fun _ => ⟨rfl, rfl⟩, fun _ => ⟨rfl, rfl, rfl, rfl, rfl, rfl⟩⟩

/-- Settles O48: `step` on each move of the reset input, `step_under_reset` on a port's, and the invariant's clause on reset
for what the release finds. -/
theorem resetInputRestoresTheResetState : Obligations.ResetInputRestoresTheResetState := by
  refine ⟨fun s rest hs => ⟨_, ?assert, rfl, rfl, rfl⟩, fun s rest hs => ?release, fun s p rest hr hs => ?port,
    fun s h hr => ?outputs, fun s rest h hr hs => ?released⟩
  case assert => rw [step, hs]; rfl
  case release => rw [step, hs]; rfl
  case port =>
    rw [step_under_reset hs hr]
    exact ⟨fun hq => if_pos hq, fun w ws hq => if_neg (by simp [hq])⟩
  case outputs =>
    have hl := State.eventsLeft_atReset (h.under_reset hr)
    exact ⟨hl, by simp [State.frameReadyO, hr], by simp [State.matrixReadyO, hr]⟩
  case released =>
    have hreset : { s with schedule := rest }.releaseReset = { s.atReset with schedule := rest }.releaseReset :=
      congrArg (fun x : State => { x with schedule := rest }.releaseReset) (h.under_reset hr)
    rw [step, hs]
    exact congrArg Host.Outcome.next hreset

end Sys2Proof.Machine
end

section
/-! SUPPORT. Proofs of the family 10_state.md: the range of `fre` and `fim` (10_state.md rule R37, 43_fft.md rule R192). The
two work arrays are read as one array of complex numbers; a pass multiplies the largest magnitude by little more than 2. -/

namespace Sys2Proof.Machine

variable {c : Config} {z : Spectrum} {M : ℝ}

/-! ## The work arrays as complex numbers -/

/-- The element `fre[i] + i * fim[i]`. -/
noncomputable def Spectrum.point (z : Spectrum) (i : Nat) : ℂ := ⟨(z.1.getD i 0 : ℤ), (z.2.getD i 0 : ℤ)⟩

/-- Twiddle number `j`, in units of `2^-15`. -/
noncomputable def twiddle (c : Config) (j : Nat) : ℂ := ⟨tableAt c.TW_RE j, tableAt c.TW_IM j⟩

/-- `tr` and `ti` of R190 for element `b`. -/
noncomputable def Spectrum.twiddled (z : Spectrum) (c : Config) (j b : Nat) : ℂ :=
  ⟨(twiddleProduct (tableAt c.TW_RE j) (tableAt c.TW_IM j) (z.1.getD b 0) (z.2.getD b 0)).1,
    (twiddleProduct (tableAt c.TW_RE j) (tableAt c.TW_IM j) (z.1.getD b 0) (z.2.getD b 0)).2⟩

theorem Spectrum.point_congr {y : Spectrum} {i : Nat} (h1 : y.1[i]? = z.1[i]?) (h2 : y.2[i]? = z.2[i]?) :
    y.point i = z.point i := by
  simp only [Spectrum.point, List.getD_eq_getElem?_getD, h1, h2]

/-- A butterfly leaves the sum and the difference (R191). -/
theorem butterfly_point (j : Nat) {a b : Nat} (ha : a < z.1.length) (hb : b < z.1.length) (hl : z.2.length = z.1.length)
    (hab : a ≠ b) :
    (butterfly c j a b z).point a = z.point a + z.twiddled c j b ∧
    (butterfly c j a b z).point b = z.point a - z.twiddled c j b := by
  obtain ⟨a1, a2⟩ := butterfly_getElem? c j a b z ha hb hl a
  obtain ⟨b1, b2⟩ := butterfly_getElem? c j a b z ha hb hl b
  rw [if_neg hab, if_pos rfl] at a1 a2
  rw [if_pos rfl] at b1 b2
  constructor <;> apply Complex.ext <;>
    simp [Spectrum.point, Spectrum.twiddled, List.getD_eq_getElem?_getD, a1, a2, b1, b2]

/-! ## One pass (R190, R192) -/

/-- Rounding down moves a value by less than one unit (R15). -/
theorem abs_asr_sub_le (v : ℤ) : |((asr v 15 : ℤ) : ℝ) - v / 32768| ≤ 1 := by
  have h1 : (32768 : ℝ) * (asr v 15 : ℤ) ≤ v := by
    rw [asr_fifteen]; exact_mod_cast Int.mul_ediv_self_le (by decide)
  have h2 : (v : ℝ) < 32768 * (asr v 15 : ℤ) + 32768 := by
    rw [asr_fifteen]; exact_mod_cast Int.lt_mul_ediv_self_add (by decide)
  rw [abs_le]
  constructor <;> linarith

theorem norm_twiddle_le {j : Nat}
    (h : tableAt c.TW_RE j * tableAt c.TW_RE j + tableAt c.TW_IM j * tableAt c.TW_IM j ≤ 32769 * 32769) :
    ‖twiddle c j‖ ≤ 32769 := by
  have hsq : ‖twiddle c j‖ ^ 2 ≤ (32769 : ℝ) ^ 2 := by
    rw [Complex.sq_norm, Complex.normSq_apply, sq]
    dsimp only [twiddle]
    exact_mod_cast h
  exact (sq_le_sq₀ (norm_nonneg _) (by norm_num)).mp hsq

/-- The twiddled element is the complex product, but for the two roundings. -/
theorem norm_twiddled_le {j b : Nat} (htw : ‖twiddle c j‖ ≤ 32769) (hb : ‖z.point b‖ ≤ M) :
    ‖z.twiddled c j b‖ ≤ 32769 * M / 32768 + 2 := by
  have hround : ‖z.twiddled c j b - twiddle c j * z.point b / 32768‖ ≤ 2 := by
    refine (Complex.norm_le_abs_re_add_abs_im _).trans ?_
    have hre := abs_asr_sub_le (tableAt c.TW_RE j * z.1.getD b 0 - tableAt c.TW_IM j * z.2.getD b 0)
    have him := abs_asr_sub_le (tableAt c.TW_RE j * z.2.getD b 0 + tableAt c.TW_IM j * z.1.getD b 0)
    have hsum := add_le_add hre him
    simpa [Spectrum.twiddled, twiddle, Spectrum.point, twiddleProduct, one_add_one_eq_two] using hsum
  have hprod : ‖twiddle c j * z.point b / 32768‖ ≤ 32769 * M / 32768 := by
    rw [norm_div, norm_mul, Complex.norm_ofNat]
    gcongr
  exact (norm_le_norm_add_norm_sub' _ (twiddle c j * z.point b / 32768)).trans (add_le_add hprod hround)

/-- Every element within the arrays has magnitude at most `M`. -/
def Spectrum.Within (z : Spectrum) (c : Config) (M : ℝ) : Prop :=
  z.1.length = c.NFFT ∧ z.2.length = c.NFFT ∧ ∀ i < c.NFFT, ‖z.point i‖ ≤ M

/-- Index `i` lies in block `b` of pass `p + 1`, at offset `t` of one of its halves. -/
theorem passIndex_cases {N p i : Nat} (hN : 2 ^ (p + 1) ∣ N) (hi : i < N) :
    ∃ b < N / 2 ^ (p + 1), ∃ t < 2 ^ p, i = b * 2 ^ (p + 1) + t ∨ i = b * 2 ^ (p + 1) + t + 2 ^ p := by
  have hdiv := Nat.div_add_mod' i (2 ^ (p + 1))
  have hmod := Nat.mod_lt i (show 0 < 2 ^ (p + 1) by positivity)
  refine ⟨i / 2 ^ (p + 1), Nat.div_lt_div_of_lt_of_dvd hN hi, ?_⟩
  rcases Nat.lt_or_ge (i % 2 ^ (p + 1)) (2 ^ p) with hlt | hge
  · exact ⟨_, hlt, .inl hdiv.symm⟩
  · exact ⟨i % 2 ^ (p + 1) - 2 ^ p, by omega, .inr (by omega)⟩

/-- The twiddle of such a butterfly is in the table, and its second element in the array. -/
theorem passIndex_bounds {N p b t : Nat} (hN : 2 ^ (p + 1) ∣ N) (hb : b < N / 2 ^ (p + 1)) (ht : t < 2 ^ p) :
    t * (N / 2 ^ (p + 1)) < N / 2 ∧ b * 2 ^ (p + 1) + t + 2 ^ p < N := by
  obtain ⟨q, rfl⟩ := hN
  have hpow : 2 ^ (p + 1) = 2 * 2 ^ p := by ring
  rw [Nat.mul_div_cancel_left _ (by positivity)] at hb ⊢
  constructor
  · rw [hpow, Nat.mul_assoc, Nat.mul_div_cancel_left _ (by decide)]
    exact Nat.mul_lt_mul_of_pos_right ht (by omega)
  · have := Nat.mul_le_mul_right (2 ^ (p + 1)) (show b + 1 ≤ q by omega)
    rw [Nat.add_mul, Nat.mul_comm q] at this
    omega

/-- A pass multiplies the largest magnitude by at most `2 + 3 * 2^-15` (R192). -/
theorem fftPass_within {p : Nat} (hN : 2 ^ (p + 1) ∣ c.NFFT) (hM : 32768 ≤ M)
    (htw : ∀ t < c.NFFT / 2, ‖twiddle c t‖ ≤ 32769) (h : z.Within c M) :
    (fftPass c (p + 1) z).Within c ((2 + 3 / 32768) * M) := by
  obtain ⟨h1, h2, hz⟩ := h
  obtain ⟨l1, l2⟩ := fftPass_length c (p + 1) z
  refine ⟨l1.trans h1, l2.trans h2, fun i hi => ?_⟩
  obtain ⟨b, hb, t, ht, hit⟩ := passIndex_cases hN hi
  obtain ⟨hj, hlast⟩ := passIndex_bounds hN hb ht
  have hpos : 0 < 2 ^ p := by positivity
  obtain ⟨a1, a2, b1, b2⟩ := fftPass_at c z h1 h2 hb ht
  obtain ⟨pa, pb⟩ := butterfly_point (c := c) (z := z) (t * (c.NFFT / 2 ^ (p + 1)))
    (a := b * 2 ^ (p + 1) + t) (b := b * 2 ^ (p + 1) + t + 2 ^ p) (by omega) (by omega) (by omega) (by omega)
  have hprod := norm_twiddled_le (htw _ hj) (hz _ hlast)
  have ha := hz (b * 2 ^ (p + 1) + t) (by omega)
  rcases hit with rfl | rfl
  · rw [Spectrum.point_congr a1 a2, pa]
    refine (norm_add_le _ _).trans ?_
    linarith
  · rw [Spectrum.point_congr b1 b2, pb]
    refine (norm_sub_le _ _).trans ?_
    linarith

/-! ## All passes -/

theorem fftLoad_within (c : Config) (x : Nat → Sample) : (fftLoad c fun i => (x i).toInt).Within c 32768 := by
  obtain ⟨l1, l2⟩ := fftLoad_length c fun i => (x i).toInt
  refine ⟨l1, l2, fun i hi => (Complex.norm_le_abs_re_add_abs_im _).trans ?_⟩
  have hx : |((x (bitrev c.LOG2N i)).toInt : ℝ)| ≤ 32768 := by
    obtain ⟨hlo, hhi⟩ := toInt_bounds (x (bitrev c.LOG2N i))
    exact_mod_cast abs_le.mpr ⟨hlo, hhi.trans (by decide)⟩
  by_cases hW : bitrev c.LOG2N i < c.W <;> simp [Spectrum.point, fftLoad, hi, hW, hx]

theorem fftPasses_within (c : WfConfig) (x : Nat → Sample) (htw : ∀ t < c.val.NFFT / 2, ‖twiddle c.val t‖ ≤ 32769)
    {p : Nat} (hp : p ≤ c.val.LOG2N) :
    (fftPasses c.val (fun i => (x i).toInt) p).Within c.val ((2 + 3 / 32768) ^ p * 32768) := by
  induction p with
  | zero => simpa [fftPasses_zero] using fftLoad_within c.val x
  | succ p ih =>
    have hN : 2 ^ (p + 1) ∣ c.val.NFFT := by
      rw [c.NFFT_eq]
      exact pow_dvd_pow 2 hp
    have hM : (32768 : ℝ) ≤ (2 + 3 / 32768) ^ p * 32768 :=
      le_mul_of_one_le_left (by norm_num) (one_le_pow₀ (by norm_num))
    rw [fftPasses_succ, pow_succ', mul_assoc]
    exact fftPass_within hN hM htw (ih (by omega))

/-- The configuration's largest transform has 14 passes (R10). -/
theorem LOG2N_le (c : WfConfig) : c.val.LOG2N ≤ 14 := by
  have h := c.NFFT_le
  rw [c.NFFT_eq, show 16384 = 2 ^ 14 by decide] at h
  exact (Nat.pow_le_pow_iff_right (by decide)).mp h

theorem magnitude_lt (c : WfConfig) {p : Nat} (hp : p ≤ c.val.LOG2N) : (2 + 3 / 32768 : ℝ) ^ p * 32768 < 2 ^ 30 := by
  have h14 : (2 + 3 / 32768 : ℝ) ^ p ≤ (2 + 3 / 32768) ^ 14 :=
    pow_le_pow_right₀ (by norm_num) (hp.trans (LOG2N_le c))
  have : (2 + 3 / 32768 : ℝ) ^ 14 * 32768 < 2 ^ 30 := by norm_num
  linarith

/-- An element is no larger than its complex magnitude. -/
theorem Spectrum.Within.abs_le (h : z.Within c M) {v : ℤ} (hv : v ∈ z.1 ++ z.2) : |(v : ℝ)| ≤ M := by
  obtain ⟨h1, h2, hz⟩ := h
  rcases List.mem_append.mp hv with hv | hv
  · obtain ⟨i, hi, rfl⟩ := List.mem_iff_getElem.mp hv
    have := (Complex.abs_re_le_norm _).trans (hz i (h1 ▸ hi))
    simpa [Spectrum.point, hi] using this
  · obtain ⟨i, hi, rfl⟩ := List.mem_iff_getElem.mp hv
    have := (Complex.abs_im_le_norm _).trans (hz i (h2 ▸ hi))
    simpa [Spectrum.point, hi] using this

/-- Settles O27: the magnitude starts at `2^15` at most and grows by `fftPass_within` in each of at most 14 passes. -/
theorem fftStaysInsideThirtyOneBits : Obligations.FftStaysInsideThirtyOneBits := by
  intro c x p hp htw v hv
  have hwithin := fftPasses_within c x (fun t ht => norm_twiddle_le (htw t ht)) hp
  have habs : |(v : ℝ)| < 2 ^ 30 := (hwithin.abs_le hv).trans_lt (magnitude_lt c hp)
  exact abs_lt.mp (by exact_mod_cast habs)

end Sys2Proof.Machine
end

section
/-! SUPPORT. Proofs of the family 20_memory.md: the written samples are read in their order (rules R76, R124, R127). -/

namespace Sys2Proof.Machine

variable {s t : State} {hist : History}

/-! ## Events that leave the ring and its cursors alone -/

/-- `t` has the ring and the cursors of `s`, so the same samples are unread (R24). -/
structure State.RingKept (s t : State) : Prop where
  cfg : t.cfg = s.cfg := by rfl
  ring : t.ring = s.ring := by rfl
  readPos : t.readPos = s.readPos := by rfl
  writePos : t.writePos = s.writePos := by rfl

theorem History.Tracks.of_ringKept (ht : hist.Tracks s) (k : s.RingKept t) : hist.Tracks t where
  count := by rw [State.unread, k.cfg, k.writePos, k.readPos]; exact ht.count
  window := by rw [State.unread, k.cfg, k.ring, k.writePos, k.readPos]; exact ht.window

/-- Of the events only PUSH.B and ST.IDLE.B touch the ring or a cursor, and both move their port's phase (R31, R33). -/
theorem Event.ringKept (e : Event s t) (hP : s.pPhase = .copy → t.pPhase = .copy)
    (hE : s.ePhase = .copy → t.ePhase = .copy) : s.RingKept t := by
  cases e with
  | copyBlock _ hp e => cases e; exact nomatch hP hp
  | readFrame _ he => exact nomatch hE he
  | accountBlock _ _ e => cases e; exact {}
  | _ => exact {}

/-- A port with an event left keeps it while another port's command moves on. -/
theorem State.Progress.eventsLeft_eq {p p' : Port} (h : s.Progress t p) (hl : s.eventsLeft p = 0)
    (hl' : s.eventsLeft p' ≠ 0) : t.eventsLeft p' = s.eventsLeft p' :=
  h.others p' fun e => hl' (e ▸ hl)

theorem pPhase_copy_iff : s.pPhase = .copy ↔ s.eventsLeft .P = 2 := by
  unfold State.eventsLeft
  cases s.pPhase <;> simp

theorem ePhase_copy_iff : s.ePhase = .copy ↔ s.eventsLeft .E = 1 := by
  unfold State.eventsLeft
  cases s.ePhase <;> simp

/-- The first event of a command moves no block and no frame: those are later events of a command in flight (R19). -/
theorem exec_decoded_ringKept {p : Port} {w : Word} {i : Instr} (hl : s.eventsLeft p = 0) (hd : decodeOn p w = .ok i)
    (h : exec i s = .next t) : s.RingKept t := by
  have hprog := exec_decoded_progress hl hd h
  refine (exec_decoded_event hl hd h).ringKept (fun hp => ?_) fun he => ?_
  · rw [pPhase_copy_iff] at hp ⊢
    rw [hprog.eventsLeft_eq hl (by rw [hp]; decide), hp]
  · rw [ePhase_copy_iff] at he ⊢
    rw [hprog.eventsLeft_eq hl (by rw [he]; decide), he]

/-- A step that is none of the three which R76 tells apart leaves the ring and the cursors. -/
theorem StepTo.ringKept (h : StepTo s t) (hcopy : ¬s.copiesNext) (hread : ¬s.readsNext) (hreset : ¬s.resetsNext) :
    s.RingKept t := by
  cases h with
  | idle | releaseRst | nothing | illegal => exact {}
  | assertRst _ hs => exact absurd (congrArg List.head? hs) hreset
  | pushCopy _ _ hs hp hr => exact absurd ⟨congrArg List.head? hs, hp, hr⟩ hcopy
  | idleCopy _ _ hs he hr => exact absurd ⟨congrArg List.head? hs, he, hr⟩ hread
  | pushAccount _ _ _ _ _ e => cases e; exact {}
  | command p rest _ ws _ _ _ hl _ _ hd e =>
    exact { exec_decoded_ringKept (s := { s with schedule := rest, queues := s.queues.set ws p }) hl hd e with }

/-! ## The two events that move the window -/

/-- Where the window shows the list `ys` from number `b` to its end, storing `xs` at the write cursor appends `xs`. -/
theorem ringWrite_window {C w r b : Nat} {m : Memory} {xs ys : List Sample} (hm : m.wf) (hw : w < C) (hr : r < C)
    (hfit : unreadCount C w r + xs.length < C) (hlen : ys.length = b + unreadCount C w r)
    (h : ∀ k < unreadCount C w r, m.read (ringAddr C r k) = ys[b + k]?) {k : Nat}
    (hk : k < unreadCount C w r + xs.length) : (ringWrite C m w xs).read (ringAddr C r k) = (ys ++ xs)[b + k]? := by
  rcases Nat.lt_or_ge k (unreadCount C w r) with hlt | hge
  · rw [ringWrite_read_unread hm hw hr hfit hlt, h k hlt, List.getElem?_append_left (by omega)]
  · obtain ⟨j, rfl⟩ := Nat.exists_eq_add_of_le hge
    rw [← ringAddr_writePos hw hr, ringWrite_read_at xs hm w j (by omega) (by omega),
      List.getElem?_append_right (by omega), ← Nat.add_assoc, ← hlen, Nat.add_sub_cancel_left]

/-- After PUSH.B the unread window ends with the block's samples (R124). -/
theorem pushCopy_tracks (h : s.Inv) (ht : hist.Tracks s) (hp : s.pPhase = .copy) (e : pushCopy s = .next t) :
    History.Tracks ⟨hist.written ++ s.pPayload, hist.reads⟩ t := by
  have hu := unreadCount_write h.writePos_lt h.readPos_lt (h.push_fits hp)
  have hlen := h.push_payload hp
  have hfit := hlen ▸ h.block_lt hp
  rw [pushCopy, List.take_of_length_le hlen.le] at e
  cases e
  constructor
  case count =>
    rw [List.length_append, hlen, ht.count, Nat.add_assoc]
    exact congrArg (_ + ·) hu.symm
  case window =>
    exact fun k hk => ringWrite_window h.ring_wf h.writePos_lt h.readPos_lt hfit ht.count ht.window
      (hk.trans_eq (hlen ▸ hu))

/-- ST.IDLE.B delivers the first `W` samples of the window and takes the first `S` of them away (R127). -/
theorem idleCopy_tracks (h : s.Inv) (ht : hist.Tracks s) (he : s.ePhase = .copy) (e : idleCopy s = .next t) :
    History.Tracks ⟨hist.written, hist.reads + 1⟩ t ∧ t.frame.length = s.cfg.val.W ∧
      ∀ i < s.cfg.val.W, t.frame[i]? = hist.written[hist.reads * s.cfg.val.S + i]? := by
  have hW := h.copy_unread he
  have hS : s.cfg.val.S ≤ s.unread := s.cfg.S_lt_W.le.trans hW
  have hu := unreadCount_read h.writePos_lt h.readPos_lt hS
  obtain ⟨x, hx⟩ := ringRead_isOk (h.window_written hW)
  obtain ⟨hlen, hget⟩ := ringRead_ok.mp hx
  rw [idleCopy_next hx] at e
  cases e
  refine ⟨⟨?count, ?window⟩, hlen, fun i hi => ?frame⟩
  case count =>
    have hsum : (hist.reads + 1) * s.cfg.val.S + (s.unread - s.cfg.val.S) = hist.reads * s.cfg.val.S + s.unread := by
      rw [Nat.succ_mul]
      omega
    exact ht.count.trans (hsum.symm.trans (congrArg (_ + ·) hu.symm))
  case window =>
    intro k hk
    have hk : s.cfg.val.S + k < s.unread := Nat.add_lt_of_lt_sub' (hk.trans_eq hu)
    have hread := ht.window _ hk
    rw [← ringAddr_add, ← Nat.add_assoc, ← Nat.succ_mul] at hread
    exact hread
  case frame => exact (hget i hi).symm.trans (ht.window i (hi.trans_le hW))

/-! ## The numbering starts at reset -/

/-- An empty ring with both cursors at 0 has no sample numbered (R53). -/
theorem History.Tracks.empty (hr : s.readPos = 0) (hw : s.writePos = 0) : History.Tracks ⟨[], 0⟩ s := by
  have hu : s.unread = 0 := by rw [State.unread, hr, hw, unreadCount_zero]
  exact ⟨by simp [hu], by simp [hu]⟩

/-- Settles O17: PUSH.B and ST.IDLE.B move the window (`pushCopy_tracks`, `idleCopy_tracks`), reset empties it, and every
other step leaves it (`StepTo.ringKept`). -/
theorem samplesAreReadInTheOrderWritten : Obligations.SamplesAreReadInTheOrderWritten := by
  refine ⟨fun c => .empty rfl rfl, fun s t hist h ht hstep => ⟨?copy, ?read, ?reset, ?quiet⟩⟩
  case copy =>
    rintro ⟨hs, hp, hr⟩
    obtain ⟨rest, hs⟩ := List.head?_eq_some_iff.mp hs
    obtain ⟨push, -⟩ := stepContinuesTheCommandInFlight s rest
    rw [push hs (by simp [hp]) hr, exec, execPush, hp] at hstep
    exact pushCopy_tracks (s := { s with schedule := rest }) (h.withEnv rest s.queues) (ht.of_ringKept {}) hp hstep
  case read =>
    rintro ⟨hs, he, hr⟩
    obtain ⟨rest, hs⟩ := List.head?_eq_some_iff.mp hs
    obtain ⟨-, idle, -⟩ := stepContinuesTheCommandInFlight s rest
    rw [idle hs he hr, exec, execStIdle, he] at hstep
    exact idleCopy_tracks (s := { s with schedule := rest }) (h.withEnv rest s.queues) (ht.of_ringKept {}) he hstep
  case reset =>
    intro hs
    obtain ⟨rest, hs⟩ := List.head?_eq_some_iff.mp hs
    rw [step, hs] at hstep
    cases hstep
    exact .empty rfl rfl
  case quiet => exact fun hc hr hx => ht.of_ringKept ((stepTo_of_step hstep).ringKept hc hr hx)

end Sys2Proof.Machine
end

section
/-! SUPPORT. Proofs of the family 20_memory.md: a STEP completes (rule R74), and each port writes its own column of the
state (47_system.md rule R286). -/

namespace Sys2Proof.Machine

variable {s t : State}

/-! ## STEP completes (R74, R151) -/

theorem execStIdle_answers_of_written (h : s.ePhase = .copy → ∀ k < s.cfg.val.W,
    (s.ring.read (ringAddr s.cfg.val.C s.readPos k)).isSome = true) : ∃ t, execStIdle s = .next t := by
  unfold execStIdle
  cases he : s.ePhase with
  | idle => exact ⟨_, rfl⟩
  | copy =>
    obtain ⟨x, hx⟩ := ringRead_isOk (h he)
    exact ⟨_, idleCopy_next hx⟩

theorem execStStore_answers_of_row (h : s.swapPending = false → s.rowIdx.toNat < s.cfg.val.NUM_FRAMES) :
    ∃ t, execStStore s = .next t := by
  cases hp : s.swapPending with
  | true => exact ⟨_, execStStore_pending hp⟩
  | false => exact ⟨_, execStStore_store hp (h hp)⟩

/-- Settles O11: only the frame copy and the row store can fault; the six stages between them need nothing. -/
theorem stepCompletes : Obligations.StepCompletes := by
  intro s hring hrow
  unfold exec execStep
  cases hs : s.stage with
  | idle => exact execStIdle_answers_of_written (hring hs)
  | store => exact execStStore_answers_of_row (hrow hs)
  | _ => exact ⟨_, rfl⟩

/-! ## What the row store leaves of MAT (R233)

No premise on the memory's form: that an element keeps its value where nothing is written needs none. -/

theorem Memory.read_write_of_ne (m : Memory) {a b : Nat} (x : Sample) (h : b ≠ a) :
    Memory.read (m.write a x) b = m.read b := by
  induction m with
  | nil => simp [Memory.write, Memory.read, h]
  | cons p m ih =>
    obtain ⟨c, v⟩ := p
    rw [Memory.write]
    split_ifs with hlt heq
    · simp [Memory.read, h]
    · simp [Memory.read, h, ← heq]
    · simp only [Memory.read, ih]

theorem rowWrite_read_outside (xs : List Sample) (m : Memory) {a b : Nat} (h : ∀ k < xs.length, b ≠ a + k) :
    Memory.read (rowWrite m a xs) b = m.read b := by
  induction xs generalizing m a with
  | nil => rfl
  | cons x xs ih =>
    have h0 : b ≠ a := h 0 (by simp)
    rw [rowWrite, ih, Memory.read_write_of_ne m x h0]
    intro k hk
    rw [Nat.add_assoc, Nat.add_comm 1]
    exact h (k + 1) (by simpa using hk)

theorem storeRow_read_outside (s : State) {a : Nat}
    (h : ∀ c < s.cfg.val.NCEPS, a ≠ matAddr s.cfg.val s.activeSel s.rowIdx.toNat c) :
    s.storeRow.mat.read a = s.mat.read a := by
  rw [State.storeRow_mat]
  refine rowWrite_read_outside _ _ fun k hk => ?_
  rw [← matAddr_add]
  exact h k (by rwa [cepsNow_length] at hk)

/-! ## Port P's column (R286) -/

/-- `s` with port P's column of R286 taken from `t`. -/
def State.withProducerColumn (s t : State) : State :=
  { s with
    ring := t.ring, writePos := t.writePos, strideCnt := t.strideCnt, frCount := t.frCount
    overrunCnt := t.overrunCnt, pPhase := t.pPhase, pN := t.pN, pPayload := t.pPayload, beats := t.beats
    responses := t.responses }

/-- PUSH.C adds tokens: its saturation never takes one away. -/
theorem pushAccount_frCount_ge (h : pushAccount s = .next t) : s.frCount.toNat ≤ t.frCount.toNat := by
  cases h
  have := s.frCount.isLt
  exact (Nat.le_min.mpr ⟨Nat.le_add_right _ _, by omega⟩).trans_eq (toNat_frCount _).symm

theorem execPush_column {n : BitVec 16} (h : execPush n s = .next t) :
    s.frCount.toNat ≤ t.frCount.toNat ∧ t = s.withProducerColumn t := by
  unfold execPush at h
  split at h
  case h_1 =>
    unfold pushCheck at h
    split_ifs at h <;> cases h <;> exact ⟨Nat.le_refl _, rfl⟩
  case h_2 => cases h; exact ⟨Nat.le_refl _, rfl⟩
  case h_3 =>
    have hfr := pushAccount_frCount_ge h
    cases h
    exact ⟨hfr, rfl⟩

/-! ## Port E's column (R286) -/

/-- `s` with port E's column of R286 taken from `t`. -/
def State.withEngineColumn (s t : State) : State :=
  { s with
    readPos := t.readPos, frCount := t.frCount, underrunCnt := t.underrunCnt, clampCnt := t.clampCnt
    stallCnt := t.stallCnt, ePhase := t.ePhase, stage := t.stage, uflag := t.uflag, frame := t.frame
    fre := t.fre, fim := t.fim, power := t.power, melq := t.melq, ceps := t.ceps, mat := t.mat
    activeSel := t.activeSel, readyValid := t.readyValid, mrSig := t.mrSig, rowIdx := t.rowIdx
    swapPending := t.swapPending, responses := t.responses }

/-- `t` is `s` after an event of stage operation `g`: port E's column only, tokens at most taken, `ready_valid` and `mr_sig`
at most set, and of MAT the row that ST.STORE stores. -/
structure State.EngineMoves (s t : State) (g : Stage) : Prop where
  column : t = s.withEngineColumn t := by rfl
  tokens : t.frCount.toNat ≤ s.frCount.toNat := by exact Nat.le_refl _
  ready : s.readyValid = true → t.readyValid = true := by exact id
  signal : s.mrSig = true → t.mrSig = true := by exact id
  mat : t.mat = s.mat ∨
    g = .store ∧ s.swapPending = false ∧ s.rowIdx.toNat < s.cfg.val.NUM_FRAMES ∧ t.mat = s.storeRow.mat := by
    exact .inl rfl

/-- The check of a read that holds its token (R126); `c` is the count with the token taken, if it was (R156). -/
theorem readCheck_moves {c : BitVec 16} (hc : c.toNat ≤ s.frCount.toNat) :
    s.EngineMoves (readCheck { s with frCount := c }) .idle := by
  unfold readCheck
  split_ifs <;> exact { tokens := hc }

theorem idleCheck_moves (s : State) : s.EngineMoves (idleCheck s) .idle := by
  cases hu : s.uflag with
  | true =>
    rw [idleCheck_retry hu]
    exact readCheck_moves (Nat.le_refl _)
  | false =>
    by_cases h0 : s.frCount = 0#16
    · rw [idleCheck_wait hu h0]
      exact {}
    · rw [idleCheck_take hu h0]
      exact readCheck_moves (by rw [toNat_takeToken h0]; exact Nat.sub_le _ _)

theorem execStIdle_moves (h : execStIdle s = .next t) : s.EngineMoves t .idle := by
  unfold execStIdle at h
  split at h
  case h_1 => cases h; exact idleCheck_moves s
  case h_2 =>
    unfold idleCopy at h
    split at h <;> cases h
    exact {}

/-- What follows the row store changes no element of MAT (R235, R236). -/
theorem afterRow_moves (hp : s.swapPending = false) (hr : s.rowIdx.toNat < s.cfg.val.NUM_FRAMES) (r : BitVec 13) :
    s.EngineMoves (afterRow { s.storeRow with rowIdx := r }) .store := by
  unfold afterRow
  split_ifs
  · exact { mat := .inr ⟨rfl, hp, hr, rfl⟩ }
  · exact { ready := fun _ => rfl, signal := fun _ => rfl, mat := .inr ⟨rfl, hp, hr, rfl⟩ }
  · exact { mat := .inr ⟨rfl, hp, hr, rfl⟩ }

theorem retrySwap_moves (s : State) : s.EngineMoves (retrySwap s) .store := by
  unfold retrySwap
  split_ifs
  · exact { ready := fun _ => rfl, signal := fun _ => rfl }
  · exact {}

theorem execStStore_moves (h : execStStore s = .next t) : s.EngineMoves t .store := by
  unfold execStStore at h
  split_ifs at h with hp hr <;> cases h
  · exact retrySwap_moves s
  · exact afterRow_moves (Bool.eq_false_of_not_eq_true hp) hr _

theorem exec_operation_moves (g : Stage) (h : exec g.operation s = .next t) : s.EngineMoves t g := by
  cases g with
  | idle => exact execStIdle_moves h
  | store => exact execStStore_moves h
  | _ => cases h; exact {}

/-- Every instruction of port E runs one stage operation: its own, or for STEP the selected one (R151). -/
theorem exec_engine_operation {i : Instr} (hi : i.port = .E) (s : State) :
    ∃ g : Stage, exec i s = exec g.operation s ∧ (i = g.operation ∨ i = .step ∧ s.stage = g) := by
  cases i with
  | step => exact ⟨s.stage, by unfold exec execStep; cases s.stage <;> rfl, .inr ⟨rfl, rfl⟩⟩
  | stIdle => exact ⟨.idle, rfl, .inl rfl⟩
  | stPreemph => exact ⟨.preEmphasis, rfl, .inl rfl⟩
  | stWindow => exact ⟨.window, rfl, .inl rfl⟩
  | stFft => exact ⟨.fft, rfl, .inl rfl⟩
  | stPower => exact ⟨.power, rfl, .inl rfl⟩
  | stMel => exact ⟨.mel, rfl, .inl rfl⟩
  | stDct => exact ⟨.dct, rfl, .inl rfl⟩
  | stStore => exact ⟨.store, rfl, .inl rfl⟩
  | _ => cases hi

/-- Only ST.STORE writes MAT. -/
theorem State.EngineMoves.mat_of_ne {g : Stage} (e : s.EngineMoves t g) (hg : g ≠ .store) : t.mat = s.mat :=
  e.mat.resolve_right fun ⟨hst, _⟩ => hg hst

/-- A retry of the swap stores nothing twice (R233). -/
theorem State.EngineMoves.mat_of_pending {g : Stage} (e : s.EngineMoves t g) (hp : s.swapPending = true) :
    t.mat = s.mat :=
  e.mat.resolve_right fun ⟨_, hp', _⟩ => absurd (hp'.symm.trans hp) Bool.false_ne_true

/-- An element outside row `row_idx` of the active matrix keeps its value. -/
theorem State.EngineMoves.mat_read_outside {g : Stage} (e : s.EngineMoves t g) {a : Nat}
    (ha : ∀ c < s.cfg.val.NCEPS, a ≠ matAddr s.cfg.val s.activeSel s.rowIdx.toNat c) :
    t.mat.read a = s.mat.read a := by
  rcases e.mat with hm | ⟨-, -, -, hm⟩
  · rw [hm]
  · rw [hm, storeRow_read_outside s ha]

/-- The other matrix keeps every element: where a row is stored at all, it is a row of the active one. -/
theorem State.EngineMoves.mat_read_other {g : Stage} (e : s.EngineMoves t g) {r c : Nat}
    (hr : r < s.cfg.val.NUM_FRAMES) (hc : c < s.cfg.val.NCEPS) :
    t.mat.read (matAddr s.cfg.val (!s.activeSel) r c) = s.mat.read (matAddr s.cfg.val (!s.activeSel) r c) := by
  rcases e.mat with hm | ⟨-, -, hrow, -⟩
  · rw [hm]
  · refine e.mat_read_outside fun c' hc' heq => ?_
    obtain ⟨hsel, -⟩ := matAddr_inj hr hrow hc hc' heq
    exact Bool.not_ne_self _ hsel

/-! ## Port K's column (R286) -/

/-- `t` is `s` after an event of port K: `ready_valid` and `mr_sig` at most cleared. -/
structure State.ConsumerMoves (s t : State) : Prop where
  column : t = { s with readyValid := t.readyValid, mrSig := t.mrSig, responses := t.responses } := by rfl
  ready : t.readyValid = true → s.readyValid = true := by exact id
  signal : t.mrSig = true → s.mrSig = true := by exact id

theorem execMtake_moves (h : execMtake s = .next t) : s.ConsumerMoves t := by
  unfold execMtake at h
  split_ifs at h <;> cases h
  · exact { signal := nofun }
  · exact {}

theorem execMread_moves {r c : BitVec 12} (h : execMread r c s = .next t) : s.ConsumerMoves t := by
  unfold execMread at h
  split at h
  case isTrue => cases h; exact {}
  case isFalse => split at h <;> cases h; exact {}

theorem execRelease_moves (h : execRelease s = .next t) : s.ConsumerMoves t := by
  unfold execRelease at h
  split_ifs at h <;> cases h
  · exact { ready := nofun, signal := nofun }
  · exact {}

/-! ## The instructions of each port -/

/-- Port D answers and writes nothing (R286). -/
theorem execRdcsr_column {a : BitVec 8} (h : execRdcsr a s = .next t) : t = { s with responses := t.responses } := by
  unfold execRdcsr at h
  split at h <;> cases h <;> rfl

/-- Settles O54: one clause per port, from the columns of its instructions; `State.EngineMoves` says what of MAT port E
writes. -/
theorem eachPortWritesOnlyItsOwnState : Obligations.EachPortWritesOnlyItsOwnState := by
  refine fun i s t h => ⟨fun hi => ?producer, fun hi => ?engine, fun hi => ?consumer, fun hi => ?diagnostics⟩
  case producer =>
    cases i with
    | push n => exact execPush_column h
    | _ => cases hi
  case engine =>
    obtain ⟨g, hg, hrun⟩ := exec_engine_operation hi s
    have e := exec_operation_moves g (hg ▸ h)
    refine ⟨e.tokens, e.ready, e.signal, fun hne hstep => e.mat_of_ne ?_, e.mat_of_pending, fun a => e.mat_read_outside,
      fun r hr c => e.mat_read_other hr, e.column⟩
    rintro rfl
    rcases hrun with rfl | ⟨rfl, hs⟩
    · exact hne rfl
    · exact hstep rfl hs
  case consumer =>
    have e : s.ConsumerMoves t := by
      cases i with
      | mtake => exact execMtake_moves h
      | mread => exact execMread_moves h
      | release => exact execRelease_moves h
      | _ => cases hi
    exact ⟨e.ready, e.signal, e.column⟩
  case diagnostics =>
    cases i with
    | avail => cases h; rfl
    | rdcsr => exact execRdcsr_column h
    | _ => cases hi

end Sys2Proof.Machine
end

section
/-! SUPPORT. Proofs of the family 30_encoding.md: the rows of the opcode table (rules R91, R93) as arithmetic on
the word, what the decoder answers (R99 to R104), and that it and the encoder are inverse. -/

namespace Sys2Proof

variable {p : Port} {w w' : Word} {o o' : Opcode} {i : Instr}

/-! ## The rows of the opcode table (R93) -/

/-- The value of the field `OPC` (R93). -/
def Opcode.code : Opcode → Nat
  | .push => 1
  | .step => 2
  | .avail => 3
  | .rdcsr => 4
  | .mtake => 5
  | .mread => 6
  | .release => 7

/-- How many low bits of the word are operand fields; the bits from there up to `OPC` must be zero (R91). -/
def Opcode.operandBits : Opcode → Nat
  | .push => 16
  | .step => 0
  | .avail => 0
  | .rdcsr => 8
  | .mtake => 0
  | .mread => 24
  | .release => 0

/-- The opcode whose row an instruction belongs to; a stage operation has none (R92). -/
def Instr.opcode : Instr → Option Opcode
  | .push _ => some .push
  | .step => some .step
  | .avail => some .avail
  | .rdcsr _ => some .rdcsr
  | .mtake => some .mtake
  | .mread _ _ => some .mread
  | .release => some .release
  | _ => none

@[simp] theorem Opcode.opcode_instr (o : Opcode) (w : Word) : (o.instr w).opcode = some o := by cases o <;> rfl

theorem Opcode.exists_iff {P : Opcode → Prop} :
    (∃ o, P o) ↔ P .push ∨ P .step ∨ P .avail ∨ P .rdcsr ∨ P .mtake ∨ P .mread ∨ P .release := by
  constructor
  · rintro ⟨o, h⟩
    cases o <;> simp [h]
  · rintro (h | h | h | h | h | h | h) <;> exact ⟨_, h⟩

theorem Opcode.operandBits_le (o : Opcode) : o.operandBits ≤ 24 := by cases o <;> decide

/-- The mask covers all bits but the operand fields. -/
theorem Opcode.mask_eq (o : Opcode) : o.mask = BitVec.allOnes 32 <<< o.operandBits := by cases o <;> decide

/-- The match column is `OPC` above zeros. -/
theorem Opcode.toNat_matchBits (o : Opcode) :
    o.matchBits.toNat = o.code * 2 ^ (24 - o.operandBits) * 2 ^ o.operandBits := by
  cases o <;> rfl

/-- A word matches a row exactly when its bits above the operand fields are `OPC` and zeros. -/
theorem Opcode.matches_iff_div :
    w &&& o.mask = o.matchBits ↔ w.toNat / 2 ^ o.operandBits = o.code * 2 ^ (24 - o.operandBits) := by
  have hlt : w.toNat / 2 ^ o.operandBits * 2 ^ o.operandBits < 2 ^ 32 :=
    (Nat.div_mul_le_self _ _).trans_lt w.isLt
  rw [o.mask_eq, ← BitVec.shiftLeft_ushiftRight, BitVec.toNat_eq, BitVec.toNat_shiftLeft, BitVec.toNat_ushiftRight,
    Nat.shiftLeft_eq, Nat.shiftRight_eq_div_pow, Nat.mod_eq_of_lt hlt, o.toNat_matchBits]
  exact Nat.mul_left_inj (by positivity)

theorem toNat_opcField (w : Word) : (w.extractLsb' 24 8).toNat = w.toNat / 2 ^ 24 := by
  rw [BitVec.extractLsb'_toNat, Nat.shiftRight_eq_div_pow, Nat.mod_eq_of_lt (by omega)]

/-- The opcode a word has is the row with its `OPC` (R93). -/
theorem opcodeOf_eq_some : opcodeOf w = some o ↔ (w.extractLsb' 24 8).toNat = o.code := by
  constructor
  · intro h
    unfold opcodeOf at h
    split at h <;> cases h <;> assumption
  · intro h
    rw [opcodeOf, h]
    cases o <;> rfl

/-- `OPC` is reserved when it is 0 or at least 8 (R100). -/
theorem opcodeOf_eq_none :
    opcodeOf w = none ↔ (w.extractLsb' 24 8).toNat = 0 ∨ 8 ≤ (w.extractLsb' 24 8).toNat := by
  rw [Option.eq_none_iff_forall_ne_some, ← not_exists_not]
  simp only [ne_eq, not_not, opcodeOf_eq_some, Opcode.exists_iff, Opcode.code]
  omega

/-- A word matches a row exactly when it has the row's `OPC` and its must-be-zero bits are zero (R91, R101). -/
theorem Opcode.matches_iff :
    w &&& o.mask = o.matchBits ↔
      opcodeOf w = some o ∧ w.extractLsb' o.operandBits (24 - o.operandBits) = 0#(24 - o.operandBits) := by
  rw [Opcode.matches_iff_div, opcodeOf_eq_some, toNat_opcField, BitVec.toNat_eq, BitVec.extractLsb'_toNat,
    Nat.shiftRight_eq_div_pow, BitVec.toNat_ofNat, Nat.zero_mod]
  cases o <;> simp only [Opcode.code, Opcode.operandBits] <;> omega

/-! ## What the decoder answers (R99) -/

/-- The two remaining checks, once the opcode is known. -/
theorem decodeOn_of_opcode (h : opcodeOf w = some o) :
    decodeOn p w =
      if o.port ≠ p then .error .wrongPort
      else if w &&& o.mask ≠ o.matchBits then .error .mustBeZero
      else .ok (o.instr w) := by
  rw [decodeOn, h]

theorem decodeOn_of_reserved (h : opcodeOf w = none) : decodeOn p w = .error .reservedOpcode := by
  rw [decodeOn, h]

theorem decodeOn_eq_ok :
    decodeOn p w = .ok i ↔ ∃ o : Opcode, o.port = p ∧ w &&& o.mask = o.matchBits ∧ o.instr w = i := by
  constructor
  · intro h
    cases ho : opcodeOf w with
    | none => rw [decodeOn_of_reserved ho] at h; cases h
    | some o =>
      rw [decodeOn_of_opcode ho] at h
      split_ifs at h with hp hm
      exact ⟨o, not_not.mp hp, not_not.mp hm, Except.ok.inj h⟩
  · rintro ⟨o, rfl, hm, rfl⟩
    simp [decodeOn_of_opcode (Opcode.matches_iff.mp hm).1, hm]

theorem decodeOn_eq_reservedOpcode : decodeOn p w = .error .reservedOpcode ↔ opcodeOf w = none := by
  cases ho : opcodeOf w with
  | none => simp [decodeOn_of_reserved ho]
  | some o => rw [decodeOn_of_opcode ho]; split_ifs <;> simp

theorem decodeOn_eq_wrongPort : decodeOn p w = .error .wrongPort ↔ ∃ o, opcodeOf w = some o ∧ p ≠ o.port := by
  cases ho : opcodeOf w with
  | none => simp [decodeOn_of_reserved ho]
  | some o =>
    rw [decodeOn_of_opcode ho]
    by_cases hp : o.port = p
    · subst hp
      by_cases hm : w &&& o.mask = o.matchBits <;> simp [hm]
    · simp [hp, Ne.symm hp]

theorem decodeOn_eq_mustBeZero :
    decodeOn p w = .error .mustBeZero ↔ ∃ o, opcodeOf w = some o ∧ p = o.port ∧
      w.extractLsb' o.operandBits (24 - o.operandBits) ≠ 0#(24 - o.operandBits) := by
  cases ho : opcodeOf w with
  | none => simp [decodeOn_of_reserved ho]
  | some o =>
    have hrow := Opcode.matches_iff (w := w) (o := o)
    rw [ho, and_iff_right rfl] at hrow
    rw [decodeOn_of_opcode ho]
    by_cases hp : o.port = p
    · subst hp
      by_cases hm : w &&& o.mask = o.matchBits <;> simp [hm, ← hrow]
    · simp [hp, Ne.symm hp]

/-- Settles O4: each refusal by its own lemma, opcode by opcode. MREAD has no must-be-zero bit. -/
theorem reservedWordsAreRejectedByName : Obligations.ReservedWordsAreRejectedByName := by
  refine fun p w => ⟨decodeOn_eq_reservedOpcode.trans opcodeOf_eq_none, ?port, ?zero⟩
  case port =>
    rw [decodeOn_eq_wrongPort, Opcode.exists_iff]
    simp only [opcodeOf_eq_some]
    rfl
  case zero =>
    have hread : w.extractLsb' 24 0 = 0#0 := Subsingleton.elim _ _
    rw [decodeOn_eq_mustBeZero, Opcode.exists_iff]
    simp only [opcodeOf_eq_some, Opcode.code, Opcode.port, Opcode.operandBits, hread, ne_eq, not_true_eq_false,
      and_false, false_or]

/-- The row of an instruction decides: only that row's words decode to it. -/
theorem decodeOn_eq_ok_of_opcode (hi : i.opcode = some o) :
    decodeOn p w = .ok i ↔ p = o.port ∧ w &&& o.mask = o.matchBits ∧ i = o.instr w := by
  rw [decodeOn_eq_ok]
  constructor
  · rintro ⟨o', rfl, hm, rfl⟩
    obtain rfl : o' = o := by simpa using hi
    exact ⟨rfl, hm, rfl⟩
  · rintro ⟨rfl, hm, rfl⟩
    exact ⟨o, rfl, hm, rfl⟩

/-- Settles O2: `decodeOn_eq_ok_of_opcode` at each row. -/
theorem commandWordDecodesByItsRow : Obligations.CommandWordDecodesByItsRow := by
  refine fun p w => ⟨fun n => ?_, ?_, ?_, fun a => ?_, ?_, fun r c => ?_, ?_⟩ <;>
    rw [decodeOn_eq_ok_of_opcode rfl] <;>
    simp only [Opcode.port, Opcode.mask, Opcode.matchBits, Opcode.instr, Instr.push.injEq, Instr.rdcsr.injEq,
      Instr.mread.injEq, and_true]

/-! ## Decoder and encoder -/

/-- The encoding of every instruction matches its row and holds its operands. -/
theorem encode_matchesRow (i : Instr) : Laws.MatchesRow.Statement i := by
  cases i with
  | push n => exact Laws.MatchesRow.push n
  | step => exact Laws.MatchesRow.step
  | avail => exact Laws.MatchesRow.avail
  | rdcsr a => exact Laws.MatchesRow.rdcsr a
  | mtake => exact Laws.MatchesRow.mtake
  | mread r c => exact Laws.MatchesRow.mread r c
  | release => exact Laws.MatchesRow.release
  | stIdle => exact Laws.MatchesRow.stIdle
  | stPreemph => exact Laws.MatchesRow.stPreemph
  | stWindow => exact Laws.MatchesRow.stWindow
  | stFft => exact Laws.MatchesRow.stFft
  | stPower => exact Laws.MatchesRow.stPower
  | stMel => exact Laws.MatchesRow.stMel
  | stDct => exact Laws.MatchesRow.stDct
  | stStore => exact Laws.MatchesRow.stStore

theorem decode_encode (i : Instr) : decode (encode i) = .ok i := by
  have h := encode_matchesRow i
  unfold Laws.MatchesRow.Statement at h
  cases he : encode i with
  | command p w =>
    rw [he] at h
    obtain ⟨o, hp, -, hm, hi⟩ := h
    exact decodeOn_eq_ok.mpr ⟨o, hp, hm, hi⟩
  | stage c =>
    rw [he] at h
    exact congrArg Except.ok h

/-- The operand fields cover all low bits, so an instruction has them all. -/
theorem Opcode.instr_mod (h : o.instr w = o.instr w') : w.toNat % 2 ^ o.operandBits = w'.toNat % 2 ^ o.operandBits := by
  cases o with
  | step | avail | mtake | release => simp [Opcode.operandBits, Nat.mod_one]
  | push =>
    have h := congrArg BitVec.toNat (Instr.push.inj h)
    rwa [BitVec.extractLsb'_toNat, BitVec.extractLsb'_toNat] at h
  | rdcsr =>
    have h := congrArg BitVec.toNat (Instr.rdcsr.inj h)
    rwa [BitVec.extractLsb'_toNat, BitVec.extractLsb'_toNat] at h
  | mread =>
    obtain ⟨hr, hc⟩ := Instr.mread.inj h
    have hr := congrArg BitVec.toNat hr
    have hc := congrArg BitVec.toNat hc
    simp only [BitVec.extractLsb'_toNat, Nat.shiftRight_eq_div_pow] at hr hc
    simp only [Opcode.operandBits]
    omega

/-- A row fixes every bit that is no operand: two words of one row with the same operands are the same word. -/
theorem Opcode.word_unique (hw : w &&& o.mask = o.matchBits) (hw' : w' &&& o.mask = o.matchBits)
    (h : o.instr w = o.instr w') : w = w' := by
  apply BitVec.eq_of_toNat_eq
  rw [← Nat.div_add_mod w.toNat (2 ^ o.operandBits), ← Nat.div_add_mod w'.toNat (2 ^ o.operandBits),
    Opcode.matches_iff_div.mp hw, Opcode.matches_iff_div.mp hw', Opcode.instr_mod h]

theorem opcode_decodeStage (c : BitVec 3) : (decodeStage c).opcode = none := by
  rw [decodeStage]
  cases Stage.ofCode c <;> rfl

/-- A word that decodes to an instruction is the instruction's own encoding: both match the row of its opcode. -/
theorem encode_of_decodeOn (h : decodeOn p w = .ok i) : encode i = .command p w := by
  obtain ⟨o, rfl, hm, rfl⟩ := decodeOn_eq_ok.mp h
  have hrow := encode_matchesRow (o.instr w)
  unfold Laws.MatchesRow.Statement at hrow
  cases he : encode (o.instr w) with
  | command p' w' =>
    rw [he] at hrow
    obtain ⟨o', rfl, -, hm', hi⟩ := hrow
    obtain rfl : o' = o := by simpa using congrArg Instr.opcode hi
    rw [Opcode.word_unique hm' hm hi]
  | stage c =>
    rw [he] at hrow
    have hnone := opcode_decodeStage c
    rw [hrow, Opcode.opcode_instr] at hnone
    cases hnone

theorem encode_decodeStage : ∀ c : BitVec 3, encode (decodeStage c) = .stage c := by decide

/-- Settles O1: one direction is `decode_encode`; the other is `encode_of_decodeOn` for a word, and a check of the eight
codes for a stage. -/
theorem decodeAndEncodeAreInverse : Obligations.DecodeAndEncodeAreInverse := by
  refine ⟨decode_encode, fun e i h => ?_⟩
  cases e with
  | command p w => exact encode_of_decodeOn h
  | stage c => exact (congrArg encode (Except.ok.inj h)).symm.trans (encode_decodeStage c)

/-- Settles O3: a code and a stage are read off each other at each of the eight. -/
theorem everyStageCodeIsUsed : Obligations.EveryStageCodeIsUsed := by
  refine ⟨rfl, rfl, rfl, rfl, rfl, rfl, rfl, rfl, by decide, fun st => ?_⟩
  cases st <;> rfl

/-- Settles O6: ten closed words. -/
theorem wordsOfTheSpecDecode : Obligations.WordsOfTheSpecDecode :=
  ⟨rfl, rfl, rfl, rfl, rfl, rfl, rfl, rfl, rfl, rfl⟩

end Sys2Proof
end

section
/-! SUPPORT. Proofs of the family 30_encoding.md: the register map (rule R102, 47_system.md rule R262), the words
answered ILLEGAL (R99) and the statuses of each instruction (60_exceptions.md rule R272). -/

namespace Sys2Proof.Machine

variable {s t : State}

/-! ## The register map (R49, R262) -/

/-- The status with which RDCSR ends (R262). -/
def State.csrStatus (s : State) (a : BitVec 8) : Status := if (s.csr a).isSome then .ok else .illegal

/-- The data with which RDCSR ends (R262). -/
def State.csrData (s : State) (a : BitVec 8) : Word := (s.csr a).getD 0#32

theorem exec_rdcsr (s : State) (a : BitVec 8) :
    exec (.rdcsr a) s = .next (s.respond .D (s.csrStatus a) (s.csrData a)) := by
  rw [exec, execRdcsr, State.csrStatus, State.csrData]
  cases s.csr a <;> rfl

theorem csr_answer {a : BitVec 8} {v : Word} (h : s.csr a = some v) : s.csrStatus a = .ok ∧ s.csrData a = v := by
  simp [State.csrStatus, State.csrData, h]

/-- A register of at most 32 bits that holds the number `n` reads as `n` (R49: zero-extended). -/
theorem csr_answer_toNat {a : BitVec 8} {v : Word} {n : Nat} (h : s.csr a = some v) (hn : v.toNat = n) :
    s.csrStatus a = .ok ∧ (s.csrData a).toNat = n := by
  obtain ⟨hst, hd⟩ := csr_answer h
  exact ⟨hst, hd ▸ hn⟩

/-- The map has no register outside its three ranges (R102). -/
theorem csr_eq_none {a : BitVec 8}
    (h : ¬(a.toNat ≤ 0x05 ∨ (0x08 ≤ a.toNat ∧ a.toNat ≤ 0x0B) ∨ (0x10 ≤ a.toNat ∧ a.toNat ≤ 0x17))) :
    s.csr a = none := by
  unfold State.csr
  split
  case h_19 => rfl
  all_goals omega

theorem csr_answer_illegal {a : BitVec 8} (h : s.csr a = none) : s.csrStatus a = .illegal ∧ s.csrData a = 0#32 := by
  simp [State.csrStatus, State.csrData, h]

/-- Every configuration parameter is read as it is: it is below `2^32` (R8). -/
theorem toNat_parameter {n : Nat} (h : n ≤ 65536) : (BitVec.ofNat 32 n).toNat = n := by
  rw [BitVec.toNat_ofNat, Nat.mod_eq_of_lt (by omega)]

/-- Settles O43: `exec_rdcsr`, and the map read at each address. -/
theorem rdcsrReadsTheMap : Obligations.RdcsrReadsTheMap := by
  intro s a
  have hC := s.cfg.C_le
  have hW := s.cfg.W_lt_C
  have hS := s.cfg.S_lt_W
  have hF := s.cfg.NFFT_le
  have hNF := s.cfg.NF_le
  have hceps := s.cfg.NCEPS_le
  have hframes := s.cfg.NUM_FRAMES_le
  have halpha := s.cfg.ALPHA_Q15_le
  refine ⟨s.csrStatus a, s.csrData a, exec_rdcsr s a, fun h => ?status, fun hr h => ?readPos, fun hw h => ?writePos,
    fun h => ?strideCnt, fun h => ?frCount, fun h => ?rowIdx, fun h => ?overrun, fun h => ?underrun, fun h => ?clamp,
    fun h => ?stall, fun h => ?C, fun h => ?W, fun h => ?S, fun h => ?NFFT, fun h => ?NF, fun h => ?NCEPS,
    fun h => ?NUM_FRAMES, fun h => ?ALPHA_Q15, fun h => csr_answer_illegal (csr_eq_none h)⟩
  case status | overrun | underrun | clamp | stall => exact csr_answer (by rw [State.csr, h]; rfl)
  case strideCnt | frCount | rowIdx =>
    exact csr_answer_toNat (by rw [State.csr, h]; rfl) (BitVec.toNat_setWidth_of_le (by decide))
  all_goals exact csr_answer_toNat (by rw [State.csr, h]; rfl) (toNat_parameter (by omega))

/-! ## Words answered ILLEGAL (R99) -/

theorem exec_rdcsr_illegal {a : BitVec 8} (h : s.csr a = none) : exec (.rdcsr a) s = .next (s.illegal .D) := by
  obtain ⟨hst, hd⟩ := csr_answer_illegal h
  rw [exec_rdcsr, hst, hd, State.illegal_eq]

theorem exec_mread_illegal {r c : BitVec 12}
    (h : s.cfg.val.NUM_FRAMES ≤ r.toNat ∨ s.cfg.val.NCEPS ≤ c.toNat ∨ s.readyValid = false) :
    exec (.mread r c) s = .next (s.illegal .K) := if_pos h

theorem exec_release_illegal (h : s.readyValid = false) : exec .release s = .next (s.illegal .K) := by
  simp [exec, execRelease, h]

/-- Settles O5: a word the decoder rejects (`portEvent_illegal`), or a decoded one whose operand or precondition fails. -/
theorem illegalCommandChangesNothing : Obligations.IllegalCommandChangesNothing := by
  intro s p rest w ws hs hl hq hr hbad
  have hf : { s with schedule := rest }.inFlight p = none := (State.eventsLeft_eq_zero s p).mp hl
  have hstep {i : Instr} (hd : decodeOn p w = .ok i)
      (hi : exec i { s with schedule := rest, queues := s.queues.set ws p } =
        .next ({ s with schedule := rest, queues := s.queues.set ws p }.illegal i.port)) :
      step s = .next ({ s with schedule := rest, queues := s.queues.set ws p }.illegal p) := by
    rw [stepRunsTheDecodedInstruction s p rest w ws i hs hl hq hr hd, hi, (runs_of_decode hf hd s.queues).1]
  rcases hbad with ⟨e, hd⟩ | ⟨a, hd, ha⟩ | ⟨r, c, hd, hrc⟩ | ⟨hd, hv⟩
  · rw [step_port hs]
    exact portEvent_illegal hr hf hq hd
  · exact hstep hd (exec_rdcsr_illegal (csr_eq_none ha))
  · exact hstep hd (exec_mread_illegal hrc)
  · exact hstep hd (exec_release_illegal hv)

/-! ## The statuses (R97, R272) -/

/-- Whatever response `t` adds to `s` is on port `p`, with a status of `l`. -/
def State.AnswersWithin (s t : State) (p : Port) (l : List Status) : Prop :=
  ∀ r, t.responses = r :: s.responses → r.port = p ∧ r.status ∈ l

variable {p : Port} {l : List Status}

theorem State.AnswersWithin.of_silent (h : t.responses = s.responses) : s.AnswersWithin t p l :=
  fun _ hr => absurd (h.symm.trans hr) List.ne_cons_self

theorem State.AnswersWithin.of_response {st : Status} {d : Word} (h : t.responses = ⟨p, st, d⟩ :: s.responses)
    (hst : st ∈ l) : s.AnswersWithin t p l := by
  intro r hr
  obtain ⟨rfl, -⟩ := List.cons.inj (h.symm.trans hr)
  exact ⟨rfl, hst⟩

theorem execPush_statuses {n : BitVec 16} (h : execPush n s = .next t) : s.AnswersWithin t .P [.ok, .overrun] := by
  unfold execPush at h
  split at h
  case h_1 =>
    unfold pushCheck at h
    split_ifs at h <;> cases h
    · exact .of_response rfl (by decide)
    · exact .of_silent rfl
  case h_2 => cases h; exact .of_silent rfl
  case h_3 => cases h; exact .of_response rfl (by decide)

theorem exec_rdcsr_statuses {a : BitVec 8} (h : exec (.rdcsr a) s = .next t) :
    s.AnswersWithin t .D [.ok, .illegal] := by
  rw [exec_rdcsr] at h
  cases h
  refine .of_response rfl ?_
  unfold State.csrStatus
  split_ifs <;> decide

theorem execMtake_statuses (h : execMtake s = .next t) : s.AnswersWithin t .K [.ok, .wait] := by
  unfold execMtake at h
  split_ifs at h <;> cases h <;> exact .of_response rfl (by decide)

theorem execMread_statuses {r c : BitVec 12} (h : execMread r c s = .next t) :
    s.AnswersWithin t .K [.ok, .illegal] := by
  unfold execMread at h
  split at h
  case isTrue => cases h; exact .of_response rfl (by decide)
  case isFalse => split at h <;> cases h; exact .of_response rfl (by decide)

theorem execRelease_statuses (h : execRelease s = .next t) : s.AnswersWithin t .K [.ok, .illegal] := by
  unfold execRelease at h
  split_ifs at h <;> cases h <;> exact .of_response rfl (by decide)

theorem readCheck_statuses (c : BitVec 16) :
    s.AnswersWithin (readCheck { s with frCount := c }) .E [.ok, .wait, .underrun] := by
  unfold readCheck
  split_ifs
  · exact .of_response rfl (by decide)
  · exact .of_silent rfl

theorem execStIdle_statuses (h : execStIdle s = .next t) : s.AnswersWithin t .E [.ok, .wait, .underrun] := by
  unfold execStIdle at h
  split at h
  case h_1 =>
    cases h
    unfold idleCheck
    split_ifs
    · exact readCheck_statuses s.frCount
    · exact .of_response rfl (by decide)
    · exact readCheck_statuses _
  case h_2 =>
    unfold idleCopy at h
    split at h <;> cases h
    exact .of_response rfl (by decide)

theorem execStStore_statuses (h : execStStore s = .next t) : s.AnswersWithin t .E [.ok, .stall] := by
  unfold execStStore at h
  split_ifs at h <;> cases h
  · unfold retrySwap
    split_ifs <;> exact .of_response rfl (by decide)
  · unfold afterRow
    split_ifs <;> exact .of_response rfl (by decide)

/-- An arithmetic stage ends OK or CLAMP (R159). -/
theorem stageStatus_mem (k : Nat) : stageStatus k ∈ [Status.ok, .clamp] := by
  unfold stageStatus
  split_ifs <;> decide

theorem exec_operation_statuses (g : Stage) (h : exec g.operation s = .next t) :
    s.AnswersWithin t .E (allowedStatus g.operation s) := by
  cases g with
  | idle => exact execStIdle_statuses h
  | store => exact execStStore_statuses h
  | window | fft => cases h; exact .of_response rfl (List.mem_singleton_self _)
  | preEmphasis | power | mel | dct => cases h; exact .of_response rfl (stageStatus_mem _)

/-- STEP may answer what the selected stage may (R151). -/
theorem allowedStatus_step (s : State) : allowedStatus .step s = allowedStatus s.stage.operation s := by
  rw [allowedStatus]
  cases s.stage <;> rfl

/-- Settles O56: port E's instructions run one stage operation each (`exec_engine_operation`); each other one by its own
lemma. -/
theorem statusesAreTheCommandsOwn : Obligations.StatusesAreTheCommandsOwn := by
  intro i s t r h
  revert r
  change s.AnswersWithin t i.port (allowedStatus i s)
  by_cases hE : i.port = .E
  · obtain ⟨g, hg, hrun⟩ := exec_engine_operation hE s
    have hs := exec_operation_statuses g (hg ▸ h)
    rw [hE]
    rcases hrun with rfl | ⟨rfl, rfl⟩
    · exact hs
    · rwa [allowedStatus_step]
  · cases i with
    | push n => exact execPush_statuses h
    | avail => cases h; exact .of_response rfl (List.mem_singleton_self _)
    | rdcsr a => exact exec_rdcsr_statuses h
    | mtake => exact execMtake_statuses h
    | mread r c => exact execMread_statuses h
    | release => exact execRelease_statuses h
    | _ => exact absurd rfl hE

end Sys2Proof.Machine
end

section
/-! SUPPORT. Proofs of the family 30_encoding.md: the events of PUSH (rule R105, 40_ring_buffer.md rules R122 to
R128), chained into a whole command. -/

namespace Sys2Proof.Machine

variable {s t : State} {n : BitVec 16}

/-! ## PUSH.A (R122, R123) -/

/-- A block fits when it is no longer than the free space of R121, over the integers. -/
theorem State.le_free_iff {k : Nat} : k ≤ s.free ↔ (k : Int) ≤ s.cfg.val.C - 1 - s.unreadMod := by
  have := s.unread_lt
  rw [s.free_eq, s.unreadMod_eq]
  omega

theorem exec_push_admit (hp : s.pPhase = .idle) (hb : n.toNat ≤ s.beats.length) (hf : n.toNat ≤ s.free) :
    exec (.push n) s = .next { s.latchPush n with pPhase := .copy } := by
  rw [exec, execPush, hp]
  exact (if_neg (Nat.not_lt.mpr hb)).trans (if_neg (Nat.not_lt.mpr hf))

theorem exec_push_overrun (hp : s.pPhase = .idle) (hb : n.toNat ≤ s.beats.length) (hf : s.free < n.toNat) :
    exec (.push n) s =
      .next ({ s.latchPush n with overrunCnt := satInc s.overrunCnt }.respond .P .overrun 0#32) := by
  rw [exec, execPush, hp]
  exact (if_neg (Nat.not_lt.mpr hb)).trans (if_pos hf)

/-! ## PUSH.B (R124) and PUSH.C (R125) -/

/-- What PUSH.B stores of a delivered payload, read back by element. -/
theorem ringWrite_block_read {C k : Nat} {m : Memory} {beats : List Sample} (hm : m.wf) (hb : k ≤ beats.length)
    (hC : k ≤ C) (a : Nat) {i : Nat} (hi : i < k) :
    (ringWrite C m a (beats.take k)).read (ringAddr C a i) = beats[i]? := by
  have hlen : (beats.take k).length = k := List.length_take_of_le hb
  rw [ringWrite_read_at _ hm a i (by omega) (by omega), List.getElem?_take_of_lt hi]

theorem ringWrite_block_read_other {C k : Nat} {m : Memory} {beats : List Sample} (hm : m.wf) {a b : Nat}
    (h : ∀ i < k, b ≠ ringAddr C a i) : (ringWrite C m a (beats.take k)).read b = m.read b :=
  ringWrite_read_other _ hm a b fun i hi => h i (hi.trans_le (List.length_take_le _ _))

/-- PUSH.C is the loop of R125 (log entry 17). -/
theorem pushAccount_strideLoop (h : pushAccount s = .next t) :
    (t.strideCnt.toNat, t.frCount.toNat) =
      strideLoop s.cfg.val.S (s.strideCnt.toNat + s.pN.toNat) (s.strideCnt.toNat + s.pN.toNat, s.frCount.toNat) := by
  have hst := pushAccount_strideCnt h
  have hfr : t.frCount.toNat =
      min (s.frCount.toNat + (strideTokens s.cfg.val.S s.strideCnt.toNat s.pN.toNat).1) 65535 := by
    cases h
    exact toNat_frCount _
  have hle : s.frCount.toNat ≤ 65535 := Nat.le_of_lt_succ s.frCount.isLt
  rw [strideLoop_eq s.cfg.S_pos _ _ _ le_rfl hle, hst, hfr]
  rfl

/-- Less than a stride runs no round of the loop. -/
theorem strideLoop_of_lt {S fuel x fr : Nat} (hx : x < S) : strideLoop S fuel (x, fr) = (x, fr) := by
  cases fuel with
  | zero => rfl
  | succ fuel => exact if_neg (Nat.not_le.mpr hx)

/-! ## The whole command (R128) -/

/-- The state in which a PUSH that fits ends: R124 and R125 applied to the latched block. -/
def State.pushed (s : State) (n : BitVec 16) : State :=
  { s with
    ring := ringWrite s.cfg.val.C s.ring s.writePos (s.beats.take n.toNat)
    writePos := ringAddr s.cfg.val.C s.writePos n.toNat
    strideCnt := BitVec.ofNat 17 (strideTokens s.cfg.val.S s.strideCnt.toNat n.toNat).2
    frCount := BitVec.ofNat 16 (min (s.frCount.toNat + (strideTokens s.cfg.val.S s.strideCnt.toNat n.toNat).1) 65535)
    pPhase := .idle
    pN := n
    pPayload := s.beats.take n.toNat
    beats := s.beats.drop n.toNat
    responses := ⟨.P, .ok, 0#32⟩ :: s.responses }

/-- The state between PUSH.B and PUSH.C. -/
def State.pushCopied (s : State) (n : BitVec 16) : State :=
  { s.latchPush n with
    ring := ringWrite s.cfg.val.C s.ring s.writePos (s.beats.take n.toNat)
    writePos := ringAddr s.cfg.val.C s.writePos n.toNat
    pPhase := .acct }

theorem exec_push_copy (s : State) (n : BitVec 16) :
    exec (.push n) { s.latchPush n with pPhase := .copy } = .next (s.pushCopied n) := by
  have htake : (s.beats.take n.toNat).take n.toNat = s.beats.take n.toNat := by rw [List.take_take, Nat.min_self]
  unfold State.pushCopied
  rw [← htake]
  rfl

theorem pushAccount_pushCopied (s : State) (n : BitVec 16) : pushAccount (s.pushCopied n) = .next (s.pushed n) := rfl

theorem pushed_strideLoop (s : State) (n : BitVec 16) :
    ((s.pushed n).strideCnt.toNat, (s.pushed n).frCount.toNat) =
      strideLoop s.cfg.val.S (s.strideCnt.toNat + n.toNat) (s.strideCnt.toNat + n.toNat, s.frCount.toNat) :=
  pushAccount_strideLoop (pushAccount_pushCopied s n)

/-- An empty block changes no ring state (R105). -/
theorem pushed_zero (hst : s.strideCnt.toNat < s.cfg.val.S) (hw : s.writePos < s.cfg.val.C) :
    (s.pushed 0#16).ring = s.ring ∧ (s.pushed 0#16).writePos = s.writePos ∧
      (s.pushed 0#16).strideCnt = s.strideCnt ∧ (s.pushed 0#16).frCount = s.frCount := by
  have hloop := pushed_strideLoop s 0#16
  rw [BitVec.toNat_zero, Nat.add_zero, strideLoop_of_lt hst] at hloop
  obtain ⟨hstride, hfr⟩ := Prod.mk.inj hloop
  exact ⟨rfl, Nat.mod_eq_of_lt hw, BitVec.eq_of_toNat_eq hstride, BitVec.eq_of_toNat_eq hfr⟩

/-- Settles O15: a PUSH that fits runs through `latchPush`, `pushCopied` and `pushed`; a block of `C` samples is longer than
the free space can ever be. -/
theorem pushRunsItsThreeEvents : Obligations.PushRunsItsThreeEvents := by
  intro s n hp hm hst hw hb
  refine ⟨fun hfit => ?fits, fun hC => ?never⟩
  case fits =>
    have hf := State.le_free_iff.mpr hfit
    have hC : n.toNat ≤ s.cfg.val.C := by rw [s.free_eq] at hf; omega
    refine ⟨_, _, _, exec_push_admit hp hb hf, rfl, exec_push_copy s n, rfl, pushAccount_pushCopied s n, rfl, rfl, rfl,
      rfl, fun i hi => ringWrite_block_read hm hb hC s.writePos hi, fun a ha => ringWrite_block_read_other hm ha, rfl,
      pushed_strideLoop s n, ?empty, fun hend => ?wrap, rfl⟩
    case empty => rintro rfl; exact pushed_zero hst hw
    case wrap => exact (congrArg (· % s.cfg.val.C) hend).trans (Nat.mod_self _)
  case never =>
    have hf : s.free < n.toNat := by
      have := s.cfg.C_pos
      rw [s.free_eq]
      omega
    exact ⟨_, exec_push_overrun hp hb hf, satInc_toNat _, rfl⟩

end Sys2Proof.Machine
end

section
/-! SUPPORT. Proofs of the family 40_ring_buffer.md: the events of PUSH (rules R122 to R125), of ST.IDLE (rules R126, R127)
and AVAIL (rule R130), each from the laws of the ring and its cursors. -/

namespace Sys2Proof.Machine

variable {s t : State} {n : BitVec 16}

/-! ## The events by phase (R31, R33) -/

theorem exec_push_of_copy (hp : s.pPhase = .copy) : exec (.push n) s = pushCopy s := by rw [exec, execPush, hp]

theorem exec_push_of_acct (hp : s.pPhase = .acct) : exec (.push n) s = pushAccount s := by rw [exec, execPush, hp]

theorem exec_stIdle_of_idle (he : s.ePhase = .idle) : exec .stIdle s = .next (idleCheck s) := by
  rw [exec, execStIdle, he]

theorem exec_stIdle_of_copy (he : s.ePhase = .copy) : exec .stIdle s = idleCopy s := by rw [exec, execStIdle, he]

/-! ## PUSH.A (R122, R123, R128) -/

theorem State.free_lt_iff {k : Nat} : s.free < k ↔ (s.cfg.val.C : Int) - 1 - s.unreadMod < k :=
  lt_iff_lt_of_le_iff_le State.le_free_iff

theorem exec_push_incomplete (hp : s.pPhase = .idle) (hb : s.beats.length < n.toNat) :
    exec (.push n) s = .refused .payloadIncomplete := by
  rw [exec, execPush, hp]
  exact if_pos hb

/-- Settles O12: the free space of R121 over the integers decides between the drop and the admission. -/
theorem pushAdmitsOrDropsTheBlock : Obligations.PushAdmitsOrDropsTheBlock := by
  intro s n hp
  refine ⟨fun hb hfull => ?drop, fun hb hfit => ?accept, exec_push_incomplete hp⟩
  case drop => exact ⟨_, exec_push_overrun hp hb (State.free_lt_iff.mpr hfull), satInc_toNat _, rfl⟩
  case accept => exact exec_push_admit hp hb (State.le_free_iff.mpr hfit)

/-! ## PUSH.B (R124) -/

/-- Settles O13: the block is read back element by element, and nothing else of RING is touched. -/
theorem pushStoresThePayload : Obligations.PushStoresThePayload := by
  intro s n hp hm hlen hC
  exact ⟨_, exec_push_of_copy hp, fun i hi => ringWrite_block_read hm hlen.ge hC s.writePos hi,
    fun a ha => ringWrite_block_read_other hm ha, rfl⟩

/-! ## PUSH.C (R125) -/

/-- A block no longer than a stride completes at most one. -/
theorem strideTokens_fst_le_one {S stride k : Nat} (hst : stride < S) (hk : k ≤ S) :
    (strideTokens S stride k).1 ≤ 1 :=
  Nat.le_of_lt_succ (Nat.div_lt_of_lt_mul (by omega))

/-- With `T` samples accounted before, the tokens of a block are the strides its end completes beyond `T`'s. -/
theorem strideTokens_mod {S : Nat} (hS : 0 < S) (T k : Nat) :
    strideTokens S (T % S) k = ((T + k) / S - T / S, (T + k) % S) := by
  have hsplit : T + k = (T % S + k) + S * (T / S) := by
    have := Nat.mod_add_div T S
    omega
  have hdiv : (T + k) / S = (T % S + k) / S + T / S := by rw [hsplit, Nat.add_mul_div_left _ _ hS]
  rw [strideTokens, hdiv, Nat.add_sub_cancel, Nat.mod_add_mod]

theorem pushAccount_frCount_min (h : pushAccount s = .next t) :
    t.frCount.toNat = min (s.frCount.toNat + (strideTokens s.cfg.val.S s.strideCnt.toNat s.pN.toNat).1) 65535 := by
  cases h
  exact toNat_frCount _

/-- Settles O14: the loop and the closed form of its tokens agree, and the closed form gives both counts. -/
theorem pushAccountsByStrides : Obligations.PushAccountsByStrides := by
  intro s n hp
  refine ⟨_, exec_push_of_acct hp, pushAccount_strideLoop rfl, fun hst hn => ?atMostOne, fun T hT => ?byTotal, rfl⟩
  case atMostOne =>
    refine (pushAccount_frCount_min (s := s) rfl).trans_le ((Nat.min_le_left _ _).trans ?_)
    exact Nat.add_le_add_left (strideTokens_fst_le_one hst hn) _
  case byTotal =>
    have htokens := strideTokens_mod s.cfg.S_pos T s.pN.toNat
    rw [← hT] at htokens
    exact ⟨(pushAccount_strideCnt (s := s) rfl).trans (by rw [htokens]),
      (pushAccount_frCount_min (s := s) rfl).trans (by rw [htokens])⟩

/-! ## ST.IDLE.A (R126, R155) -/

/-- The count a check of the ring starts from: a token is taken, or the retry already holds one (R156). -/
theorem idleCheck_claims (h : s.uflag = true ∨ s.frCount ≠ 0#16) :
    ∃ c : BitVec 16, c.toNat = (if s.uflag then s.frCount.toNat else s.frCount.toNat - 1) ∧
      idleCheck s = readCheck { s with frCount := c } := by
  by_cases hu : s.uflag = true
  · exact ⟨s.frCount, (if_pos hu).symm, idleCheck_retry hu⟩
  · have h0 : s.frCount ≠ 0#16 := h.resolve_left hu
    exact ⟨s.frCount - 1#16, (toNat_takeToken h0).trans (if_neg hu).symm, idleCheck_take (Bool.eq_false_iff.mpr hu) h0⟩

theorem readCheck_frCount (s : State) : (readCheck s).frCount = s.frCount := by
  unfold readCheck
  split_ifs <;> rfl

theorem readCheck_underrun_idle (hs : s.stage = .idle) (h : s.unread < s.cfg.val.W) :
    readCheck s =
      { s with uflag := true, underrunCnt := satInc s.underrunCnt }.respond .E .underrun Stage.idle.word := by
  rw [readCheck_underrun h, hs]

/-- Settles O19: WAIT without a claim; with one, the unread count decides between UNDERRUN and the admission. -/
theorem idleTakesATokenAndChecksTheRing : Obligations.IdleTakesATokenAndChecksTheRing := by
  intro s hs he
  rw [exec_stIdle_of_idle he, s.unreadMod_eq]
  refine ⟨fun hu h0 => ?wait, fun hclaim => ?check⟩
  case wait =>
    have hcode : s.stage.word = 0#32 := congrArg Stage.word hs
    rw [idleCheck_wait hu h0, hcode]
    rfl
  case check =>
    obtain ⟨c, hc, hcheck⟩ := idleCheck_claims hclaim
    rw [hcheck]
    refine ⟨_, rfl, (congrArg BitVec.toNat (readCheck_frCount _)).trans hc, fun hshort => ?underrun, fun hfull => ?accept⟩
    case underrun =>
      rw [readCheck_underrun_idle (s := { s with frCount := c }) hs (Int.ofNat_lt.mp hshort)]
      exact ⟨satInc_toNat _, rfl⟩
    case accept => rw [readCheck_admit (s := { s with frCount := c }) (Int.ofNat_le.mp hfull)]

/-! ## ST.IDLE.B (R127) -/

/-- Settles O20: a window written whole is read whole. -/
theorem idleCopiesTheFrame : Obligations.IdleCopiesTheFrame := by
  intro s _ he hwritten
  obtain ⟨x, hx⟩ : ∃ x, ringRead s.cfg.val.C s.ring s.readPos s.cfg.val.W = .ok x := ringRead_isOk hwritten
  obtain ⟨hlen, hread⟩ := ringRead_ok.mp hx
  exact ⟨_, (exec_stIdle_of_copy he).trans (idleCopy_next hx), hlen, fun i hi => (hread i hi).symm, rfl⟩

/-! ## AVAIL (R130) -/

/-- Settles O18: the unread count is below `C`, so the response's 32 bits hold it. -/
theorem availAnswersTheUnreadCount : Obligations.AvailAnswersTheUnreadCount := by
  intro s
  have hlt := s.unread_lt
  have hword : (BitVec.ofNat 32 s.unread).toNat = s.unread := toNat_parameter (hlt.le.trans s.cfg.C_le)
  refine ⟨_, rfl, ?value, ?range⟩
  case value => rw [hword, ← s.unreadMod_eq, State.unreadMod]
  case range => rw [hword]; exact Nat.le_sub_one_of_lt hlt

end Sys2Proof.Machine
end

section
/-! SUPPORT. Proofs of the family 41_stage_sequencer.md: STEP as the selected stage operation (rule R151) and the transition
table (rule R152). The six stages between IDLE and STORE are one flat update each, said once (`exec_step_computed`). -/

namespace Sys2Proof

/-- The stage after the selected one, once it is left (R152). -/
def Stage.next : Stage → Stage
  | .idle => .preEmphasis
  | .preEmphasis => .window
  | .window => .fft
  | .fft => .power
  | .power => .mel
  | .mel => .dct
  | .dct => .store
  | .store => .idle

end Sys2Proof

namespace Sys2Proof.Machine

variable {s t : State} {g : Stage}

/-! ## STEP (R151) -/

theorem exec_step_of_stage (hs : s.stage = g) : exec .step s = exec g.operation s := by
  subst hs
  unfold exec execStep
  cases s.stage <;> rfl

theorem execStep_resetOf (c : WfConfig) :
    exec .step (State.resetOf c) = .next ((State.resetOf c).respond .E .wait Stage.idle.word) := by
  rw [exec_step_of_stage rfl]
  exact (exec_stIdle_of_idle rfl).trans (congrArg _ (idleCheck_wait rfl rfl))

/-! ## The six stages between IDLE and STORE (R152) -/

/-- `s` with the work buffers `b`, at stage `g`, with `k` more saturated elements counted and the responses `rs` delivered. -/
def State.computed (s : State) (b : Buffers) (g : Stage) (k : Nat) (rs : List Response) : State :=
  { s with
    frame := b.frame, fre := b.fre, fim := b.fim, power := b.power, melq := b.melq, ceps := b.ceps
    clampCnt := satAdd s.clampCnt k
    stage := g
    responses := rs ++ s.responses }

/-- The work buffers after the operation of a stage: the one buffer it writes, and the others as they were. -/
def State.output (s : State) : Stage → Buffers
  | .preEmphasis =>
    { s.buffers with frame := (preemphLoop s.cfg.val.ALPHA_Q15 (s.cfg.val.W - 1) s.frameNow 0).1 }
  | .window => { s.buffers with frame := (List.range s.cfg.val.W).map fun i => toSample (windowAt s i) }
  | .fft =>
    { s.buffers with
      fre := (fftOf s.cfg.val fun i => (s.frameAt i).toInt).1
      fim := (fftOf s.cfg.val fun i => (s.frameAt i).toInt).2 }
  | .power => { s.buffers with power := (List.range s.cfg.val.NBINS).map fun b => satU32 (Machine.powerAt s b) }
  | .mel => { s.buffers with melq := (List.range s.cfg.val.NF).map fun m => toSample (clamp16 (melValue s m)) }
  | .dct => { s.buffers with ceps := (List.range s.cfg.val.NCEPS).map fun k => toSample (clamp16 (dctValue s k)) }
  | .idle | .store => s.buffers

/-- How many elements the operation of a stage saturates (R159). -/
def State.clamps (s : State) : Stage → Nat
  | .preEmphasis => (preemphLoop s.cfg.val.ALPHA_Q15 (s.cfg.val.W - 1) s.frameNow 0).2
  | .power => ((List.range s.cfg.val.NBINS).map fun b => clampsU32 (Machine.powerAt s b)).sum
  | .mel => ((List.range s.cfg.val.NF).map fun m => clamps16 (melValue s m)).sum
  | .dct => ((List.range s.cfg.val.NCEPS).map fun k => clamps16 (dctValue s k)).sum
  | .idle | .window | .fft | .store => 0

/-- The response that ends such a stage (R151, R159). -/
def Stage.response (g : Stage) (k : Nat) : Response := ⟨.E, stageStatus k, g.next.word⟩

theorem exec_step_computed (hs : s.stage = g) (hidle : g ≠ .idle) (hstore : g ≠ .store) :
    exec .step s = .next (s.computed (s.output g) g.next (s.clamps g) [Stage.response g (s.clamps g)]) := by
  rw [exec_step_of_stage hs]
  cases g with
  | idle | store => contradiction
  | window | fft => rw [State.computed, State.clamps, satAdd_zero]; rfl
  | _ => rfl

/-- Such a stage goes on to the one after it. -/
theorem stage_of_exec_step (hs : s.stage = g) (hidle : g ≠ .idle) (hstore : g ≠ .store)
    (h : exec .step s = .next t) : t.stage = g.next := by
  rw [exec_step_computed hs hidle hstore] at h
  cases h
  rfl

/-! ## The response carries the stage after the operation (R151) -/

/-- `t` is `s` after an event of port E that answers with `t`'s own stage. -/
def State.ReportsStage (s t : State) : Prop := ∃ st, t.responses = ⟨.E, st, t.stage.word⟩ :: s.responses

theorem readCheck_reports (c : BitVec 16) :
    s.ReportsStage (readCheck { s with frCount := c }) ∨
      ((readCheck { s with frCount := c }).ePhase = .copy ∧
        (readCheck { s with frCount := c }).responses = s.responses) := by
  unfold readCheck
  split_ifs
  · exact .inl ⟨_, rfl⟩
  · exact .inr ⟨rfl, rfl⟩

theorem idleCheck_reports (s : State) :
    s.ReportsStage (idleCheck s) ∨ ((idleCheck s).ePhase = .copy ∧ (idleCheck s).responses = s.responses) := by
  by_cases hclaim : s.uflag = true ∨ s.frCount ≠ 0#16
  · obtain ⟨c, -, hc⟩ := idleCheck_claims hclaim
    rw [hc]
    exact readCheck_reports c
  · simp only [not_or, Bool.not_eq_true, not_not] at hclaim
    rw [idleCheck_wait hclaim.1 hclaim.2]
    exact .inl ⟨_, rfl⟩

theorem idleCopy_reports (h : idleCopy s = .next t) : s.ReportsStage t := by
  unfold idleCopy at h
  split at h <;> cases h
  exact ⟨_, rfl⟩

theorem execStStore_reports (hs : s.stage = .store) (h : execStStore s = .next t) : s.ReportsStage t := by
  unfold execStStore at h
  split_ifs at h <;> cases h
  · unfold retrySwap
    split_ifs <;> exact ⟨_, rfl⟩
  · unfold afterRow
    split_ifs
    · exact ⟨_, rfl⟩
    · exact ⟨_, rfl⟩
    · exact ⟨.stall, by simp [hs]⟩

/-- Only the event that admits a ring read answers nothing. -/
theorem exec_step_reports (h : exec .step s = .next t) :
    s.ReportsStage t ∨ (s.stage = .idle ∧ s.ePhase = .idle ∧ t.ePhase = .copy ∧ t.responses = s.responses) := by
  cases hs : s.stage with
  | idle =>
    rw [exec_step_of_stage hs] at h
    cases he : s.ePhase with
    | idle =>
      cases (exec_stIdle_of_idle he).symm.trans h
      exact (idleCheck_reports s).imp_right fun ⟨hcopy, hresp⟩ => ⟨rfl, rfl, hcopy, hresp⟩
    | copy => exact .inl (idleCopy_reports ((exec_stIdle_of_copy he).symm.trans h))
  | store => exact .inl (execStStore_reports hs ((exec_step_of_stage hs).symm.trans h))
  | _ =>
    rw [exec_step_computed hs (by decide) (by decide)] at h
    cases h
    exact .inl ⟨_, rfl⟩

/-- Settles O9: STEP is the operation of the stage register (`exec_step_of_stage`), and each operation reports the stage it
leaves (`exec_step_reports`). -/
theorem stepRunsTheSelectedStage : Obligations.StepRunsTheSelectedStage := by
  refine ⟨fun s => ?selects, fun s t h => exec_step_reports h, execStep_resetOf⟩
  exact ⟨exec_step_of_stage, exec_step_of_stage, exec_step_of_stage, exec_step_of_stage, exec_step_of_stage,
    exec_step_of_stage, exec_step_of_stage, exec_step_of_stage⟩

/-! ## IDLE and STORE in the transition table (R152) -/

theorem readCheck_stage (s : State) : (readCheck s).stage = s.stage := by
  unfold readCheck
  split_ifs <;> rfl

theorem idleCheck_stage (s : State) : (idleCheck s).stage = s.stage := by
  unfold idleCheck
  split_ifs
  · exact readCheck_stage s
  · rfl
  · exact readCheck_stage { s with frCount := s.frCount - 1#16 }

theorem idleCopy_stage (h : idleCopy s = .next t) : t.stage = .preEmphasis := by
  unfold idleCopy at h
  split at h <;> cases h
  rfl

/-- A row store that answers had a row to store to (log entry 20). -/
theorem row_lt_of_execStStore (hp : s.swapPending = false) (h : execStStore s = .next t) :
    s.rowIdx.toNat < s.cfg.val.NUM_FRAMES := by
  by_contra hr
  simp [execStStore, hp, hr] at h

theorem execStStore_room (hp : s.swapPending = false) (hn : s.rowIdx.toNat + 1 < s.cfg.val.NUM_FRAMES) :
    execStStore s = .next ({ s.storeRow with rowIdx := s.rowIdx + 1#13 }.advance .idle) := by
  have hr : s.rowIdx.toNat < s.cfg.val.NUM_FRAMES := Nat.lt_of_succ_lt hn
  rw [execStStore_store hp hr]
  exact congrArg _ (afterRow_go ((toNat_rowIdx_succ hr).trans_lt hn))

/-- Past the last row there is no room left. -/
theorem not_room_of_last (hr : s.rowIdx.toNat < s.cfg.val.NUM_FRAMES)
    (hn : s.cfg.val.NUM_FRAMES ≤ s.rowIdx.toNat + 1) : ¬(s.rowIdx + 1#13).toNat < s.cfg.val.NUM_FRAMES := by
  rw [toNat_rowIdx_succ hr]
  exact Nat.not_lt.mpr hn

theorem execStStore_swap (hp : s.swapPending = false) (hr : s.rowIdx.toNat < s.cfg.val.NUM_FRAMES)
    (hn : s.cfg.val.NUM_FRAMES ≤ s.rowIdx.toNat + 1) (hv : s.readyValid = false) :
    execStStore s = .next ({ s.storeRow with rowIdx := s.rowIdx + 1#13 }.swap.advance .idle) := by
  rw [execStStore_store hp hr]
  exact congrArg _ (afterRow_swap (s := { s.storeRow with rowIdx := s.rowIdx + 1#13 }) (not_room_of_last hr hn) hv)

theorem execStStore_stall (hp : s.swapPending = false) (hr : s.rowIdx.toNat < s.cfg.val.NUM_FRAMES)
    (hn : s.cfg.val.NUM_FRAMES ≤ s.rowIdx.toNat + 1) (hv : s.readyValid = true) :
    execStStore s = .next ({ s.storeRow with
      rowIdx := s.rowIdx + 1#13, swapPending := true, stallCnt := satInc s.stallCnt }.respond .E .stall 7#32) := by
  rw [execStStore_store hp hr]
  exact congrArg _ (afterRow_stall (s := { s.storeRow with rowIdx := s.rowIdx + 1#13 }) (not_room_of_last hr hn) hv)

/-- The swap is due: it is pending, or the row to be stored is the last one (R233). -/
def State.SwapDue (s : State) : Prop := s.swapPending = true ∨ s.cfg.val.NUM_FRAMES ≤ s.rowIdx.toNat + 1

theorem State.SwapDue.last (hd : s.SwapDue) (hp : s.swapPending = false) :
    s.cfg.val.NUM_FRAMES ≤ s.rowIdx.toNat + 1 :=
  hd.resolve_left fun hp' => absurd (hp.symm.trans hp') Bool.false_ne_true

/-- A swap that is due is performed when the other matrix is not ready (R235, R236). -/
theorem State.SwapDue.performed (hd : s.SwapDue) (hv : s.readyValid = false) (h : execStStore s = .next t) :
    t.stage = .idle ∧ t.swapPending = false ∧ t.activeSel = !s.activeSel ∧ t.readyValid = true ∧ t.rowIdx = 0#13 ∧
      t.responses = ⟨.E, .ok, Stage.idle.word⟩ :: s.responses := by
  cases hp : s.swapPending with
  | true =>
    rw [execStStore_pending hp, retrySwap_swap hv] at h
    cases h
    exact ⟨rfl, rfl, rfl, rfl, rfl, rfl⟩
  | false =>
    rw [execStStore_swap hp (row_lt_of_execStStore hp h) (hd.last hp) hv] at h
    cases h
    exact ⟨rfl, hp, rfl, rfl, rfl, rfl⟩

/-- A swap that is due stalls while the other matrix is ready (R235). -/
theorem State.SwapDue.gated (hd : s.SwapDue) (hs : s.stage = .store) (hv : s.readyValid = true)
    (h : execStStore s = .next t) :
    t.stage = .store ∧ t.swapPending = true ∧ t.activeSel = s.activeSel ∧ t.readyValid = true ∧
      t.responses = ⟨.E, .stall, Stage.store.word⟩ :: s.responses := by
  cases hp : s.swapPending with
  | true =>
    rw [execStStore_pending hp, retrySwap_stall hv, hs] at h
    cases h
    exact ⟨hs, hp, rfl, hv, rfl⟩
  | false =>
    rw [execStStore_stall hp (row_lt_of_execStStore hp h) (hd.last hp) hv] at h
    cases h
    exact ⟨hs, rfl, rfl, hv, rfl⟩

/-- The columns of ports P, K and D do not have `stage` (R286). -/
theorem exec_stage_of_port_ne_E {i : Instr} (hi : i.port ≠ .E) (h : exec i s = .next t) : t.stage = s.stage := by
  obtain ⟨producer, -, consumer, diagnostics⟩ := eachPortWritesOnlyItsOwnState i s t h
  cases hp : i.port with
  | P => rw [(producer hp).2]
  | E => exact absurd hp hi
  | K => rw [(consumer hp).2.2]
  | D => rw [diagnostics hp]

/-- Settles O10: IDLE by its two events, the stages between by `stage_of_exec_step`, STORE by whether the swap is due. -/
theorem stageFollowsTheTransitionTable : Obligations.StageFollowsTheTransitionTable := by
  refine ⟨fun s t h => ⟨fun hs => ⟨fun he => ?left, fun he => ?stays⟩, fun hs => ?_, fun hs => ?_, fun hs => ?_,
    fun hs => ?_, fun hs => ?_, fun hs => ?_,
    fun hs => ⟨fun hp hn => ?room, fun hdue => ⟨fun hv => ?swap, fun hv => ?gate⟩⟩⟩,
    fun i s t hi h => exec_stage_of_port_ne_E hi h⟩
  case left =>
    rw [exec_step_of_stage hs] at h
    exact idleCopy_stage ((exec_stIdle_of_copy he).symm.trans h)
  case stays =>
    rw [exec_step_of_stage hs] at h
    cases (exec_stIdle_of_idle he).symm.trans h
    exact (idleCheck_stage s).trans hs
  case room =>
    rw [exec_step_of_stage hs] at h
    cases (execStStore_room hp hn).symm.trans h
    exact ⟨rfl, hp, rfl, rfl, toNat_rowIdx_succ (Nat.lt_of_succ_lt hn), rfl⟩
  case swap => exact State.SwapDue.performed hdue hv ((exec_step_of_stage hs).symm.trans h)
  case gate => exact State.SwapDue.gated hdue hs hv ((exec_step_of_stage hs).symm.trans h)
  all_goals exact stage_of_exec_step hs (by decide) (by decide) h

end Sys2Proof.Machine
end

section
/-! SUPPORT. Proofs of the family 41_stage_sequencer.md: the row is a function of the frame and the configuration (rules R158,
R227). Two engines in one stage with the same input buffer stay so from PRE_EMPHASIS to STORE. -/

namespace Sys2Proof.Machine

variable {s s' t t' u u' : State} {g g' : Stage}

/-! ## Two engines with the same input (R158) -/

/-- The buffer that the operation of a stage reads is the same in both engines, up to its end. -/
def State.SameInput (s s' : State) : Stage → Prop
  | .preEmphasis | .window | .fft => ∀ i < s.cfg.val.W, s.frameAt i = s'.frameAt i
  | .power => ∀ i < s.cfg.val.NFFT, s.freAt i = s'.freAt i ∧ s.fimAt i = s'.fimAt i
  | .mel => ∀ i < s.cfg.val.NBINS, s.powerAt i = s'.powerAt i
  | .dct => ∀ i < s.cfg.val.NF, s.melqAt i = s'.melqAt i
  | .store => s.ceps = s'.ceps
  | .idle => True

/-- Two engines of one configuration in stage `g`, with the same input for it. -/
structure State.Aligned (s s' : State) (g : Stage) : Prop where
  cfg : s.cfg = s'.cfg
  stage : s.stage = g
  stage' : s'.stage = g
  input : s.SameInput s' g

/-! What a stage computes depends on the configuration and its input only. -/

theorem frameNow_congr (hc : s.cfg = s'.cfg) (h : ∀ i < s.cfg.val.W, s.frameAt i = s'.frameAt i) :
    s.frameNow = s'.frameNow := by
  rw [State.frameNow, State.frameNow, ← hc]
  exact List.map_congr_left fun i hi => h i (List.mem_range.mp hi)

theorem windowAt_congr (hc : s.cfg = s'.cfg) {i : Nat} (h : s.frameAt i = s'.frameAt i) :
    windowAt s i = windowAt s' i := by
  rw [windowAt, windowAt, hc, h]

/-- The load takes no input past the window (R189). -/
theorem fftOf_congr {c : Config} {x x' : Nat → Int} (h : ∀ i < c.W, x i = x' i) : fftOf c x = fftOf c x' := by
  have hload : fftLoad c x = fftLoad c x' := by
    refine congrArg (·, _) (List.map_congr_left fun j _ => ?_)
    split_ifs with hj
    · exact h _ hj
    · rfl
  rw [fftOf, fftOf, hload]

theorem powerAt_congr (hc : s.cfg = s'.cfg) {b : Nat} (h : s.freAt b = s'.freAt b ∧ s.fimAt b = s'.fimAt b) :
    powerAt s b = powerAt s' b := by
  rw [powerAt, powerAt, hc, h.1, h.2]

theorem melValue_congr (hc : s.cfg = s'.cfg) (h : ∀ b < s.cfg.val.NBINS, s.powerAt b = s'.powerAt b) (m : Nat) :
    melValue s m = melValue s' m := by
  have hacc : melAcc s m = melAcc s' m := by
    rw [melAcc, melAcc, ← hc]
    exact congrArg List.sum (List.map_congr_left fun b hb => by rw [h b (List.mem_range.mp hb)])
  rw [melValue, melValue, hc, hacc]

theorem dctValue_congr (hc : s.cfg = s'.cfg) (h : ∀ n < s.cfg.val.NF, s.melqAt n = s'.melqAt n) (k : Nat) :
    dctValue s k = dctValue s' k := by
  have hacc : dctAcc s k = dctAcc s' k := by
    rw [dctAcc, dctAcc, ← hc]
    exact congrArg List.sum (List.map_congr_left fun n hn => by rw [h n (List.mem_range.mp hn)])
  rw [dctValue, dctValue, hacc]

/-- ST.POWER reads no bin past the work arrays (R11). -/
theorem NBINS_le (c : WfConfig) : c.val.NBINS ≤ c.val.NFFT := by
  have := c.S_pos
  have := c.S_lt_W
  have := c.W_le_NFFT
  unfold Config.NBINS
  omega

theorem State.Aligned.powerAt_eq (a : s.Aligned s' .power) {b : Nat} (hb : b < s.cfg.val.NBINS) :
    Machine.powerAt s b = Machine.powerAt s' b :=
  powerAt_congr a.cfg (a.input b (hb.trans_le (NBINS_le s.cfg)))

theorem State.Aligned.clamps_eq (a : s.Aligned s' g) : s.clamps g = s'.clamps g := by
  cases g with
  | preEmphasis => rw [State.clamps, State.clamps, frameNow_congr a.cfg a.input, a.cfg]
  | power =>
    rw [State.clamps, State.clamps, ← a.cfg]
    exact congrArg List.sum (List.map_congr_left fun b hb => by rw [a.powerAt_eq (List.mem_range.mp hb)])
  | mel => simp only [State.clamps, melValue_congr a.cfg a.input, a.cfg]
  | dct => simp only [State.clamps, dctValue_congr a.cfg a.input, a.cfg]
  | idle | window | fft | store => rfl

/-- A buffer written whole reads the same whatever stood in it (R52). -/
theorem getD_congr_of_lt {α : Type} {l l' : List α} (h : l = l') {i : Nat} (hi : i < l.length) (a b : α) :
    l.getD i a = l'.getD i b := by
  subst h
  rw [List.getD_eq_getElem _ _ hi, List.getD_eq_getElem _ _ hi]

/-- One entry per index up to a size of the configuration: where two entries agree, so do the buffers. -/
theorem getD_map_range_congr {α : Type} {f f' : Nat → α} (size : Config → Nat) (hc : s.cfg = s'.cfg) {i : Nat}
    (hi : i < size s.cfg.val) (h : f i = f' i) (a b : α) :
    ((List.range (size s.cfg.val)).map f).getD i a = ((List.range (size s'.cfg.val)).map f').getD i b := by
  rw [← hc]
  simp [List.getD_eq_getElem?_getD, hi, h]

/-- The buffer that the operation writes is the input of the stage after it. -/
theorem State.Aligned.output_sameInput (a : s.Aligned s' g) (hidle : g ≠ .idle) (hstore : g ≠ .store) (k k' : Nat)
    (rs rs' : List Response) :
    (s.computed (s.output g) g.next k rs).SameInput (s'.computed (s'.output g) g.next k' rs') g.next := by
  cases g with
  | idle | store => contradiction
  | preEmphasis =>
    have hout : (s.output .preEmphasis).frame = (s'.output .preEmphasis).frame := by
      rw [State.output, State.output, frameNow_congr a.cfg a.input, a.cfg]
    have hlen : (s.output .preEmphasis).frame.length = s.cfg.val.W := by
      have := s.cfg.S_lt_W
      exact (preemphLoop_spec _ _ _ 0 (by rw [frameNow_length]; omega)).1.trans (frameNow_length s)
    exact fun i hi => getD_congr_of_lt hout (hi.trans_eq hlen.symm) _ _
  | window =>
    exact fun i hi => getD_map_range_congr Config.W a.cfg hi
      (congrArg toSample (windowAt_congr a.cfg (a.input i hi))) _ _
  | fft =>
    have hout : fftOf s.cfg.val (fun i => (s.frameAt i).toInt) = fftOf s'.cfg.val fun i => (s'.frameAt i).toInt := by
      rw [← a.cfg]
      exact fftOf_congr fun i hi => by rw [a.input i hi]
    obtain ⟨hre, him⟩ := fftPasses_length s.cfg.val (fun i => (s.frameAt i).toInt) s.cfg.val.LOG2N
    exact fun i hi => ⟨getD_congr_of_lt (congrArg Prod.fst hout) (hi.trans_eq hre.symm) _ _,
      getD_congr_of_lt (congrArg Prod.snd hout) (hi.trans_eq him.symm) _ _⟩
  | power => exact fun i hi => getD_map_range_congr Config.NBINS a.cfg hi (congrArg satU32 (a.powerAt_eq hi)) _ _
  | mel =>
    exact fun i hi => getD_map_range_congr Config.NF a.cfg hi
      (congrArg (fun v => toSample (clamp16 v)) (melValue_congr a.cfg a.input i)) _ _
  | dct =>
    change (s.output .dct).ceps = (s'.output .dct).ceps
    simp only [State.output, dctValue_congr a.cfg a.input, a.cfg]

/-! ## From stage to stage -/

/-- From `s` and `s'` to `t` and `t'` both engines did the same `n` stage operations up to stage `g`, as far as responses and
clamps go, and changed nothing else but their work buffers. -/
def State.Lockstep (s s' t t' : State) (g : Stage) (n : Nat) : Prop :=
  ∃ b b' k rs, rs.length = n ∧ t = s.computed b g k rs ∧ t' = s'.computed b' g k rs

theorem satAdd_satAdd (c : Word) (k k' : Nat) : satAdd (satAdd c k) k' = satAdd c (k + k') := by
  apply BitVec.eq_of_toNat_eq
  simp only [satAdd_toNat]
  omega

theorem computed_computed (s : State) (b b' : Buffers) (g g' : Stage) (k k' : Nat) (rs rs' : List Response) :
    (s.computed b g k rs).computed b' g' k' rs' = s.computed b' g' (k + k') (rs' ++ rs) := by
  rw [State.computed, State.computed, State.computed, ← satAdd_satAdd, List.append_assoc]

theorem computed_self (s : State) : s.computed s.buffers s.stage 0 [] = s := by
  rw [State.computed, satAdd_zero]
  rfl

theorem State.Aligned.lockstep_zero (a : s.Aligned s' g) : s.Lockstep s' s s' g 0 := by
  refine ⟨s.buffers, s'.buffers, 0, [], rfl, ?_, ?_⟩
  · rw [← a.stage, computed_self]
  · rw [← a.stage', computed_self]

theorem State.Lockstep.trans {m n : Nat} (h : s.Lockstep s' t t' g m) (h' : t.Lockstep t' u u' g' n) :
    s.Lockstep s' u u' g' (n + m) := by
  obtain ⟨b, b', k, rs, hlen, rfl, rfl⟩ := h
  obtain ⟨d, d', k', rs', hlen', rfl, rfl⟩ := h'
  refine ⟨d, d', k + k', rs' ++ rs, by rw [List.length_append, hlen, hlen'], ?_, ?_⟩ <;> rw [computed_computed]

theorem State.Aligned.step (a : s.Aligned s' g) (hidle : g ≠ .idle) (hstore : g ≠ .store) :
    ∃ t t', exec .step s = .next t ∧ exec .step s' = .next t' ∧ s.Lockstep s' t t' g.next 1 ∧ t.Aligned t' g.next := by
  have hs' := exec_step_computed a.stage' hidle hstore
  rw [← a.clamps_eq] at hs'
  exact ⟨_, _, exec_step_computed a.stage hidle hstore, hs', ⟨_, _, _, _, rfl, rfl, rfl⟩,
    a.cfg, rfl, rfl, a.output_sameInput hidle hstore _ _ _ _⟩

/-! ## From PRE_EMPHASIS to STORE -/

theorem runSteps_succ (n : Nat) (h : exec .step s = .next t) : runSteps (n + 1) s = runSteps n t := by
  rw [runSteps, h]

theorem code_next (hstore : g ≠ .store) : g.next.code.toNat = g.code.toNat + 1 := by
  cases g with
  | store => contradiction
  | _ => rfl

theorem next_ne_idle (hstore : g ≠ .store) : g.next ≠ .idle := by
  cases g with
  | store => contradiction
  | _ => decide

theorem eq_store_of_code (h : g.code.toNat = 7) : g = .store := by
  cases g with
  | store => rfl
  | _ => cases h

/-- With `n` stages before STORE, `n` STEPs bring both engines there. -/
theorem State.Aligned.runSteps_to_store (n : Nat) (a : s.Aligned s' g) (hidle : g ≠ .idle)
    (hn : g.code.toNat + n = 7) :
    ∃ t t', runSteps n s = .next t ∧ runSteps n s' = .next t' ∧ s.Lockstep s' t t' .store n ∧ t.Aligned t' .store := by
  induction n generalizing s s' g with
  | zero =>
    obtain rfl := eq_store_of_code hn
    exact ⟨s, s', rfl, rfl, a.lockstep_zero, a⟩
  | succ n ih =>
    have hstore : g ≠ .store := by
      rintro rfl
      simp [Stage.code] at hn
    obtain ⟨t, t', ht, ht', hl, hal⟩ := a.step hidle hstore
    have hcode := code_next hstore
    obtain ⟨u, u', hu, hu', hl', hal'⟩ := ih hal (next_ne_idle hstore) (by omega)
    exact ⟨u, u', (runSteps_succ n ht).trans hu, (runSteps_succ n ht').trans hu', hl.trans hl', hal'⟩

theorem State.Aligned.frame_to_row (a : s.Aligned s' .preEmphasis) :
    ∃ t t', runSteps 6 s = .next t ∧ runSteps 6 s' = .next t' ∧ s.Lockstep s' t t' .store 6 ∧ t.Aligned t' .store :=
  a.runSteps_to_store 6 (by decide) rfl

/-- Settles O35: the two engines are aligned at PRE_EMPHASIS, so they are at STORE (`State.Aligned.frame_to_row`), where the
input is the row. -/
theorem rowIsAFunctionOfTheFrame : Obligations.RowIsAFunctionOfTheFrame := by
  intro s s' hc hs hs' hframe
  have a : s.Aligned s' .preEmphasis := ⟨hc, hs, hs', hframe⟩
  obtain ⟨t, t', ht, ht', ⟨b, b', k, rs, hlen, rfl, rfl⟩, hrow⟩ := a.frame_to_row
  exact ⟨_, _, k, rs, ht, ht', hrow.input, hlen, rfl, rfl, satAdd_toNat _ _, satAdd_toNat _ _, rfl⟩

end Sys2Proof.Machine
end

section
/-! SUPPORT. Proofs of the family 41_stage_sequencer.md: a written frame has its token (rules R155, R161), and one frame from
IDLE to IDLE (rules R152, R322). -/

namespace Sys2Proof.Machine

variable {s t : State}

/-! ## The two events of ST.IDLE on a written frame (R155) -/

/-- The state between them: the read is admitted, with `c` tokens left. -/
def State.admitted (s : State) (c : BitVec 16) : State := { s with frCount := c, ePhase := .copy }

/-- The state after them, with the frame `x`. -/
def State.frameRead (s : State) (c : BitVec 16) (x : List Sample) : State :=
  { s with
    frCount := c
    frame := x
    readPos := ringAddr s.cfg.val.C s.readPos s.cfg.val.S
    ePhase := .idle
    uflag := false
    stage := .preEmphasis
    responses := ⟨.E, .ok, 1#32⟩ :: s.responses }

/-- A read that has its token or holds one from before, and its samples, is admitted and completes. -/
theorem frameRead_of_claim (h : s.Inv) (hs : s.stage = .idle) (he : s.ePhase = .idle)
    (hclaim : s.uflag = true ∨ s.frCount ≠ 0#16) (hW : s.cfg.val.W ≤ s.unread) :
    ∃ c x, exec .step s = .next (s.admitted c) ∧ exec .stIdle (s.admitted c) = .next (s.frameRead c x) := by
  obtain ⟨c, -, hcheck⟩ := idleCheck_claims hclaim
  obtain ⟨x, hx⟩ := ringRead_isOk (h.window_written hW)
  refine ⟨c, x, ?_, (exec_stIdle_of_copy rfl).trans (idleCopy_next hx)⟩
  rw [exec_step_of_stage hs, Stage.operation, exec_stIdle_of_idle he, hcheck,
    readCheck_admit (s := { s with frCount := c }) hW, State.admitted]

/-! ## A written frame never lacks its token (R161) -/

/-- The open stride holds less than a frame, so that some unread sample counts for a token or a pending retry (R160). -/
theorem State.Inv.claim_of_written (h : s.Inv) (he : s.ePhase = .idle) (hp : s.pPhase ≠ .acct)
    (hW : s.cfg.val.W ≤ s.unread) : s.uflag = true ∨ s.frCount ≠ 0#16 := by
  by_contra hnone
  simp only [not_or, Bool.not_eq_true, not_not] at hnone
  obtain ⟨hu, h0⟩ := hnone
  have htok := h.tokens
  rw [h0, State.claimed_eq_zero hu he, State.unaccounted_eq_zero rfl hp] at htok
  have hopen : s.unread = s.strideCnt.toNat := by simpa using htok
  have := h.stride_lt
  have := s.cfg.S_lt_W
  omega

/-- Settles O53: there is a claim (`State.Inv.claim_of_written`), and with one the read runs its two events
(`frameRead_of_claim`). -/
theorem writtenFrameNeverLacksItsToken : Obligations.WrittenFrameNeverLacksItsToken := by
  intro s h hs he hp hW
  obtain ⟨c, x, hadmit, hread⟩ := frameRead_of_claim h hs he (h.claim_of_written he hp hW) hW
  exact ⟨_, _, hadmit, rfl, hread, rfl, rfl⟩

/-! ## One frame (R152, R322) -/

/-- `n` events and then `m` more. -/
theorem runSteps_add {n : Nat} (m : Nat) (h : runSteps n s = .next t) : runSteps (n + m) s = runSteps m t := by
  induction n generalizing s with
  | zero =>
    cases h
    rw [Nat.zero_add]
  | succ n ih =>
    rw [runSteps] at h
    rw [Nat.add_right_comm, runSteps]
    cases hstep : exec .step s with
    | next u =>
      rw [hstep] at h
      exact ih h
    | fault f =>
      rw [hstep] at h
      cases h
    | refused r =>
      rw [hstep] at h
      cases h

/-- The first two events leave the frame in the work buffers. -/
theorem runSteps_frameRead (h : s.Inv) (hs : s.stage = .idle) (he : s.ePhase = .idle)
    (hclaim : s.uflag = true ∨ s.frCount ≠ 0#16) (hW : s.cfg.val.W ≤ s.unread) :
    ∃ c x, runSteps 2 s = .next (s.frameRead c x) := by
  obtain ⟨c, x, hadmit, hread⟩ := frameRead_of_claim h hs he hclaim hW
  have hstep : exec .step (s.admitted c) = .next (s.frameRead c x) := (exec_step_of_stage (s := s.admitted c) hs).trans hread
  exact ⟨c, x, by rw [runSteps_succ 1 hadmit, runSteps_succ 0 hstep, runSteps]⟩

/-- The next six bring the row. -/
theorem runSteps_row (hs : s.stage = .preEmphasis) :
    ∃ b k rs, rs.length = 6 ∧ runSteps 6 s = .next (s.computed b .store k rs) := by
  have a : s.Aligned s .preEmphasis := ⟨rfl, hs, hs, fun _ _ => rfl⟩
  obtain ⟨_, _, ht, -, ⟨b, -, k, rs, hlen, rfl, -⟩, -⟩ := a.frame_to_row
  exact ⟨b, k, rs, hlen, ht⟩

/-- `t` is `s` after an ungated ST.STORE of a row: back in IDLE, the row counted modulo the rows of a matrix, and nothing of
the ring and the read changed. -/
structure State.StoresRow (s t : State) : Prop where
  stage : t.stage = .idle
  row : t.rowIdx.toNat = (s.rowIdx.toNat + 1) % s.cfg.val.NUM_FRAMES
  answers : s.Answers t .E
  uflag : t.uflag = s.uflag
  ringKept : s.RingKept t

theorem exec_step_storesRow (hs : s.stage = .store) (hp : s.swapPending = false)
    (hr : s.rowIdx.toNat < s.cfg.val.NUM_FRAMES)
    (hgate : s.readyValid = false ∨ s.rowIdx.toNat + 1 < s.cfg.val.NUM_FRAMES) :
    ∃ t, exec .step s = .next t ∧ s.StoresRow t := by
  rw [exec_step_of_stage hs]
  by_cases hn : s.rowIdx.toNat + 1 < s.cfg.val.NUM_FRAMES
  · refine ⟨_, execStStore_room hp hn, rfl, ?_, ⟨rfl, rfl, _, _, rfl⟩, rfl, {}⟩
    exact (toNat_rowIdx_succ hr).trans (Nat.mod_eq_of_lt hn).symm
  · have hlast : s.rowIdx.toNat + 1 = s.cfg.val.NUM_FRAMES := by omega
    refine ⟨_, execStStore_swap hp hr hlast.ge (hgate.resolve_right hn), rfl, ?_, ⟨rfl, rfl, _, _, rfl⟩, rfl, {}⟩
    rw [hlast, Nat.mod_self]
    rfl

/-- Reading a frame frees `S` slots (R127). -/
theorem unread_frameRead (h : s.Inv) (hW : s.cfg.val.W ≤ s.unread) (c : BitVec 16) (x : List Sample) :
    (s.frameRead c x).unread + s.cfg.val.S = s.unread := by
  have hS : s.cfg.val.S ≤ s.unread := s.cfg.S_lt_W.le.trans hW
  have hu : (s.frameRead c x).unread = s.unread - s.cfg.val.S := unreadCount_read h.writePos_lt h.readPos_lt hS
  omega

theorem State.RingKept.unread_eq (k : s.RingKept t) : t.unread = s.unread := by
  rw [State.unread, k.cfg, k.writePos, k.readPos, State.unread]

/-- Settles O59: two events read the frame (`runSteps_frameRead`), six compute the row (`runSteps_row`), and one stores it
(`exec_step_storesRow`). -/
theorem oneFrameIsNineEvents : Obligations.OneFrameIsNineEvents := by
  intro s h hs he hclaim hW hgate
  have hp : s.swapPending = false := Bool.eq_false_iff.mpr (h.no_pending (by simp [hs]))
  obtain ⟨c, x, hread⟩ := runSteps_frameRead h hs he hclaim hW
  obtain ⟨b, k, rs, hlen, hrow⟩ := runSteps_row (s := s.frameRead c x) rfl
  obtain ⟨t, hstore, stage, row, ⟨-, ePhase, st, d, resp⟩, uflag, ring⟩ :=
    exec_step_storesRow (s := (s.frameRead c x).computed b .store k rs) rfl hp (h.row_lt hp) hgate
  have hrun : runSteps 9 s = .next t := by
    rw [show 9 = 2 + (6 + 1) from rfl, runSteps_add (6 + 1) hread, runSteps_add 1 hrow, runSteps_succ 0 hstore, runSteps]
  have hunread : t.unread = (s.frameRead c x).unread := ring.unread_eq
  refine ⟨t, hrun, stage, ePhase, uflag, ?unread, ?responses, ring.ring, row⟩
  case unread => rw [hunread, unread_frameRead h hW]
  case responses =>
    simp only [resp, State.computed, State.frameRead, List.length_cons, List.length_append, hlen]
    omega

end Sys2Proof.Machine
end

section
/-! SUPPORT. Proofs of the family 42_preemph_window.md: the pre-emphasis filter (rules R173 to R175) and the window product
(rules R179, R180). Both multiply a 16-bit sample by a Q15 coefficient in `[0, 32767]`, whose range is said once
(`q15_mul_bounds`). -/

namespace Sys2Proof.Machine

/-! ## A sample times a Q15 coefficient (R173, R180) -/

/-- The product of a sample and a Q15 coefficient that is not negative, and the product shifted back to 16 bits. -/
theorem q15_mul_bounds {q : Int} (hq : 0 ≤ q) (hq' : q ≤ 32767) (x : Sample) :
    -1073709056 ≤ q * x.toInt ∧ q * x.toInt ≤ 1073676289 ∧
      -32767 ≤ q * x.toInt / 32768 ∧ q * x.toInt / 32768 ≤ 32766 := by
  obtain ⟨hx, hx'⟩ := toInt_bounds x
  have hlo : -1073709056 ≤ q * x.toInt := by nlinarith
  have hhi : q * x.toInt ≤ 1073676289 := by nlinarith
  exact ⟨hlo, hhi, by omega, by omega⟩

theorem tableAt_le (t : List Sample) (i : Nat) : tableAt t i ≤ 32767 := (toInt_bounds _).2

theorem tableAt_nonneg {t : List Sample} (h : ∀ q ∈ t, 0 ≤ q.toInt) (i : Nat) : 0 ≤ tableAt t i := by
  rw [tableAt]
  by_cases hi : i < t.length
  · rw [List.getD_eq_getElem _ _ hi]
    exact h _ (List.getElem_mem hi)
  · rw [List.getD_eq_default _ _ (Nat.le_of_not_lt hi)]
    exact le_rfl

/-! ## ST.PREEMPH (R173 to R175) -/

/-- The filter output at `i + 1` before its clamp, from the inputs of the event (R171, R174). -/
def State.filtered (s : State) (i : Nat) : Int :=
  (s.frameAt (i + 1)).toInt - s.cfg.val.ALPHA_Q15 * (s.frameAt i).toInt / 32768

theorem frameNow_getElem? (s : State) {i : Nat} (hi : i < s.cfg.val.W) : s.frameNow[i]? = some (s.frameAt i) := by
  simp [State.frameNow, hi]

/-- The loop starts at the last element of the frame (R173). -/
theorem pred_W_lt_frameNow_length (s : State) : s.cfg.val.W - 1 < s.frameNow.length := by
  have := s.cfg.S_lt_W
  rw [frameNow_length]
  omega

theorem preemphValue_frameNow (s : State) {i : Nat} (hi : i + 1 < s.cfg.val.W) :
    preemphValue s.cfg.val.ALPHA_Q15 s.frameNow i = s.filtered i := by
  rw [preemphValue, List.getD_eq_getElem?_getD, List.getD_eq_getElem?_getD, frameNow_getElem? s hi,
    frameNow_getElem? s (Nat.lt_of_succ_lt hi), asr_fifteen]
  rfl

/-- ST.PREEMPH is its stage's buffer and clamps, with the end of an arithmetic stage (R159). -/
theorem exec_stPreemph (s : State) :
    exec .stPreemph s =
      .next ({ s with frame := (s.output .preEmphasis).frame }.finish .window (s.clamps .preEmphasis)) := rfl

/-- The loop runs over the whole frame (`preemphLoop_spec`): `frame[0]` passes through, and every other element is its filter
output, clamped. -/
theorem output_preEmphasis (s : State) :
    (s.output .preEmphasis).frame.length = s.cfg.val.W ∧
    (s.output .preEmphasis).frame[0]? = some (s.frameAt 0) ∧
    ∀ i, i + 1 < s.cfg.val.W → (s.output .preEmphasis).frame[i + 1]? = some (toSample (clamp16 (s.filtered i))) := by
  have hW : 0 < s.cfg.val.W := Nat.zero_lt_of_lt s.cfg.S_lt_W
  obtain ⟨hlen, hget, -⟩ := preemphLoop_spec s.cfg.val.ALPHA_Q15 (s.cfg.val.W - 1) s.frameNow 0
    (pred_W_lt_frameNow_length s)
  refine ⟨hlen.trans (frameNow_length s), ?first, fun i hi => ?rest⟩
  case first => exact (hget 0).trans (by simp [frameNow_getElem? s hW])
  case rest =>
    refine (hget (i + 1)).trans ?_
    rw [if_pos (by omega), Nat.add_sub_cancel, preemphValue_frameNow s hi]

/-- One clamp is counted per element whose filter output leaves the 16-bit range. -/
theorem clamps_preEmphasis (s : State) :
    s.clamps .preEmphasis = (List.range (s.cfg.val.W - 1)).countP fun i => outside16 (s.filtered i) := by
  obtain ⟨-, -, hclamps⟩ := preemphLoop_spec s.cfg.val.ALPHA_Q15 (s.cfg.val.W - 1) s.frameNow 0
    (pred_W_lt_frameNow_length s)
  rw [State.clamps, hclamps, Nat.zero_add, ← sum_clamps16]
  exact congrArg List.sum (List.map_congr_left fun i hi => by
    rw [preemphValue_frameNow s (by rw [List.mem_range] at hi; omega)])

/-- The coefficient is in `[0, 32767]` (R172), so the product has the range of `q15_mul_bounds`. -/
theorem alpha_mul_bounds (s : State) (i : Nat) :
    -1073709056 ≤ s.cfg.val.ALPHA_Q15 * (s.frameAt i).toInt ∧
      s.cfg.val.ALPHA_Q15 * (s.frameAt i).toInt ≤ 1073676289 ∧
      -32767 ≤ s.cfg.val.ALPHA_Q15 * (s.frameAt i).toInt / 32768 ∧
      s.cfg.val.ALPHA_Q15 * (s.frameAt i).toInt / 32768 ≤ 32766 :=
  q15_mul_bounds (Int.natCast_nonneg _) (Int.ofNat_le.mpr s.cfg.ALPHA_Q15_le) (s.frameAt i)

/-- The filter output before its clamp fits 17 bits. -/
theorem abs_filtered_le (s : State) (i : Nat) : |s.filtered i| ≤ 65534 := by
  obtain ⟨hx, hx'⟩ := toInt_bounds (s.frameAt (i + 1))
  obtain ⟨-, -, hlo, hhi⟩ := alpha_mul_bounds s i
  rw [State.filtered, abs_le]
  omega

/-- Settles O22: the loop's frame (`output_preEmphasis`), its clamps (`clamps_preEmphasis`) and the widths of its
intermediate values. -/
theorem preemphFiltersFromTheUnfilteredInputs : Obligations.PreemphFiltersFromTheUnfilteredInputs := by
  intro s
  obtain ⟨hlen, hfirst, hrest⟩ := output_preEmphasis s
  refine ⟨_, exec_stPreemph s, hlen, hfirst, fun i hi => ?value, fun i _ => ?widths, ?status, rfl⟩
  case value =>
    rw [State.finish_frame, hrest i hi, Option.map_some, toInt_toSample_clamp16]
    rfl
  case widths =>
    obtain ⟨hlo, hhi, hlo', hhi'⟩ := alpha_mul_bounds s i
    exact ⟨hlo, hhi, hlo', hhi', abs_filtered_le s i⟩
  case status =>
    rw [clamps_preEmphasis]
    exact finish_endsStage { s with frame := (s.output .preEmphasis).frame } .window _

/-! ## ST.WINDOW (R179, R180) -/

/-- ST.WINDOW is its stage's buffer, with the end of a stage that cannot saturate (R152). -/
theorem exec_stWindow (s : State) :
    exec .stWindow s = .next ({ s with frame := (s.output .window).frame }.advance .fft) := rfl

/-- The Hamming table is not negative (R12), so the product has the range of `q15_mul_bounds`. -/
theorem window_mul_bounds (s : State) (i : Nat) :
    -1073709056 ≤ (s.frameAt i).toInt * tableAt s.cfg.val.HAM i ∧
      (s.frameAt i).toInt * tableAt s.cfg.val.HAM i ≤ 1073676289 ∧
      -32767 ≤ (s.frameAt i).toInt * tableAt s.cfg.val.HAM i / 32768 ∧
      (s.frameAt i).toInt * tableAt s.cfg.val.HAM i / 32768 ≤ 32766 := by
  rw [mul_comm]
  exact q15_mul_bounds (tableAt_nonneg s.cfg.HAM_nonneg i) (tableAt_le _ i) (s.frameAt i)

/-- A window product is stored exactly: it needs no clamp (R180). -/
theorem toInt_toSample_windowAt (s : State) (i : Nat) :
    (toSample (windowAt s i)).toInt = (s.frameAt i).toInt * tableAt s.cfg.val.HAM i / 32768 := by
  obtain ⟨-, -, hlo, hhi⟩ := window_mul_bounds s i
  rw [windowAt, asr_fifteen]
  exact toInt_toSample (by omega) (by omega)

theorem output_window_getElem? (s : State) {i : Nat} (hi : i < s.cfg.val.W) :
    (s.output .window).frame[i]? = some (toSample (windowAt s i)) := by
  simp [State.output, hi]

/-- Settles O23: every product fits 16 bits after the shift (`window_mul_bounds`), so its stored pattern is its value
(`toInt_toSample_windowAt`). -/
theorem windowNeverSaturates : Obligations.WindowNeverSaturates := by
  intro s
  have hlen : (s.output .window).frame.length = s.cfg.val.W := by simp [State.output]
  refine ⟨_, exec_stWindow s, hlen, fun i hi => ?value, fun i _ => window_mul_bounds s i, rfl⟩
  case value => rw [State.advance_frame, output_window_getElem? s hi, Option.map_some, toInt_toSample_windowAt]

end Sys2Proof.Machine
end

section
/-! SUPPORT. Proofs of the family 43_fft.md: the bit-reversed load (rules R188, R189), the butterflies of a pass on the
values from before it (R190, R191), and zero in, zero out (R194). -/

namespace Sys2Proof.Machine

/-! ## The load (R189) -/

/-- Input `i` is loaded at `bitrev i`, and every imaginary part is zero (R189). -/
theorem fftLoad_bitrev (c : WfConfig) (x : Nat → Int) {i : Nat} (hi : i < c.val.NFFT) :
    (fftLoad c.val x).1[bitrev c.val.LOG2N i]? = some (if i < c.val.W then x i else 0) ∧
    (fftLoad c.val x).2[bitrev c.val.LOG2N i]? = some 0 := by
  have hinv : bitrev c.val.LOG2N (bitrev c.val.LOG2N i) = i := bitrev_bitrev (hi.trans_eq c.NFFT_eq)
  have hlt : bitrev c.val.LOG2N i < c.val.NFFT := (bitrev_lt _ i).trans_eq c.NFFT_eq.symm
  simp [fftLoad, hinv, hlt]

/-- Settles O24: the bit reversal (`testBit_bitrev`, `bitrev_bitrev`) and where it puts each input (`fftLoad_bitrev`). -/
theorem fftLoadsInBitReversedOrder : Obligations.FftLoadsInBitReversedOrder := by
  refine ⟨fun L i b => testBit_bitrev i, bitrev_lt, fun L i => bitrev_bitrev, fun c x i hi => ?_⟩
  obtain ⟨hre, him⟩ := fftLoad_length c.val x
  exact ⟨hre, him, fftLoad_bitrev c x hi⟩

/-! ## ST.FFT (R190, R191) -/

/-- ST.FFT leaves the arrays after the last pass, with the end of a stage that cannot saturate (R152, R192). -/
theorem exec_stFft (s : State) :
    exec .stFft s = .next ({ s with
      fre := (fftPasses s.cfg.val (fun i => (s.frameAt i).toInt) s.cfg.val.LOG2N).1
      fim := (fftPasses s.cfg.val (fun i => (s.frameAt i).toInt) s.cfg.val.LOG2N).2 }.advance .power) := rfl

/-- What a butterfly leaves at its two elements, from the values `ur + i * ui` and `br + i * bi` it finds there (R191). -/
theorem butterfly_pair (c : Config) (j : Nat) {a b : Nat} {z : Spectrum} (hab : a ≠ b) {ur ui br bi : Int}
    (hur : z.1[a]? = some ur) (hui : z.2[a]? = some ui) (hbr : z.1[b]? = some br) (hbi : z.2[b]? = some bi)
    (hl : z.2.length = z.1.length) :
    (butterfly c j a b z).1[a]? = some (ur + (tableAt c.TW_RE j * br - tableAt c.TW_IM j * bi) / 32768) ∧
    (butterfly c j a b z).2[a]? = some (ui + (tableAt c.TW_RE j * bi + tableAt c.TW_IM j * br) / 32768) ∧
    (butterfly c j a b z).1[b]? = some (ur - (tableAt c.TW_RE j * br - tableAt c.TW_IM j * bi) / 32768) ∧
    (butterfly c j a b z).2[b]? = some (ui - (tableAt c.TW_RE j * bi + tableAt c.TW_IM j * br) / 32768) := by
  have ha : a < z.1.length := (List.getElem?_eq_some_iff.mp hur).1
  have hb : b < z.1.length := (List.getElem?_eq_some_iff.mp hbr).1
  obtain ⟨hrea, hima⟩ := butterfly_getElem? c j a b z ha hb hl a
  obtain ⟨hreb, himb⟩ := butterfly_getElem? c j a b z ha hb hl b
  rw [if_neg hab, if_pos rfl] at hrea hima
  rw [if_pos rfl] at hreb himb
  rw [hrea, hima, hreb, himb]
  simp [twiddleProduct, asr_fifteen, List.getD_eq_getElem?_getD, hur, hui, hbr, hbi]

/-- Settles O25: the sequence is `fftPasses`; each pass computes its butterflies apart from each other (`fftPass_at`),
each by the sums of R191 (`butterfly_pair`). -/
theorem fftRunsItsButterflies : Obligations.FftRunsItsButterflies := by
  intro s
  refine ⟨fftPasses s.cfg.val fun i => (s.frameAt i).toInt, rfl, fun p _ => fftPasses_length _ _ p, ?_, exec_stFft s⟩
  rintro p - b hb t ht wr wi br bi ur ui rfl rfl hbr hbi hur hui
  obtain ⟨hre, him⟩ := fftPasses_length s.cfg.val (fun i => (s.frameAt i).toInt) p
  obtain ⟨hrea, hima, hreb, himb⟩ := fftPass_at s.cfg.val _ hre him hb ht
  have hhalf : b * 2 ^ (p + 1) + t ≠ b * 2 ^ (p + 1) + t + 2 ^ p := by
    have : 0 < 2 ^ p := by positivity
    omega
  rw [fftPasses_succ, hrea, hima, hreb, himb]
  exact butterfly_pair s.cfg.val _ hhalf hur hui hbr hbi (him.trans hre.symm)

/-! ## Zero in, zero out (R194) -/

/-- Two work arrays of `n` zeros. -/
def Spectrum.zeros (n : Nat) : Spectrum := (List.replicate n 0, List.replicate n 0)

/-- Both products with zero are zero, whatever the twiddle (R194). -/
theorem twiddleProduct_zero (wr wi : Int) : twiddleProduct wr wi 0 0 = (0, 0) := by simp [twiddleProduct]

theorem butterfly_zeros (c : Config) (j a b n : Nat) : butterfly c j a b (.zeros n) = .zeros n := by
  simp [butterfly, Spectrum.zeros, twiddleProduct_zero]

theorem butterflies_zeros (c : Config) (l : List (Nat × Nat × Nat)) (n : Nat) :
    butterflies c l (.zeros n) = .zeros n := by
  induction l with
  | nil => rfl
  | cons y l ih => rw [butterflies, List.foldl_cons, butterfly_zeros]; exact ih

theorem fftLoad_zero (c : Config) : fftLoad c (fun _ => 0) = .zeros c.NFFT := by
  simp [fftLoad, Spectrum.zeros]

theorem fftPasses_of_zero (c : Config) (p : Nat) : fftPasses c (fun _ => 0) p = .zeros c.NFFT := by
  induction p with
  | zero => exact fftLoad_zero c
  | succ p ih => rw [fftPasses_succ, ih, fftPass_eq, butterflies_zeros]

/-- Only the window is read, so a zero window is enough (R189, R194). -/
theorem fftOf_of_zero {c : Config} {x : Nat → Int} (h : ∀ i < c.W, x i = 0) : fftOf c x = .zeros c.NFFT :=
  (fftOf_congr h).trans (fftPasses_of_zero c c.LOG2N)

/-- Settles O26: the load and every pass of zeros give zeros (`fftOf_of_zero`). -/
theorem fftOfZeroIsZero : Obligations.FftOfZeroIsZero := by
  intro s hframe
  have hout : fftPasses s.cfg.val (fun i => (s.frameAt i).toInt) s.cfg.val.LOG2N = .zeros s.cfg.val.NFFT :=
    fftOf_of_zero fun i hi => by rw [hframe i hi]; rfl
  exact ⟨_, exec_stFft s, congrArg Prod.fst hout, congrArg Prod.snd hout⟩

end Sys2Proof.Machine
end

section
/-! SUPPORT. Proofs of the family 44_power_mel.md: the reference log compression (rules R212, R213) as a monotone search for
binary digits, and its distance from the real formula (log entries 4, 29). -/

namespace Sys2Proof.Machine

variable {gain acc : ℕ}

/-! ## Small accumulators and monotonicity (R212 (a), (b)) -/

theorem logqRef_of_pos (hg : 0 < gain) (acc : ℕ) :
    logqRef gain acc = logDigits gain acc (Nat.log2 gain + 7) 0 (2 ^ logPrecision gain) := if_neg hg.ne'

theorem logqRef_gain_zero (acc : ℕ) : logqRef 0 acc = 0 := if_pos rfl

/-- Every power of `e^(1 / gain)` is above 1 (`lt_expPow`), so up to 32768 the search takes no digit. -/
theorem logDigits_of_le (hg : 0 < gain) (h : acc ≤ 32768) (j : ℕ) :
    logDigits gain acc j 0 (2 ^ logPrecision gain) = 0 := by
  induction j with
  | zero => rfl
  | succ j ih =>
    have hacc : acc * 2 ^ logPrecision gain ≤ 2 ^ 15 * 2 ^ logPrecision gain := Nat.mul_le_mul_right _ h
    have hpow := lt_expPow hg j
    rw [logDigits, Nat.mul_div_cancel_left _ (by positivity), if_neg (by omega), ih]

/-- Where the searches for `a` and `b` part, `b` takes a digit that `a` leaves, and all later digits are less together. -/
theorem logDigits_mono {a b : ℕ} (h : a ≤ b) (j k prod : ℕ) :
    logDigits gain a j k prod ≤ logDigits gain b j k prod := by
  induction j generalizing k prod with
  | zero => rfl
  | succ j ih =>
    have hab : a * 2 ^ logPrecision gain ≤ b * 2 ^ logPrecision gain := Nat.mul_le_mul_right _ h
    rw [logDigits, logDigits]
    split_ifs with ha hb hb
    · exact ih _ _
    · exact absurd (ha.trans hab) hb
    · exact (logDigits_bounds gain a j k prod).2.le.trans (logDigits_bounds gain b j _ _).1
    · exact ih _ _

theorem logqRef_of_le (h : acc ≤ 32768) : logqRef gain acc = 0 := by
  rcases Nat.eq_zero_or_pos gain with rfl | hg
  · exact logqRef_gain_zero acc
  · rw [logqRef_of_pos hg, logDigits_of_le hg h]

theorem logqRef_mono (gain : ℕ) {a b : ℕ} (h : a ≤ b) : logqRef gain a ≤ logqRef gain b := by
  rcases Nat.eq_zero_or_pos gain with rfl | hg
  · rw [logqRef_gain_zero, logqRef_gain_zero]
  · rw [logqRef_of_pos hg, logqRef_of_pos hg]
    exact logDigits_mono h _ _ _

/-- R212 (c): below `2^61` the result fits 16 bits. -/
theorem logqRef_1024_le (h : acc < 2 ^ 61) : logqRef 1024 acc ≤ 32650 :=
  calc logqRef 1024 acc ≤ logqRef 1024 (2 ^ 61 - 1) := logqRef_mono 1024 (Nat.le_sub_one_of_lt h)
    _ = 32650 := by decide +kernel

theorem logqRef_1024_eq_zero (h : acc ≤ 32800) : logqRef 1024 acc = 0 :=
  Nat.le_zero.mp <| calc
    logqRef 1024 acc ≤ logqRef 1024 32800 := logqRef_mono 1024 h
    _ = 0 := by decide +kernel

/-- Settles O30: the search takes no digit up to 32768 (`logqRef_of_le`) and is monotone (`logqRef_mono`), which carries the
values at 32800 and `2^61 - 1` to all accumulators below; the listed values are evaluated. -/
theorem referenceLogHasItsProperties : Obligations.ReferenceLogHasItsProperties :=
  ⟨fun _ _ => logqRef_of_le, fun gain _ _ => logqRef_mono gain, fun _ => logqRef_1024_eq_zero, by decide +kernel,
    fun _ => logqRef_1024_le, by decide +kernel⟩

/-! ## The real formula (R212) -/

/-- The search has enough digits (log entry 4): `2^(log2 gain + 7)` is at least `64 * gain`, and `e^64` at least `2^64`. -/
theorem lt_exp_digits (hg : 0 < gain) (h : acc < 2 ^ 64) :
    (acc : ℝ) < 32768 * Real.exp (2 ^ (Nat.log2 gain + 7) / gain) := by
  have hlog : (gain : ℝ) < 2 ^ (Nat.log2 gain + 1) := by exact_mod_cast Nat.lt_log2_self
  have hdigits : (64 : ℝ) ≤ 2 ^ (Nat.log2 gain + 7) / gain := by
    rw [le_div_iff₀ (by exact_mod_cast hg), pow_add]
    rw [pow_succ] at hlog
    linarith
  have htwo : (2 : ℝ) ≤ Real.exp 1 := by linarith [Real.add_one_le_exp (1 : ℝ)]
  calc (acc : ℝ) < 2 ^ 64 := by exact_mod_cast h
    _ ≤ Real.exp 1 ^ 64 := pow_le_pow_left₀ (by norm_num) htwo 64
    _ = Real.exp 64 := by rw [← Real.exp_nat_mul]; norm_num
    _ ≤ Real.exp (2 ^ (Nat.log2 gain + 7) / gain) := Real.exp_le_exp.mpr hdigits
    _ ≤ _ := le_mul_of_one_le_left (Real.exp_pos _).le (by norm_num)

/-- The error of the search, `132 * 2^(log2 gain + 7)` units of the last place, is below `2^-100` relatively. -/
theorem logError_le (gain : ℕ) :
    (2 : ℝ) ^ logPrecision gain * (1 - 1 / 2 ^ 100) ≤ 2 ^ logPrecision gain - 132 * 2 ^ (Nat.log2 gain + 7) := by
  have hone : (1 : ℝ) ≤ 2 ^ Nat.log2 gain := one_le_pow₀ (by norm_num)
  have hscale : (2 : ℝ) ^ logPrecision gain = 2 ^ 192 * (2 ^ Nat.log2 gain * 2 ^ Nat.log2 gain) := by
    rw [logPrecision, pow_add, two_mul, pow_add]
  rw [hscale, pow_add]
  nlinarith

/-- Settles O31: the search starts with the exact power `e^0` and enough digits (`lt_exp_digits`), so `logDigits_spec` bounds
its result, with an error below `2^-100` (`logError_le`). -/
theorem referenceLogBracketsTheLogarithm : Obligations.ReferenceLogBracketsTheLogarithm := by
  intro gain acc hg hacc
  obtain ⟨hlt, hle⟩ := logDigits_spec (acc := acc) hg (Nat.log2 gain + 7) 0 (2 ^ logPrecision gain) 0 le_rfl
    (by simp) (by simp) (.inl rfl) (by simpa using lt_exp_digits hg hacc)
  rw [← logqRef_of_pos hg] at hlt hle
  rw [zero_add] at hle
  refine ⟨by exact_mod_cast hlt, fun hk => ?_⟩
  refine le_of_mul_le_mul_right ?_ (logScale_pos gain)
  calc 32768 * Real.exp ((logqRef gain acc : ℕ) / gain) * (1 - 1 / 2 ^ 100) * 2 ^ logPrecision gain
      = 32768 * (Real.exp ((logqRef gain acc : ℕ) / gain) * (2 ^ logPrecision gain * (1 - 1 / 2 ^ 100))) := by ring
    _ ≤ 32768 * (Real.exp ((logqRef gain acc : ℕ) / gain) *
          (2 ^ logPrecision gain - 132 * 2 ^ (Nat.log2 gain + 7))) := by
        gcongr
        exact logError_le gain
    _ ≤ acc * 2 ^ logPrecision gain := hle hk

end Sys2Proof.Machine
end

section
/-! SUPPORT. Proofs of the family 44_power_mel.md: the power of a bin (rules R200, R201), the Mel accumulator and its range
(rule R205), and the compressed Mel values (rules R208, R212). -/

namespace Sys2Proof.Machine

variable (s : State)

/-! ## ST.POWER (R200, R201) -/

/-- ST.POWER is its stage's buffer and clamps, with the end of an arithmetic stage (R159). -/
theorem exec_stPower :
    exec .stPower s = .next ({ s with power := (s.output .power).power }.finish .mel (s.clamps .power)) := rfl

/-- The shift by `LOG2N` is the division by `NFFT` (R9, R200). -/
theorem powerAt_eq (b : ℕ) : powerAt s b = (s.freAt b ^ 2 + s.fimAt b ^ 2) / s.cfg.val.NFFT := by
  rw [powerAt, asr, ← sq, ← sq, s.cfg.NFFT_eq]
  push_cast
  rfl

theorem powerAt_nonneg (b : ℕ) : 0 ≤ powerAt s b := by
  rw [powerAt_eq]
  positivity

theorem output_power_getElem? {b : ℕ} (hb : b < s.cfg.val.NBINS) :
    (s.output .power).power[b]? = some (satU32 (powerAt s b)) := by
  simp [State.output, hb]

theorem clamps_power :
    s.clamps .power = (List.range s.cfg.val.NBINS).countP fun b => decide (4294967295 < powerAt s b) :=
  sum_clampsU32 _ _

/-- Settles O28: a bin before saturation is the quotient (`powerAt_eq`), which is not negative, so saturation takes the
minimum (`toNat_satU32`) and is counted (`clamps_power`). -/
theorem powerDividesAndSaturates : Obligations.PowerDividesAndSaturates := by
  intro s
  have hlen : (s.output .power).power.length = s.cfg.val.NBINS := by simp [State.output]
  refine ⟨_, exec_stPower s, hlen, fun b hb => ?value, ?status, rfl⟩
  case value =>
    rw [State.finish_power, output_power_getElem? s hb, Option.map_some, toNat_satU32 (powerAt_nonneg s b), powerAt_eq]
  case status =>
    simp only [← powerAt_eq]
    rw [clamps_power]
    exact finish_endsStage { s with power := (s.output .power).power } .mel _

/-! ## The accumulator (R205) -/

theorem melAcc_eq (m : ℕ) :
    melAcc s m = ∑ b ∈ Finset.range s.cfg.val.NBINS,
      ((s.powerAt b).toNat : ℤ) * tableRowAt s.cfg.val.MELW m b := rfl

/-- A Mel weight is a Q15 value in `[0, 32767]` (R12), 0 past the table. -/
theorem tableRowAt_MELW_nonneg (c : WfConfig) (m b : ℕ) : 0 ≤ tableRowAt c.val.MELW m b := by
  refine tableAt_nonneg ?_ b
  by_cases hm : m < c.val.MELW.length
  · rw [List.getD_eq_getElem _ _ hm]
    exact c.MELW_nonneg _ (List.getElem_mem hm)
  · rw [List.getD_eq_default _ _ (Nat.le_of_not_lt hm)]
    simp

theorem melAcc_nonneg (m : ℕ) : 0 ≤ melAcc s m := by
  rw [melAcc_eq]
  exact Finset.sum_nonneg fun b _ => mul_nonneg (Int.natCast_nonneg _) (tableRowAt_MELW_nonneg s.cfg m b)

/-- A 32-bit power times a 15-bit weight, over at most `2^13 + 1` bins. -/
theorem melAcc_lt (m : ℕ) : melAcc s m < 2 ^ 32 * 2 ^ 15 * (2 ^ 13 + 1) := by
  have hterm : ∀ b ∈ Finset.range s.cfg.val.NBINS,
      ((s.powerAt b).toNat : ℤ) * tableRowAt s.cfg.val.MELW m b ≤ (2 ^ 32 - 1) * (2 ^ 15 - 1) := fun b _ =>
    mul_le_mul (Int.le_sub_one_of_lt (by exact_mod_cast (s.powerAt b).isLt)) (tableAt_le _ b)
      (tableRowAt_MELW_nonneg s.cfg m b) (by norm_num)
  have hbins : (s.cfg.val.NBINS : ℤ) ≤ 2 ^ 13 + 1 := by
    have := s.cfg.NFFT_le
    unfold Config.NBINS
    omega
  have hsum := Finset.sum_le_card_nsmul _ _ _ hterm
  rw [← melAcc_eq, Finset.card_range, nsmul_eq_mul] at hsum
  linarith

/-- The accumulator as the argument of `LOGQ` (R206): never negative, so the same number. -/
theorem toNat_melAcc (m : ℕ) : ((melAcc s m).toNat : ℤ) = melAcc s m := Int.toNat_of_nonneg (melAcc_nonneg s m)

theorem toNat_melAcc_lt (m : ℕ) : (melAcc s m).toNat < 2 ^ 32 * 2 ^ 15 * (2 ^ 13 + 1) := by
  have := melAcc_lt s m
  have := toNat_melAcc s m
  omega

/-! ## ST.MEL (R208) -/

/-- ST.MEL is its stage's buffer and clamps, with the end of an arithmetic stage (R159). -/
theorem exec_stMel :
    exec .stMel s = .next ({ s with melq := (s.output .mel).melq }.finish .dct (s.clamps .mel)) := rfl

theorem output_mel_getElem? {m : ℕ} (hm : m < s.cfg.val.NF) :
    (s.output .mel).melq[m]? = some (toSample (clamp16 (melValue s m))) := by
  simp [State.output, hm]

theorem clamps_mel : s.clamps .mel = (List.range s.cfg.val.NF).countP fun m => outside16 (melValue s m) :=
  sum_clamps16 _ _

/-- Settles O29: the accumulator is the sum itself (`melAcc_eq`, `toNat_melAcc`) inside its bound (`toNat_melAcc_lt`); its
compressed value is clamped and counted (`clamps_mel`). -/
theorem melAccumulatesAndCompresses : Obligations.MelAccumulatesAndCompresses := by
  intro s
  have hlen : (s.output .mel).melq.length = s.cfg.val.NF := by simp [State.output]
  refine ⟨_, fun m => (melAcc s m).toNat, exec_stMel s, hlen, fun m _ => ?sum, fun m _ => toNat_melAcc_lt s m,
    fun m hm => ?value, ?status, rfl⟩
  case sum => exact (toNat_melAcc s m).trans (melAcc_eq s m)
  case value =>
    rw [State.finish_melq, output_mel_getElem? s hm, Option.map_some, toInt_toSample_clamp16, melValue]
  case status =>
    rw [clamps_mel]
    exact finish_endsStage { s with melq := (s.output .mel).melq } .dct _

/-! ## ST.MEL with the reference log compression (R212) -/

section

variable {s} (hlog : s.cfg.val.LOGQ = .reference 1024)
include hlog

/-- The accumulator stays below `2^61` (`toNat_melAcc_lt`), where the reference stays inside 16 bits. -/
theorem melValue_bounds (m : ℕ) : 0 ≤ melValue s m ∧ melValue s m ≤ 32650 := by
  have hacc : (melAcc s m).toNat < 2 ^ 61 := (toNat_melAcc_lt s m).trans (by norm_num)
  rw [melValue, hlog]
  exact ⟨Int.natCast_nonneg _, Int.ofNat_le.mpr (logqRef_1024_le hacc)⟩

theorem clamps_mel_eq_zero : s.clamps .mel = 0 := by
  rw [clamps_mel, List.countP_eq_zero]
  intro m _
  have := melValue_bounds hlog m
  simp only [outside16, decide_eq_true_eq]
  omega

theorem output_mel_bounds : ∀ q ∈ (s.output .mel).melq, 0 ≤ q.toInt ∧ q.toInt ≤ 32650 := by
  intro q hq
  obtain ⟨m, -, rfl⟩ := List.mem_map.mp hq
  have := melValue_bounds hlog m
  rw [toInt_toSample_clamp16, within16]
  omega

end

/-- Settles O32: every compressed value fits (`melValue_bounds`), so nothing is clamped (`clamps_mel_eq_zero`). -/
theorem melWithReferenceLogNeverClamps : Obligations.MelWithReferenceLogNeverClamps := by
  intro s hlog
  have hexec := exec_stMel s
  rw [clamps_mel_eq_zero hlog] at hexec
  exact ⟨_, hexec, satAdd_zero _, rfl, output_mel_bounds hlog⟩

end Sys2Proof.Machine
end

section
/-! SUPPORT. Proofs of the family 45_dct.md: the whole sum shifted once and its widths (rules R223, R224). -/

namespace Sys2Proof.Machine

variable (s : State)

/-! ## Widths (R224) -/

/-- The product of two signed 16-bit values needs 32 bits (R224). -/
theorem toInt_mul_bounds (x y : Sample) : -1073709056 ≤ x.toInt * y.toInt ∧ x.toInt * y.toInt ≤ 1073741824 := by
  obtain ⟨hx, hx'⟩ := toInt_bounds x
  obtain ⟨hy, hy'⟩ := toInt_bounds y
  constructor <;> nlinarith

theorem dctAcc_eq (k : ℕ) :
    dctAcc s k = ∑ n ∈ Finset.range s.cfg.val.NF, (s.melqAt n).toInt * tableRowAt s.cfg.val.DCTC k n := rfl

/-- At most 256 products (R10) of at most `2^30` each. -/
theorem abs_dctAcc_le (k : ℕ) : |dctAcc s k| ≤ 2 ^ 38 := by
  have hterm : ∀ n ∈ Finset.range s.cfg.val.NF,
      |(s.melqAt n).toInt * tableRowAt s.cfg.val.DCTC k n| ≤ 2 ^ 30 := fun n _ => by
    obtain ⟨hlo, hhi⟩ := toInt_mul_bounds (s.melqAt n) ((s.cfg.val.DCTC.getD k []).getD n 0#16)
    exact abs_le.mpr ⟨by rw [tableRowAt, tableAt]; omega, hhi⟩
  have hNF : (s.cfg.val.NF : ℤ) ≤ 256 := by exact_mod_cast s.cfg.NF_le
  have hsum := (Finset.abs_sum_le_sum_abs _ _).trans (Finset.sum_le_card_nsmul _ _ _ hterm)
  rw [← dctAcc_eq, Finset.card_range, nsmul_eq_mul] at hsum
  linarith

/-- After the shift 24 bits are left, so the clamp can act (R224). -/
theorem abs_dctValue_le (k : ℕ) : |dctValue s k| ≤ 2 ^ 23 := by
  obtain ⟨hlo, hhi⟩ := abs_le.mp (abs_dctAcc_le s k)
  rw [dctValue, asr_fifteen, abs_le]
  omega

/-! ## ST.DCT (R223) -/

/-- ST.DCT is its stage's buffer and clamps, with the end of an arithmetic stage (R159). -/
theorem exec_stDct :
    exec .stDct s = .next ({ s with ceps := (s.output .dct).ceps }.finish .store (s.clamps .dct)) := rfl

theorem output_dct_getElem? {k : ℕ} (hk : k < s.cfg.val.NCEPS) :
    (s.output .dct).ceps[k]? = some (toSample (clamp16 (dctValue s k))) := by
  simp [State.output, hk]

theorem clamps_dct : s.clamps .dct = (List.range s.cfg.val.NCEPS).countP fun k => outside16 (dctValue s k) :=
  sum_clamps16 _ _

/-- Settles O33: the accumulator is the sum itself (`dctAcc_eq`), and it and the shifted value have their widths
(`abs_dctAcc_le`, `abs_dctValue_le`); the shifted value is clamped and counted (`clamps_dct`). -/
theorem dctShiftsTheWholeSum : Obligations.DctShiftsTheWholeSum := by
  intro s
  have hlen : (s.output .dct).ceps.length = s.cfg.val.NCEPS := by simp [State.output]
  refine ⟨_, dctAcc s, exec_stDct s, hlen, fun k _ => dctAcc_eq s k, fun k _ n _ => toInt_mul_bounds _ _,
    fun k _ => ⟨abs_dctAcc_le s k, abs_dctValue_le s k⟩, fun k hk => ?value, ?status, rfl⟩
  case value =>
    rw [State.finish_ceps, output_dct_getElem? s hk, Option.map_some, toInt_toSample_clamp16, dctValue, asr_fifteen]
  case status =>
    rw [clamps_dct]
    exact finish_endsStage { s with ceps := (s.output .dct).ceps } .store _

end Sys2Proof.Machine
end

section
/-! SUPPORT. Proofs of the family 45_dct.md: the silence baseline (rule R226). A stage whose input buffer is zero saturates
nothing and leaves a zero input buffer to the next, from PRE_EMPHASIS to STORE. -/

namespace Sys2Proof.Machine

variable {s : State} {g : Stage}

/-! ## Zero in, zero out (R226) -/

/-- The buffer that the operation of a stage reads holds zeros only (R226). -/
def State.ZeroInput (s : State) : Stage → Prop
  | .preEmphasis | .window | .fft => ∀ i < s.cfg.val.W, s.frameAt i = 0#16
  | .power => ∀ i < s.cfg.val.NFFT, s.freAt i = 0 ∧ s.fimAt i = 0
  | .mel => ∀ b < s.cfg.val.NBINS, s.powerAt b = 0#32
  | .dct => ∀ n < s.cfg.val.NF, s.melqAt n = 0#16
  | .store => s.ceps = List.replicate s.cfg.val.NCEPS 0#16
  | .idle => True

/-! The value of one element of each stage, when its input is zero. -/

theorem filtered_of_zero (h : s.ZeroInput .preEmphasis) {i : Nat} (hi : i + 1 < s.cfg.val.W) : s.filtered i = 0 := by
  rw [State.filtered, h i (Nat.lt_of_succ_lt hi), h (i + 1) hi]
  simp

theorem windowAt_of_zero (h : s.ZeroInput .window) {i : Nat} (hi : i < s.cfg.val.W) : windowAt s i = 0 := by
  rw [windowAt, h i hi]
  simp

theorem powerAt_of_zero (h : s.ZeroInput .power) {b : Nat} (hb : b < s.cfg.val.NBINS) : powerAt s b = 0 := by
  obtain ⟨hre, him⟩ := h b (hb.trans_le (NBINS_le s.cfg))
  rw [powerAt, hre, him]
  simp

/-- `LOGQ(0) = 0` under a well-formed configuration (R12, R207, R211). -/
theorem LogFn.value_zero {f : LogFn} (h : f.wf = true) : f.value 0 = 0 := by
  cases f with
  | reference gain => exact congrArg Nat.cast (logqRef_of_le (Nat.zero_le _))
  | table steps => exact eq_of_beq h

theorem melValue_of_zero (h : s.ZeroInput .mel) (m : Nat) : melValue s m = 0 := by
  have hacc : melAcc s m = 0 := by
    rw [melAcc_eq]
    exact Finset.sum_eq_zero fun b hb => by simp [h b (Finset.mem_range.mp hb)]
  rw [melValue, hacc]
  exact LogFn.value_zero s.cfg.LOGQ_wf

theorem dctValue_of_zero (h : s.ZeroInput .dct) (k : Nat) : dctValue s k = 0 := by
  have hacc : dctAcc s k = 0 := by
    rw [dctAcc_eq]
    exact Finset.sum_eq_zero fun n hn => by simp [h n (Finset.mem_range.mp hn)]
  rw [dctValue, hacc, asr_zero]

/-- Zeros saturate nothing. -/
theorem clamps_of_zero (h : s.ZeroInput g) : s.clamps g = 0 := by
  cases g with
  | preEmphasis =>
    rw [clamps_preEmphasis, List.countP_eq_zero]
    intro i hi
    rw [List.mem_range] at hi
    rw [filtered_of_zero h (by omega)]
    decide
  | power =>
    rw [clamps_power, List.countP_eq_zero]
    intro b hb
    rw [powerAt_of_zero h (List.mem_range.mp hb)]
    decide
  | mel =>
    simp only [clamps_mel, melValue_of_zero h]
    simp [outside16]
  | dct =>
    simp only [clamps_dct, dctValue_of_zero h]
    simp [outside16]
  | idle | window | fft | store => rfl

/-- An element written by the operation reads back, whatever stood there before (R52). -/
theorem getD_of_getElem? {α : Type} {l : List α} {i : Nat} {x : α} (h : l[i]? = some x) (d : α) : l.getD i d = x := by
  rw [List.getD_eq_getElem?_getD, h, Option.getD_some]

/-- The buffer that the operation writes, the input of the stage after it, holds zeros. -/
theorem output_zeroInput (h : s.ZeroInput g) (hidle : g ≠ .idle) (hstore : g ≠ .store) (k : Nat) (rs : List Response) :
    (s.computed (s.output g) g.next k rs).ZeroInput g.next := by
  cases g with
  | idle | store => contradiction
  | preEmphasis =>
    obtain ⟨-, hfirst, hrest⟩ := output_preEmphasis s
    rintro (_ | i) hi
    · rw [h 0 hi] at hfirst
      exact getD_of_getElem? hfirst _
    · have hget := hrest i hi
      rw [filtered_of_zero h hi] at hget
      exact getD_of_getElem? hget _
  | window =>
    intro i hi
    have hget := output_window_getElem? s hi
    rw [windowAt_of_zero h hi] at hget
    exact getD_of_getElem? hget _
  | fft =>
    have hout : fftOf s.cfg.val (fun i => (s.frameAt i).toInt) = .zeros s.cfg.val.NFFT :=
      fftOf_of_zero fun i hi => by rw [h i hi]; rfl
    intro i hi
    have hget : (List.replicate s.cfg.val.NFFT (0 : Int))[i]? = some 0 := List.getElem?_replicate_of_lt hi
    have hre : (s.output .fft).fre[i]? = some 0 := by rw [← hget]; exact congrArg (·.1[i]?) hout
    have him : (s.output .fft).fim[i]? = some 0 := by rw [← hget]; exact congrArg (·.2[i]?) hout
    exact ⟨getD_of_getElem? hre _, getD_of_getElem? him _⟩
  | power =>
    intro b hb
    have hget := output_power_getElem? s hb
    rw [powerAt_of_zero h hb] at hget
    exact getD_of_getElem? hget _
  | mel =>
    intro m hm
    have hget := output_mel_getElem? s hm
    rw [melValue_of_zero h m] at hget
    exact getD_of_getElem? hget _
  | dct =>
    change (s.output .dct).ceps = List.replicate s.cfg.val.NCEPS 0#16
    simp only [State.output, dctValue_of_zero h]
    simp [List.map_const', clamp16, toSample]

/-! ## From the input of a stage to the row -/

/-- The OK responses of `n` stage operations from stage `g` on, the last one first (R151). -/
def okResponses : Nat → Stage → List Response
  | 0, _ => []
  | n + 1, g => okResponses n g.next ++ [Stage.response g 0]

/-- With `n` stages before STORE and a zero input, `n` STEPs bring a zero row, all OK. -/
theorem runSteps_of_zero (n : Nat) (hs : s.stage = g) (h : s.ZeroInput g) (hidle : g ≠ .idle)
    (hn : g.code.toNat + n = 7) :
    ∃ b, runSteps n s = .next (s.computed b .store 0 (okResponses n g)) ∧
      (s.computed b .store 0 (okResponses n g)).ZeroInput .store := by
  induction n generalizing s g with
  | zero =>
    obtain rfl := eq_store_of_code hn
    exact ⟨s.buffers, congrArg Host.Outcome.next (hs ▸ (computed_self s).symm), h⟩
  | succ n ih =>
    have hstore : g ≠ .store := by
      rintro rfl
      simp [Stage.code] at hn
    have hstep := exec_step_computed hs hidle hstore
    have hcode := code_next hstore
    rw [clamps_of_zero h] at hstep
    have hnext := output_zeroInput h hidle hstore 0 [Stage.response g 0]
    obtain ⟨b, hrun, hzero⟩ := ih (g := g.next) rfl hnext (next_ne_idle hstore) (by omega)
    rw [computed_computed] at hrun hzero
    exact ⟨b, (runSteps_succ n hstep).trans hrun, hzero⟩

/-- Settles O34: six STEPs on a zero frame bring a zero row (`runSteps_of_zero`). The two frames of TINY are run for
the six STEPs: the first is zero after the window, the second in the power of every bin. -/
theorem silenceGivesAZeroRow : Obligations.SilenceGivesAZeroRow := by
  refine ⟨fun s hs hframe => ?silence, ⟨_, rfl, ?ones⟩, ⟨_, rfl, ?minusOnes⟩⟩
  case silence =>
    obtain ⟨b, hrun, hrow⟩ := runSteps_of_zero 6 hs hframe (by decide) rfl
    exact ⟨_, hrun, hrow, rfl, satAdd_zero _, rfl⟩
  case ones | minusOnes => decide +kernel

end Sys2Proof.Machine
end

section
/-! SUPPORT. Proofs of the family 46_feature_matrix.md: what a step does to the rows of the matrices (rules R231, R233 to
R236), said once for the steps that store a row and once for all others, and the consumer's commands (rules R238 to R240). -/

namespace Sys2Proof.Machine

variable {s t : State} {n : Nat} {rows : List (List Sample)}

/-! ## ST.STORE (R233)

`s.storeRow` is `s` with the row written and nothing else changed yet. -/

/-- `t` has the elements of `s`, and counts `n` rows in the matrix that was active in `s`: as its row index, or, where a swap
made that matrix ready, as a full matrix (R234, R236). -/
structure State.CountsRows (s t : State) (n : Nat) : Prop where
  cfg : t.cfg = s.cfg := by rfl
  mat : t.mat = s.mat := by rfl
  active : t.activeSel = s.activeSel → t.rowIdx.toNat = n
  swapped : t.activeSel ≠ s.activeSel → t.rowIdx = 0#13 ∧ n = s.cfg.val.NUM_FRAMES

theorem State.CountsRows.of_active (ha : t.activeSel = s.activeSel) (hn : t.rowIdx.toNat = n)
    (cfg : t.cfg = s.cfg := by rfl) (mat : t.mat = s.mat := by rfl) : s.CountsRows t n where
  cfg := cfg
  mat := mat
  active _ := hn
  swapped hne := absurd ha hne

theorem State.CountsRows.of_swap (ha : t.activeSel = !s.activeSel) (hr : t.rowIdx = 0#13)
    (hn : n = s.cfg.val.NUM_FRAMES) (cfg : t.cfg = s.cfg := by rfl) (mat : t.mat = s.mat := by rfl) :
    s.CountsRows t n where
  cfg := cfg
  mat := mat
  active heq := absurd (ha.symm.trans heq) (Bool.not_ne_self _)
  swapped _ := ⟨hr, hn⟩

/-- A row store leaves one row more in the matrix it stores to (R233). -/
theorem execStStore_countsRows (hp : s.swapPending = false) (h : execStStore s = .next t) :
    s.storeRow.CountsRows t (s.rowIdx.toNat + 1) := by
  have hr : s.rowIdx.toNat < s.cfg.val.NUM_FRAMES := row_lt_of_execStStore hp h
  by_cases hn : s.rowIdx.toNat + 1 < s.cfg.val.NUM_FRAMES
  · cases h.symm.trans (execStStore_room hp hn)
    exact .of_active rfl (toNat_rowIdx_succ hr)
  · have hlast : s.rowIdx.toNat + 1 = s.cfg.val.NUM_FRAMES := by omega
    cases hv : s.readyValid with
    | false =>
      cases h.symm.trans (execStStore_swap hp hr hlast.ge hv)
      exact .of_swap rfl rfl hlast
    | true =>
      cases h.symm.trans (execStStore_stall hp hr hlast.ge hv)
      exact .of_active rfl (toNat_rowIdx_succ hr)

/-- The retry of a gated swap, performed or not, stores no row and counts the full matrix (R233, R235). -/
theorem retrySwap_countsRows (hfull : s.rowIdx.toNat = s.cfg.val.NUM_FRAMES) :
    s.CountsRows (retrySwap s) s.rowIdx.toNat := by
  cases hv : s.readyValid with
  | false =>
    rw [retrySwap_swap hv]
    exact .of_swap rfl rfl hfull
  | true =>
    rw [retrySwap_stall hv]
    exact .of_active rfl rfl

/-- Settles O36: the row is in place after each of the three outcomes (`execStStore_countsRows`), which are one lemma each; a
pending swap is the retry. -/
theorem storeAppendsTheRowAndSwapsWhenFull : Obligations.StoreAppendsTheRowAndSwapsWhenFull := by
  refine ⟨fun s _ hm hp hr => ?store, fun s hs hp => ?retry⟩
  case store =>
    obtain ⟨t, ht⟩ := execStStore_answers_of_row fun _ => hr
    have hmat : t.mat = s.storeRow.mat := (execStStore_countsRows hp ht).mat
    refine ⟨t, ht, fun c hc => ?row, fun a ha => ?elsewhere, fun hn => ?room, fun hn hv => ?swap, fun hn hv => ?stall⟩
    case row => rw [hmat, storeRow_read s hm hr hr hc, if_pos ⟨rfl, rfl⟩]
    case elsewhere => rw [hmat, storeRow_read_outside s ha]
    case room =>
      cases ht.symm.trans (execStStore_room hp hn)
      exact ⟨toNat_rowIdx_succ hr, rfl⟩
    case swap =>
      cases ht.symm.trans (execStStore_swap hp hr hn.ge hv)
      rfl
    case stall =>
      cases ht.symm.trans (execStStore_stall hp hr hn.ge hv)
      exact ⟨(toNat_rowIdx_succ hr).trans hn, satInc_toNat _, rfl⟩
  case retry =>
    have hretry : exec .stStore s = .next (retrySwap s) := execStStore_pending hp
    have hcode : s.stage.word = 7#32 := congrArg Stage.word hs
    refine ⟨fun hv => ?_, fun hv => ?_⟩
    · rw [hretry, retrySwap_swap hv]
      rfl
    · rw [hretry, retrySwap_stall hv, hcode]
      rfl

/-! ## What a step does to the rows (R231, R234) -/

/-- A row to be stored has its place in the active matrix (R54 (e)). -/
theorem State.storesNext.row_lt (hn : s.storesNext) (hinv : s.Inv) : s.rowIdx.toNat < s.cfg.val.NUM_FRAMES := by
  obtain ⟨-, -, -, -, hp, -⟩ := hn
  exact hinv.row_lt hp

theorem exec_step_countsRows_of_store (hg : s.stage = .store) (hp : s.swapPending = false)
    (h : exec .step s = .next t) : s.storeRow.CountsRows t (s.rowIdx.toNat + 1) :=
  execStStore_countsRows hp ((exec_step_of_stage hg).symm.trans h)

/-- The next step of a state in which `storesNext` holds is ST.STORE of a row. -/
theorem State.storesNext.countsRows (hn : s.storesNext) (h : step s = .next t) :
    s.storeRow.CountsRows t (s.rowIdx.toNat + 1) := by
  obtain ⟨hs, he, hr, hg, hp, hq⟩ := hn
  obtain ⟨rest, hs⟩ := List.head?_eq_some_iff.mp hs
  obtain ⟨ws, hq⟩ := List.head?_eq_some_iff.mp hq
  have hl : s.eventsLeft .E = 0 := by rw [State.eventsLeft, he]
  rw [stepRunsTheDecodedInstruction s .E rest _ ws .step hs hl hq hr (decode_encode .step)] at h
  exact { exec_step_countsRows_of_store (s := { s with schedule := rest, queues := s.queues.set ws .E }) hg hp h with }

theorem idleCheck_countsRows (s : State) : s.CountsRows (idleCheck s) s.rowIdx.toNat := by
  unfold idleCheck readCheck
  split_ifs <;> exact .of_active rfl rfl

theorem idleCopy_countsRows (h : idleCopy s = .next t) : s.CountsRows t s.rowIdx.toNat := by
  unfold idleCopy at h
  split at h <;> cases h
  exact .of_active rfl rfl

theorem execStIdle_countsRows (h : execStIdle s = .next t) : s.CountsRows t s.rowIdx.toNat := by
  unfold execStIdle at h
  split at h
  · cases h
    exact idleCheck_countsRows s
  · exact idleCopy_countsRows h

/-- A STEP that stores no row: of the other stages, or of a pending swap. -/
theorem exec_step_countsRows (hp : s.stage = .store → s.swapPending = true ∧ s.rowIdx.toNat = s.cfg.val.NUM_FRAMES)
    (h : exec .step s = .next t) : s.CountsRows t s.rowIdx.toNat := by
  cases hs : s.stage with
  | idle => exact execStIdle_countsRows ((exec_step_of_stage hs).symm.trans h)
  | store =>
    obtain ⟨hpend, hfull⟩ := hp hs
    rw [exec_step_of_stage hs] at h
    cases h.symm.trans (execStStore_pending hpend)
    exact retrySwap_countsRows hfull
  | _ =>
    rw [exec_step_computed hs (by decide) (by decide)] at h
    cases h
    exact .of_active rfl rfl

/-- The columns of ports P, K and D have no matrix, no `active_sel` and no `row_idx` (R286). -/
theorem exec_countsRows_of_port_ne_E {i : Instr} (hi : i.port ≠ .E) (h : exec i s = .next t) :
    s.CountsRows t s.rowIdx.toNat := by
  obtain ⟨producer, -, consumer, diagnostics⟩ := eachPortWritesOnlyItsOwnState i s t h
  cases hp : i.port with
  | P => rw [(producer hp).2]; exact .of_active rfl rfl
  | E => exact absurd hp hi
  | K => rw [(consumer hp).2.2]; exact .of_active rfl rfl
  | D => rw [diagnostics hp]; exact .of_active rfl rfl

/-- The only command of port E is STEP (R104). -/
theorem port_ne_E_of_decodeOn {p : Port} {w : Word} {i : Instr} (hd : decodeOn p w = .ok i) (hi : i ≠ .step) :
    i.port ≠ .E := by
  rcases decodeOn_ok_cases hd with ⟨-, n, rfl⟩ | ⟨-, rfl⟩ | ⟨-, rfl | ⟨r, c, rfl⟩ | rfl⟩ | ⟨-, rfl | ⟨a, rfl⟩⟩
  case inr.inl => exact absurd rfl hi
  all_goals exact nofun

/-- A step that stores no row counts the rows there were (R234). -/
theorem StepTo.countsRows (h : StepTo s t) (hinv : s.Inv) (hstore : ¬s.storesNext) (hreset : ¬s.resetsNext) :
    s.CountsRows t s.rowIdx.toNat := by
  cases h with
  | idle | releaseRst | nothing | illegal => exact .of_active rfl rfl
  | assertRst _ hs => exact absurd (congrArg List.head? hs) hreset
  | pushCopy _ _ _ _ _ e | pushAccount _ _ _ _ _ e => cases e; exact .of_active rfl rfl
  | idleCopy rest _ _ _ _ e => exact { idleCopy_countsRows e with }
  | command p rest w ws i _ hs hl hq hr hd e =>
    by_cases hi : i = .step
    · subst hi
      cases decodeAndEncodeAreInverse.2 (.command p w) .step hd
      have hpend (hg : s.stage = .store) : s.swapPending = true ∧ s.rowIdx.toNat = s.cfg.val.NUM_FRAMES := by
        have hp : s.swapPending = true := Bool.eq_true_of_not_eq_false fun hp =>
          hstore ⟨congrArg List.head? hs, ePhase_idle_of_eventsLeft hl, hr, hg, hp, congrArg List.head? hq⟩
        exact ⟨hp, hinv.pending_row hp⟩
      exact { exec_step_countsRows (s := { s with schedule := rest, queues := s.queues.set ws .E }) hpend e with }
    · exact { exec_countsRows_of_port_ne_E (port_ne_E_of_decodeOn hd hi) e with }

/-- A row store leaves the other matrix as it was (R231). -/
theorem storeRow_read_other (hm : s.mat.wf) (hrow : s.rowIdx.toNat < s.cfg.val.NUM_FRAMES) {r c : Nat}
    (hr : r < s.cfg.val.NUM_FRAMES) (hc : c < s.cfg.val.NCEPS) :
    s.storeRow.mat.read (matAddr s.cfg.val (!s.activeSel) r c) = s.mat.read (matAddr s.cfg.val (!s.activeSel) r c) := by
  rw [storeRow_read s hm hrow hr hc, if_neg fun ⟨hsel, _⟩ => Bool.not_ne_self _ hsel]

/-- Settles O38: while a matrix is ready the roles stay (`swapIsOneStep`), and of MAT a step writes at most a row of the active
matrix. -/
theorem readyMatrixIsNeverWritten : Obligations.ReadyMatrixIsNeverWritten := by
  intro s t hinv hstep hreset hv
  obtain ⟨gate, -⟩ := swapIsOneStep s t hstep hreset
  have hsel : t.activeSel = s.activeSel := by
    by_contra hne
    exact Bool.false_ne_true ((gate.mp hne).1.symm.trans hv)
  refine ⟨hsel, fun r hr c hc => ?_⟩
  by_cases hn : s.storesNext
  · rw [(hn.countsRows hstep).mat, storeRow_read_other hinv.mat_wf (hn.row_lt hinv) hr hc]
  · rw [((stepTo_of_step hstep).countsRows hinv hn hreset).mat]

/-! ## The rows in order (R234) -/

/-- The stored row joins the rows the active matrix holds, as the last one. -/
theorem storeRow_holdsRows (hm : s.mat.wf) (hr : s.rowIdx.toNat < s.cfg.val.NUM_FRAMES)
    (hlen : rows.length = s.rowIdx.toNat) (h : s.holdsRows s.activeSel rows) :
    s.storeRow.holdsRows s.activeSel (rows ++ [s.cepsNow]) := by
  intro r hrow c hc
  rw [List.length_append, List.length_singleton] at hrow
  refine (storeRow_read s hm hr (show r < s.cfg.val.NUM_FRAMES by omega) hc).trans ?_
  rcases Nat.lt_succ_iff_lt_or_eq.mp hrow with hlt | rfl
  case inl => rw [if_neg (by omega), List.getD_append _ _ _ _ hlt, h r hlt c hc]
  case inr =>
    have hc : c < s.cfg.val.NCEPS := hc
    rw [if_pos ⟨rfl, hlen⟩, List.getD_append_right _ _ _ _ le_rfl]
    simp [State.cepsNow, hc]

theorem State.CountsRows.holdsRows (k : s.CountsRows t n) {sel : Bool} (h : s.holdsRows sel rows) :
    t.holdsRows sel rows := by
  unfold State.holdsRows
  rw [k.cfg, k.mat]
  exact h

/-- Without a swap the active matrix holds the rows counted. -/
theorem State.CountsRows.holdsRows_active (k : s.CountsRows t rows.length) (h : s.holdsRows s.activeSel rows)
    (ha : t.activeSel = s.activeSel) : rows.length = t.rowIdx.toNat ∧ t.holdsRows t.activeSel rows :=
  ⟨(k.active ha).symm, ha ▸ k.holdsRows h⟩

/-- After a swap the ready matrix holds the rows counted, `NUM_FRAMES` of them, and the active one starts at row 0. -/
theorem State.CountsRows.holdsRows_ready (k : s.CountsRows t rows.length) (h : s.holdsRows s.activeSel rows)
    (ha : t.activeSel ≠ s.activeSel) :
    t.rowIdx.toNat = 0 ∧ rows.length = s.cfg.val.NUM_FRAMES ∧ t.holdsRows (!t.activeSel) rows := by
  obtain ⟨hrow, hfull⟩ := k.swapped ha
  have hready : (!t.activeSel) = s.activeSel := Bool.not_eq.mpr ha
  exact ⟨congrArg BitVec.toNat hrow, hfull, hready ▸ k.holdsRows h⟩

/-- Settles O39: a step counts the rows there were, or those and the row it stores; both ways the matrix that counts them holds
them (`State.CountsRows.holdsRows_active`, `State.CountsRows.holdsRows_ready`). -/
theorem readyMatrixHoldsTheRowsInOrder : Obligations.ReadyMatrixHoldsTheRowsInOrder := by
  intro s t rows hinv hstep hlen hrows
  have stored (hn : s.storesNext) : s.storeRow.CountsRows t (rows ++ [s.cepsNow]).length ∧
      s.storeRow.holdsRows s.activeSel (rows ++ [s.cepsNow]) := by
    rw [List.length_append, List.length_singleton, hlen]
    exact ⟨hn.countsRows hstep, storeRow_holdsRows hinv.mat_wf (hn.row_lt hinv) hlen hrows⟩
  have kept (hn : ¬s.storesNext) (hreset : ¬s.resetsNext) : s.CountsRows t rows.length :=
    hlen ▸ (stepTo_of_step hstep).countsRows hinv hn hreset
  refine ⟨fun hn ha => ?_, fun hn ha => ?_, fun hn hreset ha => ?_, fun hn hreset ha => ?_⟩
  · exact (stored hn).1.holdsRows_active (stored hn).2 ha
  · exact (stored hn).1.holdsRows_ready (stored hn).2 ha
  · exact (kept hn hreset).holdsRows_ready hrows ha
  · exact (kept hn hreset).holdsRows_active hrows ha

/-! ## The consumer's commands (R238 to R240) -/

theorem exec_mread_ok {r c : BitVec 12} {v : Sample} (hr : r.toNat < s.cfg.val.NUM_FRAMES)
    (hc : c.toNat < s.cfg.val.NCEPS) (hv : s.readyValid = true)
    (hread : s.mat.read (matAddr s.cfg.val (!s.activeSel) r.toNat c.toNat) = some v) :
    exec (.mread r c) s = .next (s.respond .K .ok (v.signExtend 32)) := by
  simp [exec, execMread, hv, hread, Nat.not_le.mpr hr, Nat.not_le.mpr hc]

/-- Settles O41: the ready matrix is complete by the invariant, so MREAD finds its element. -/
theorem mreadAnswersEveryReadyElement : Obligations.MreadAnswersEveryReadyElement := by
  refine ⟨fun s r c hinv hv hr hc => ?_, fun s r c h => exec_mread_illegal h⟩
  obtain ⟨v, hread⟩ := Option.isSome_iff_exists.mp (hinv.ready_written hv _ hr _ hc)
  exact ⟨v, hread, exec_mread_ok hr hc hv hread⟩

/-- Settles O40: MTAKE by the signal; the ready matrix is the one that is not active. -/
theorem mtakeTakesTheSignalOnce : Obligations.MtakeTakesTheSignalOnce := by
  refine fun s => ⟨fun h => ?_, fun h => if_neg (by simp [h])⟩
  have hindex : BitVec.ofNat 32 (1 - s.activeSel.toNat) = if s.activeSel then 0#32 else 1#32 := by
    cases s.activeSel <;> rfl
  exact (if_pos h).trans (by rw [hindex]; rfl)

/-- Settles O42: RELEASE by `ready_valid`. -/
theorem releaseFreesTheReadyMatrix : Obligations.ReleaseFreesTheReadyMatrix :=
  fun _ => ⟨fun h => if_pos h, fun h => exec_release_illegal h⟩

end Sys2Proof.Machine
end

section
/-! SUPPORT. Proofs of the family 70_reset_and_hazards.md: the first commands after reset (rule R304), each from the lemma
about its command at the values of R53. -/

namespace Sys2Proof.Machine

/-- An empty block leaves the latched operands and the response, and nothing else (R105, R128). -/
theorem pushed_zero_eq {s : State} (hst : s.strideCnt.toNat < s.cfg.val.S) (hw : s.writePos < s.cfg.val.C) :
    s.pushed 0#16 = { s with
      pPhase := .idle, pN := 0#16, pPayload := [], responses := ⟨.P, .ok, 0#32⟩ :: s.responses } := by
  obtain ⟨-, hwrite, hstride, hfr⟩ := pushed_zero hst hw
  calc s.pushed 0#16
      = { s.pushed 0#16 with writePos := s.writePos, strideCnt := s.strideCnt, frCount := s.frCount } := by
        rw [← hwrite, ← hstride, ← hfr]
    _ = _ := rfl

/-- STATUS is zero after reset (R50, R53), so RDCSR reads 0 there. -/
theorem exec_rdcsr_status_resetOf (c : WfConfig) :
    exec (.rdcsr 0x00#8) (State.resetOf c) = .next ((State.resetOf c).respond .D .ok 0#32) := by
  obtain ⟨hst, hd⟩ := csr_answer (s := State.resetOf c) (a := 0x00#8) (congrArg some (statusWord_resetOf c))
  rw [exec_rdcsr, hst, hd]

/-- The ring is empty after reset (R24, R53). -/
theorem unread_resetOf (c : WfConfig) : (State.resetOf c).unread = 0 := unreadCount_zero c.val.C

theorem exec_avail_resetOf (c : WfConfig) :
    exec .avail (State.resetOf c) = .next ((State.resetOf c).respond .D .ok 0#32) := by
  rw [exec, execAvail, unread_resetOf]

/-- PUSH.C of an empty block on the ring as reset leaves it (R53). -/
theorem exec_push_account_resetOf (c : WfConfig) :
    exec (.push 0#16) ((State.resetOf c).pushCopied 0#16) =
      .next { State.resetOf c with pN := 0#16, pPayload := [], responses := [⟨.P, .ok, 0#32⟩] } := by
  rw [exec_push_of_acct rfl, pushAccount_pushCopied, pushed_zero_eq (s := State.resetOf c) c.S_pos c.C_pos]
  rfl

/-- Settles O58: no claim for STEP, no signal for MTAKE, no ready matrix for MREAD and RELEASE, an empty ring, a zero STATUS,
and an empty block for PUSH 0. -/
theorem firstCommandsAfterReset : Obligations.FirstCommandsAfterReset := by
  intro c
  refine ⟨execStep_resetOf c, (mtakeTakesTheSignalOnce _).2 rfl, exec_mread_illegal (.inr (.inr rfl)),
    exec_release_illegal rfl, exec_avail_resetOf c, exec_rdcsr_status_resetOf c, ?push⟩
  have hadmit : exec (.push 0#16) (State.resetOf c) =
      .next { (State.resetOf c).latchPush 0#16 with pPhase := .copy } :=
    exec_push_admit rfl (Nat.zero_le _) (Nat.zero_le _)
  exact ⟨_, _, hadmit, exec_push_copy (State.resetOf c) 0#16, exec_push_account_resetOf c⟩

end Sys2Proof.Machine
end
